-- ==== Sys2Proof/Word.lean ====
section
/-! DEFINITION. The word types of the machine (00_scope.md R8, R11). -/

namespace Sys2Proof

/-- A byte of memory or of an instruction. -/
abbrev Byte := BitVec 8

/-- A 64-bit word: RIP, a general register, a linear address, an opmask register, an MMX register. -/
abbrev Word64 := BitVec 64

/-- The 512 bits in which a vector register is kept; the low MAXVL of them exist (10_state.md R22). -/
abbrev VecWord := BitVec 512

end Sys2Proof
end

