-- ==== Sys2Proof/Syntax.lean ====
section
/-! DEFINITION. The instructions: one constructor of `Instr` per row of spec/opcode_table.json. An instruction carries the
fields of its encoding under the spec's names (30_encoding.md R64 to R80), inverted fields already uninverted. Fields the
spec ignores (W, an unused X or B) and the order of the prefixes are carried too: they fix the instruction's bytes and its
length, and the meanings do not look at them. -/

namespace Sys2Proof

/-- The admitted legacy prefixes (R65, R75, D23): `66`, `67`, `64`, `65`. -/
inductive Pfx where
  | opSize
  | addrSize
  | segFs
  | segGs
  deriving DecidableEq, Repr

/-- The segments whose base an override adds (10_state.md R26). -/
inductive Seg where
  | fs
  | gs
  deriving DecidableEq, Repr

/-- The REX prefix `0100WRXB` (R68). -/
structure Rex where
  w : Bool
  r : Bool
  x : Bool
  b : Bool
  deriving DecidableEq, Repr

/-- A displacement (R66, R67): none (`mod` = 00b), 8 bits (01b), 32 bits (10b). -/
inductive Disp where
  | absent
  | d8 (d : BitVec 8)
  | d32 (d : BitVec 32)
  deriving DecidableEq, Repr

/-- The memory forms of ModRM and SIB (R67). -/
inductive MemForm where
  /-- `rm` names the base; `rm` is not 100b, and not 101b without displacement. -/
  | indirect (rm : BitVec 3) (disp : Disp)
  /-- `mod` = 00b, `rm` = 101b: relative to the next instruction. -/
  | ripRel (disp : BitVec 32)
  /-- A SIB byte with a base `bbb`; `bbb` is not 101b without displacement. -/
  | sib (ss : BitVec 2) (iii : BitVec 3) (bbb : BitVec 3) (disp : Disp)
  /-- A SIB byte with `mod` = 00b and `bbb` = 101b: no base, a 32-bit displacement. -/
  | sibNoBase (ss : BitVec 2) (iii : BitVec 3) (disp : BitVec 32)
  deriving DecidableEq, Repr

/-- The ModRM:r/m operand: a register (`mod` = 11b) or a memory location (R43, R66). -/
inductive RegMem where
  | reg (rm : BitVec 3)
  | mem (form : MemForm)
  deriving DecidableEq, Repr

/-- The fields of a legacy-encoded form (R64): prefixes in byte order, REX if present, ModRM.reg, ModRM.r/m. -/
structure LegacyEnc where
  pfx : List Pfx
  rex : Option Rex
  reg : BitVec 3
  rm : RegMem
  deriving DecidableEq, Repr

/-- The fields of a form with a three-byte VEX prefix (R72). -/
structure Vex3Enc where
  pfx : List Pfx
  r : Bool
  x : Bool
  b : Bool
  w : Bool
  vvvv : BitVec 4
  reg : BitVec 3
  rm : RegMem
  deriving DecidableEq, Repr

/-- The fields of a form with a two-byte VEX prefix (R73). -/
structure Vex2Enc where
  pfx : List Pfx
  r : Bool
  vvvv : BitVec 4
  reg : BitVec 3
  rm : RegMem
  deriving DecidableEq, Repr

/-- The fields of an EVEX-encoded form (R76); `rHi` is the spec's R', `vHi` its V'. -/
structure EvexEnc where
  pfx : List Pfx
  r : Bool
  x : Bool
  b : Bool
  rHi : Bool
  w : Bool
  vvvv : BitVec 4
  z : Bool
  vHi : Bool
  aaa : BitVec 3
  reg : BitVec 3
  rm : RegMem
  deriving DecidableEq, Repr

/-- The instructions, one constructor per row of spec/opcode_table.json (R4, R88). Rows 5 to 8 of R4 stand in the table
twice, in the three-byte and the two-byte VEX spelling, and so they do here. -/
inductive Instr where
  | psubsbMm (e : LegacyEnc)
  | psubsbXmm (e : LegacyEnc)
  | psubswMm (e : LegacyEnc)
  | psubswXmm (e : LegacyEnc)
  | vpsubsbXmmVex3 (e : Vex3Enc)
  | vpsubsbXmmVex2 (e : Vex2Enc)
  | vpsubswXmmVex3 (e : Vex3Enc)
  | vpsubswXmmVex2 (e : Vex2Enc)
  | vpsubsbYmmVex3 (e : Vex3Enc)
  | vpsubsbYmmVex2 (e : Vex2Enc)
  | vpsubswYmmVex3 (e : Vex3Enc)
  | vpsubswYmmVex2 (e : Vex2Enc)
  | vpsubsbXmmEvex (e : EvexEnc)
  | vpsubsbYmmEvex (e : EvexEnc)
  | vpsubsbZmmEvex (e : EvexEnc)
  | vpsubswXmmEvex (e : EvexEnc)
  | vpsubswYmmEvex (e : EvexEnc)
  | vpsubswZmmEvex (e : EvexEnc)
  deriving DecidableEq, Repr

/-- Why the decoder gives bytes no meaning (R65, R69, R83, D23, U7 to U9, U15). All of these are refusals of the spec itself.
Hardware executes some of them, so each is safe: a run stops where hardware may go on. -/
inductive Unadmitted where
  /-- The opcode is not `0F E8` or `0F E9` in any of the four encodings (R83, U15). -/
  | otherOpcode
  /-- VEX or EVEX at `E8`/`E9` with another `pp` or another opcode map (R83, U9). -/
  | otherMap
  /-- A repeated prefix, or both segment overrides (R65, U7). -/
  | repeatedPrefix
  /-- A segment override `26`, `2E`, `36` or `3E` (R65, U7). -/
  | nullSegment
  /-- A prefix byte after REX (R65, U7). -/
  | prefixAfterRex
  /-- REX.R on an MMX row, or REX.B with an MMX register operand (R69, U8). -/
  | rexOnMmx
  deriving DecidableEq, Repr

end Sys2Proof
end

