-- ==== Sys2Proof/WellFormed.lean ====
section
/-! DEFINITION. Which terms of `Instr` are instructions: those whose fields an encoding of the spec can hold. -/

namespace Sys2Proof

/-- Prefixes of one group exclude each other (R65): `66`, `67`, and the two overrides. -/
def Pfx.group : Pfx → Nat
  | .opSize => 0
  | .addrSize => 1
  | .segFs => 2
  | .segGs => 2

/-- No two prefixes of one group (R65: no repeated prefix, at most one of `64`, `65`). -/
def pfxDistinct : List Pfx → Bool
  | [] => true
  | p :: ps => !ps.any (fun q => q.group == p.group) && pfxDistinct ps

/-- Prefixes in front of a VEX or EVEX prefix, or of an MMX row: distinct, and no `66` (R65, R70, R75, R81), in either order
(before VEX and EVEX: log 31). -/
def pfxNoOpSize (ps : List Pfx) : Bool := pfxDistinct ps && !ps.contains .opSize

/-- Prefixes of an XMM legacy row: distinct, with the mandatory `66` (R65, R70). -/
def pfxOpSize (ps : List Pfx) : Bool := pfxDistinct ps && ps.contains .opSize

/-- The memory forms ModRM and SIB can spell (R67). -/
def MemForm.wf : MemForm → Bool
  | .indirect rm d => rm != 4#3 && !(rm == 5#3 && d == .absent)
  | .ripRel _ => true
  | .sib _ _ bbb d => !(bbb == 5#3 && d == .absent)
  | .sibNoBase _ _ _ => true

def RegMem.wf : RegMem → Bool
  | .reg _ => true
  | .mem m => m.wf

def RegMem.isReg : RegMem → Bool
  | .reg _ => true
  | .mem _ => false

/-- REX bits an MMX row may not have (R69): R, and B with a register operand. -/
def mmxRexBits (rex : Option Rex) (rm : RegMem) : Bool :=
  match rex with
  | none => false
  | some x => x.r || (x.b && rm.isReg)

def LegacyEnc.wfMmx (e : LegacyEnc) : Bool := pfxNoOpSize e.pfx && e.rm.wf && !mmxRexBits e.rex e.rm
def LegacyEnc.wfXmm (e : LegacyEnc) : Bool := pfxOpSize e.pfx && e.rm.wf
def Vex3Enc.wf (e : Vex3Enc) : Bool := pfxNoOpSize e.pfx && e.rm.wf
def Vex2Enc.wf (e : Vex2Enc) : Bool := pfxNoOpSize e.pfx && e.rm.wf

/-- Zeroing without a writemask is no encoding of an EVEX form (R80). -/
def EvexEnc.wf (e : EvexEnc) : Bool := pfxNoOpSize e.pfx && e.rm.wf && !(e.z && e.aaa == 0#3)

/-- Well-formed instructions: those that some bytes decode to. -/
def Instr.wf : Instr → Bool
  | .psubsbMm e => e.wfMmx
  | .psubsbXmm e => e.wfXmm
  | .psubswMm e => e.wfMmx
  | .psubswXmm e => e.wfXmm
  | .vpsubsbXmmVex3 e => e.wf
  | .vpsubsbXmmVex2 e => e.wf
  | .vpsubswXmmVex3 e => e.wf
  | .vpsubswXmmVex2 e => e.wf
  | .vpsubsbYmmVex3 e => e.wf
  | .vpsubsbYmmVex2 e => e.wf
  | .vpsubswYmmVex3 e => e.wf
  | .vpsubswYmmVex2 e => e.wf
  | .vpsubsbXmmEvex e => e.wf
  | .vpsubsbYmmEvex e => e.wf
  | .vpsubsbZmmEvex e => e.wf
  | .vpsubswXmmEvex e => e.wf
  | .vpsubswYmmEvex e => e.wf
  | .vpsubswZmmEvex e => e.wf

end Sys2Proof
end

