-- ==== Sys2Proof/Decode.lean ====
section
/-! DEFINITION. From bytes to instructions (30_encoding.md R87), total on any bytes; then the encoder, written from the same
tables (R64 to R80), and the length of an instruction (R86).

An instruction's bytes are read whole, ModRM, SIB and displacement included, before it is judged: bytes that end too early
are `truncated`, whatever else is wrong with them (60_exceptions.md R150 puts the fetch first). Where bytes are both `#UD`
and refused, `#UD` is answered (log 18). -/

namespace Sys2Proof

/-- What bytes decode to. -/
inductive Decoded where
  /-- A well-formed instruction. -/
  | instr (i : Instr)
  /-- An encoding at which the processor raises #UD (R83, 60_exceptions.md R144). -/
  | invalid
  /-- No instruction of the spec, or one it refuses. -/
  | refused (why : Unadmitted)
  /-- The bytes end before the instruction does. -/
  | truncated
  deriving DecidableEq, Repr

/-! ### Prefix bytes -/

/-- `40` to `4F` (R68). -/
def isRexByte (b : Byte) : Bool := b.extractLsb' 4 4 == 4#4

/-- `F0`, `F2`, `F3`: #UD on every row (R70, R75, R81, R84). -/
def isUdPrefixByte (b : Byte) : Bool := b == 0xF0#8 || b == 0xF2#8 || b == 0xF3#8

/-- The overrides `26`, `2E`, `36`, `3E`, which the spec refuses (R65). -/
def isNullSegmentByte (b : Byte) : Bool := b == 0x26#8 || b == 0x2E#8 || b == 0x36#8 || b == 0x3E#8

/-- The admitted prefixes (R65). -/
def pfxOfByte (b : Byte) : Option Pfx :=
  if b == 0x66#8 then some .opSize
  else if b == 0x67#8 then some .addrSize
  else if b == 0x64#8 then some .segFs
  else if b == 0x65#8 then some .segGs
  else none

/-- Every byte that may stand before `0F`, `C4`, `C5` or `62`. -/
def isPrefixByte (b : Byte) : Bool :=
  isRexByte b || isUdPrefixByte b || isNullSegmentByte b || (pfxOfByte b).isSome

/-- REX fields (R68). -/
def rexOfByte (b : Byte) : Rex :=
  { w := b.getLsbD 3, r := b.getLsbD 2, x := b.getLsbD 1, b := b.getLsbD 0 }

/-- The prefix bytes of an instruction, read in order: legacy prefixes, then at most one REX, which must be the last (R64,
R65, R68). `67` and an override may stand in either order, before VEX and EVEX too, where R60 writes the override first (log 31). -/
def readPrefixes : List Byte → Except Unadmitted (List Pfx × Option Rex)
  | [] => .ok ([], none)
  | b :: bs =>
    if isRexByte b then
      if bs.isEmpty then .ok ([], some (rexOfByte b)) else .error .prefixAfterRex
    else match pfxOfByte b with
      | none => .error .nullSegment
      | some p =>
        match readPrefixes bs with
        | .error why => .error why
        | .ok (ps, rex) =>
          if ps.any (fun q => q.group == p.group) then .error .repeatedPrefix else .ok (p :: ps, rex)

/-! ### ModRM, SIB, displacement (R66, R67) -/

/-- A 32-bit displacement, little-endian (20_memory.md R42). -/
def readDisp32 : List Byte → Option (BitVec 32)
  | b0 :: b1 :: b2 :: b3 :: _ => some (b3 ++ b2 ++ b1 ++ b0)
  | _ => none

/-- The displacement `mod` asks for. -/
def readDisp (md : BitVec 2) (bytes : List Byte) : Option Disp :=
  if md == 0#2 then some .absent
  else if md == 1#2 then
    match bytes with
    | [] => none
    | b :: _ => some (.d8 b)
  else (readDisp32 bytes).map .d32

/-- The SIB byte and what follows it. -/
def readSib (md : BitVec 2) (bytes : List Byte) : Option MemForm :=
  match bytes with
  | [] => none
  | s :: rest =>
    let ss := s.extractLsb' 6 2
    let iii := s.extractLsb' 3 3
    let bbb := s.extractLsb' 0 3
    if bbb == 5#3 && md == 0#2 then (readDisp32 rest).map (.sibNoBase ss iii)
    else (readDisp md rest).map (.sib ss iii bbb)

/-- The ModRM:r/m operand. -/
def readRegMem (md : BitVec 2) (rm : BitVec 3) (bytes : List Byte) : Option RegMem :=
  if md == 3#2 then some (.reg rm)
  else if rm == 4#3 then (readSib md bytes).map .mem
  else if md == 0#2 && rm == 5#3 then (readDisp32 bytes).map (fun d => .mem (.ripRel d))
  else (readDisp md bytes).map (fun d => .mem (.indirect rm d))

/-- ModRM and everything after it: ModRM.reg and the ModRM:r/m operand. -/
def readModRM (bytes : List Byte) : Option (BitVec 3 × RegMem) :=
  match bytes with
  | [] => none
  | m :: rest =>
    (readRegMem (m.extractLsb' 6 2) (m.extractLsb' 0 3) rest).map (fun o => (m.extractLsb' 3 3, o))

/-! ### The four encodings -/

/-- `E8` and `E9`, the opcode bytes of the fourteen forms (R62). -/
def isOpcode (opc : Byte) : Bool := opc == 0xE8#8 || opc == 0xE9#8

/-- A `66`, `F2`, `F3`, `F0` or REX byte before a VEX or EVEX prefix: #UD (R75, R81). -/
def udBeforeVex (ps : List Byte) : Bool := ps.any (fun b => isUdPrefixByte b || isRexByte b || b == 0x66#8)

/-- Rows 1 to 4, after `0F` (R64 to R70). -/
def decodeLegacy (ps : List Byte) (bytes : List Byte) : Decoded :=
  match bytes with
  | [] => .truncated
  | opc :: rest =>
    if !isOpcode opc then .refused .otherOpcode
    else match readModRM rest with
      | none => .truncated
      | some (reg, rm) =>
        if ps.any isUdPrefixByte then .invalid
        else match readPrefixes ps with
          | .error why => .refused why
          | .ok (pfx, rex) =>
            let e : LegacyEnc := { pfx := pfx, rex := rex, reg := reg, rm := rm }
            if pfx.contains .opSize then
              if opc == 0xE8#8 then .instr (.psubsbXmm e) else .instr (.psubswXmm e)
            else if mmxRexBits rex rm then .refused .rexOnMmx
            else if opc == 0xE8#8 then .instr (.psubsbMm e) else .instr (.psubswMm e)

/-- Rows 5 to 8 by opcode and `L`, in the three-byte spelling (R62, R74). -/
def vex3Row (opc : Byte) (l : Bool) (e : Vex3Enc) : Instr :=
  if opc == 0xE8#8 then (if l then .vpsubsbYmmVex3 e else .vpsubsbXmmVex3 e)
  else (if l then .vpsubswYmmVex3 e else .vpsubswXmmVex3 e)

/-- Rows 5 to 8 by opcode and `L`, in the two-byte spelling (R62, R73). -/
def vex2Row (opc : Byte) (l : Bool) (e : Vex2Enc) : Instr :=
  if opc == 0xE8#8 then (if l then .vpsubsbYmmVex2 e else .vpsubsbXmmVex2 e)
  else (if l then .vpsubswYmmVex2 e else .vpsubswXmmVex2 e)

/-- After `C4` (R72). -/
def decodeVex3 (ps : List Byte) (bytes : List Byte) : Decoded :=
  match bytes with
  | v1 :: v2 :: opc :: rest =>
    if !isOpcode opc then .refused .otherOpcode
    else if v1.extractLsb' 0 5 != 1#5 || v2.extractLsb' 0 2 != 1#2 then .refused .otherMap
    else match readModRM rest with
      | none => .truncated
      | some (reg, rm) =>
        if udBeforeVex ps then .invalid
        else match readPrefixes ps with
          | .error why => .refused why
          | .ok (pfx, _) =>
            .instr (vex3Row opc (v2.getLsbD 2)
              { pfx := pfx, r := !v1.getLsbD 7, x := !v1.getLsbD 6, b := !v1.getLsbD 5, w := v2.getLsbD 7,
                vvvv := ~~~(v2.extractLsb' 3 4), reg := reg, rm := rm })
  | _ => .truncated

/-- After `C5` (R73). -/
def decodeVex2 (ps : List Byte) (bytes : List Byte) : Decoded :=
  match bytes with
  | v1 :: opc :: rest =>
    if !isOpcode opc then .refused .otherOpcode
    else if v1.extractLsb' 0 2 != 1#2 then .refused .otherMap
    else match readModRM rest with
      | none => .truncated
      | some (reg, rm) =>
        if udBeforeVex ps then .invalid
        else match readPrefixes ps with
          | .error why => .refused why
          | .ok (pfx, _) =>
            .instr (vex2Row opc (v1.getLsbD 2)
              { pfx := pfx, r := !v1.getLsbD 7, vvvv := ~~~(v1.extractLsb' 3 4), reg := reg, rm := rm })
  | _ => .truncated

/-- Rows 9 to 14 by opcode and `L'L`; `11b` names none (R77). -/
def evexRow (opc : Byte) (ll : BitVec 2) (e : EvexEnc) : Option Instr :=
  if ll == 0#2 then some (if opc == 0xE8#8 then .vpsubsbXmmEvex e else .vpsubswXmmEvex e)
  else if ll == 1#2 then some (if opc == 0xE8#8 then .vpsubsbYmmEvex e else .vpsubswYmmEvex e)
  else if ll == 2#2 then some (if opc == 0xE8#8 then .vpsubsbZmmEvex e else .vpsubswZmmEvex e)
  else none

/-- Field values of an EVEX prefix at which #UD is raised (R76, R80, R83): `P0[3:2]` not 00b, `P1[2]` = 0, `b` = 1,
`L'L` = 11b, and `z` = 1 with `aaa` = 000b. -/
def evexReserved (p0 p1 p2 : Byte) : Bool :=
  p0.extractLsb' 2 2 != 0#2 || !p1.getLsbD 2 || p2.getLsbD 4 || p2.extractLsb' 5 2 == 3#2
    || (p2.getLsbD 7 && p2.extractLsb' 0 3 == 0#3)

/-- The fields of an EVEX prefix (R76). -/
def evexFields (pfx : List Pfx) (p0 p1 p2 : Byte) (reg : BitVec 3) (rm : RegMem) : EvexEnc :=
  { pfx := pfx, r := !p0.getLsbD 7, x := !p0.getLsbD 6, b := !p0.getLsbD 5, rHi := !p0.getLsbD 4, w := p1.getLsbD 7,
    vvvv := ~~~(p1.extractLsb' 3 4), z := p2.getLsbD 7, vHi := !p2.getLsbD 3, aaa := p2.extractLsb' 0 3, reg := reg, rm := rm }

/-- After `62` (R76 to R81). -/
def decodeEvex (ps : List Byte) (bytes : List Byte) : Decoded :=
  match bytes with
  | p0 :: p1 :: p2 :: opc :: rest =>
    if !isOpcode opc then .refused .otherOpcode
    else if p0.extractLsb' 0 2 != 1#2 || p1.extractLsb' 0 2 != 1#2 then .refused .otherMap
    else match readModRM rest with
      | none => .truncated
      | some (reg, rm) =>
        if udBeforeVex ps || evexReserved p0 p1 p2 then .invalid
        else match readPrefixes ps with
          | .error why => .refused why
          | .ok (pfx, _) =>
            match evexRow opc (p2.extractLsb' 5 2) (evexFields pfx p0 p1 p2 reg rm) with
            | none => .invalid
            | some i => .instr i
  | _ => .truncated

/-- The family is told from the first byte that is no prefix (R86, R87). -/
def decodeBody (ps : List Byte) (bytes : List Byte) : Decoded :=
  match bytes with
  | [] => .truncated
  | b :: rest =>
    if b == 0x0F#8 then decodeLegacy ps rest
    else if b == 0xC5#8 then decodeVex2 ps rest
    else if b == 0xC4#8 then decodeVex3 ps rest
    else if b == 0x62#8 then decodeEvex ps rest
    else .refused .otherOpcode

/-- The decoder (R87): the instruction that begins with the first of these bytes. Bytes after it are not looked at. -/
def decode (bytes : List Byte) : Decoded :=
  decodeBody (bytes.takeWhile isPrefixByte) (bytes.dropWhile isPrefixByte)

/-! ### The encoder -/

def Pfx.byte : Pfx → Byte
  | .opSize => 0x66#8
  | .addrSize => 0x67#8
  | .segFs => 0x64#8
  | .segGs => 0x65#8

def Rex.byte (x : Rex) : Byte :=
  4#4 ++ BitVec.ofBool x.w ++ BitVec.ofBool x.r ++ BitVec.ofBool x.x ++ BitVec.ofBool x.b

/-- A 32-bit displacement as bytes, the lowest first. -/
def disp32Bytes (d : BitVec 32) : List Byte :=
  [d.extractLsb' 0 8, d.extractLsb' 8 8, d.extractLsb' 16 8, d.extractLsb' 24 8]

def Disp.md : Disp → BitVec 2
  | .absent => 0#2
  | .d8 _ => 1#2
  | .d32 _ => 2#2

def Disp.bytes : Disp → List Byte
  | .absent => []
  | .d8 d => [d]
  | .d32 d => disp32Bytes d

/-- `mod`, `reg`, `rm` as one byte (R66). -/
def modrmByte (md : BitVec 2) (reg rm : BitVec 3) : Byte := md ++ reg ++ rm

/-- ModRM, SIB and displacement of an operand (R66, R67). -/
def modrmBytes (reg : BitVec 3) : RegMem → List Byte
  | .reg rm => [modrmByte 3#2 reg rm]
  | .mem (.indirect rm d) => modrmByte d.md reg rm :: d.bytes
  | .mem (.ripRel d) => modrmByte 0#2 reg 5#3 :: disp32Bytes d
  | .mem (.sib ss iii bbb d) => modrmByte d.md reg 4#3 :: (ss ++ iii ++ bbb : BitVec 8) :: d.bytes
  | .mem (.sibNoBase ss iii d) => modrmByte 0#2 reg 4#3 :: (ss ++ iii ++ 5#3 : BitVec 8) :: disp32Bytes d

def rexBytes : Option Rex → List Byte
  | none => []
  | some x => [x.byte]

def encodeLegacy (opc : Byte) (e : LegacyEnc) : List Byte :=
  e.pfx.map Pfx.byte ++ (rexBytes e.rex ++ (0x0F#8 :: opc :: modrmBytes e.reg e.rm))

/-- `C4 v1 v2 opc` (R72). -/
def encodeVex3 (opc : Byte) (l : Bool) (e : Vex3Enc) : List Byte :=
  e.pfx.map Pfx.byte ++
    (0xC4#8 :: (BitVec.ofBool (!e.r) ++ BitVec.ofBool (!e.x) ++ BitVec.ofBool (!e.b) ++ 1#5 : BitVec 8)
      :: (BitVec.ofBool e.w ++ ~~~e.vvvv ++ BitVec.ofBool l ++ 1#2 : BitVec 8) :: opc :: modrmBytes e.reg e.rm)

/-- `C5 v1 opc` (R73). -/
def encodeVex2 (opc : Byte) (l : Bool) (e : Vex2Enc) : List Byte :=
  e.pfx.map Pfx.byte ++
    (0xC5#8 :: (BitVec.ofBool (!e.r) ++ ~~~e.vvvv ++ BitVec.ofBool l ++ 1#2 : BitVec 8) :: opc :: modrmBytes e.reg e.rm)

/-- `62 P0 P1 P2 opc` (R76), with `b` = 0. -/
def encodeEvex (opc : Byte) (ll : BitVec 2) (e : EvexEnc) : List Byte :=
  e.pfx.map Pfx.byte ++
    (0x62#8
      :: (BitVec.ofBool (!e.r) ++ BitVec.ofBool (!e.x) ++ BitVec.ofBool (!e.b) ++ BitVec.ofBool (!e.rHi) ++ 1#4 : BitVec 8)
      :: (BitVec.ofBool e.w ++ ~~~e.vvvv ++ 1#1 ++ 1#2 : BitVec 8)
      :: (BitVec.ofBool e.z ++ ll ++ 0#1 ++ BitVec.ofBool (!e.vHi) ++ e.aaa : BitVec 8)
      :: opc :: modrmBytes e.reg e.rm)

/-- The bytes of an instruction, the first at the lowest address. -/
def encode : Instr → List Byte
  | .psubsbMm e => encodeLegacy 0xE8#8 e
  | .psubsbXmm e => encodeLegacy 0xE8#8 e
  | .psubswMm e => encodeLegacy 0xE9#8 e
  | .psubswXmm e => encodeLegacy 0xE9#8 e
  | .vpsubsbXmmVex3 e => encodeVex3 0xE8#8 false e
  | .vpsubsbXmmVex2 e => encodeVex2 0xE8#8 false e
  | .vpsubswXmmVex3 e => encodeVex3 0xE9#8 false e
  | .vpsubswXmmVex2 e => encodeVex2 0xE9#8 false e
  | .vpsubsbYmmVex3 e => encodeVex3 0xE8#8 true e
  | .vpsubsbYmmVex2 e => encodeVex2 0xE8#8 true e
  | .vpsubswYmmVex3 e => encodeVex3 0xE9#8 true e
  | .vpsubswYmmVex2 e => encodeVex2 0xE9#8 true e
  | .vpsubsbXmmEvex e => encodeEvex 0xE8#8 0#2 e
  | .vpsubsbYmmEvex e => encodeEvex 0xE8#8 1#2 e
  | .vpsubsbZmmEvex e => encodeEvex 0xE8#8 2#2 e
  | .vpsubswXmmEvex e => encodeEvex 0xE9#8 0#2 e
  | .vpsubswYmmEvex e => encodeEvex 0xE9#8 1#2 e
  | .vpsubswZmmEvex e => encodeEvex 0xE9#8 2#2 e

/-! ### Length (R86) -/

def Disp.len : Disp → Nat
  | .absent => 0
  | .d8 _ => 1
  | .d32 _ => 4

/-- ModRM, SIB and displacement: 1, 0 or 1, and 0, 1 or 4 bytes. -/
def RegMem.len : RegMem → Nat
  | .reg _ => 1
  | .mem (.indirect _ d) => 1 + d.len
  | .mem (.ripRel _) => 1 + 4
  | .mem (.sib _ _ _ d) => 1 + 1 + d.len
  | .mem (.sibNoBase _ _ _) => 1 + 1 + 4

def LegacyEnc.len (e : LegacyEnc) : Nat := e.pfx.length + (if e.rex.isSome then 1 else 0) + 2 + e.rm.len
def Vex3Enc.len (e : Vex3Enc) : Nat := e.pfx.length + 4 + e.rm.len
def Vex2Enc.len (e : Vex2Enc) : Nat := e.pfx.length + 3 + e.rm.len
def EvexEnc.len (e : EvexEnc) : Nat := e.pfx.length + 5 + e.rm.len

/-- The length of an instruction in bytes, all prefixes included (R86). -/
def Instr.len : Instr → Nat
  | .psubsbMm e => e.len
  | .psubsbXmm e => e.len
  | .psubswMm e => e.len
  | .psubswXmm e => e.len
  | .vpsubsbXmmVex3 e => e.len
  | .vpsubsbXmmVex2 e => e.len
  | .vpsubswXmmVex3 e => e.len
  | .vpsubswXmmVex2 e => e.len
  | .vpsubsbYmmVex3 e => e.len
  | .vpsubsbYmmVex2 e => e.len
  | .vpsubswYmmVex3 e => e.len
  | .vpsubswYmmVex2 e => e.len
  | .vpsubsbXmmEvex e => e.len
  | .vpsubsbYmmEvex e => e.len
  | .vpsubsbZmmEvex e => e.len
  | .vpsubswXmmEvex e => e.len
  | .vpsubswYmmEvex e => e.len
  | .vpsubswZmmEvex e => e.len

/-! ### The opcode table's numbering of bits -/

/-- The architectural limit of an instruction's length (R86). -/
def maxInstrBytes : Nat := 15

/-- The bytes of an instruction whose bits are `w`, numbered as the opcode table numbers them: byte `k` is bits `8k+7:8k`.
Bits from `nbits` up are zero; as many bytes as an instruction can have (log 23). -/
def tableBytes (nbits w : Nat) : List Byte :=
  (List.range maxInstrBytes).map (fun k => BitVec.ofNat 8 ((w % 2 ^ nbits) / 2 ^ (8 * k)))

/-- The instruction the decoder reads from a word of the opcode table. -/
def decodeTableWord (nbits w : Nat) : Option Instr :=
  match decode (tableBytes nbits w) with
  | .instr i => some i
  | .invalid => none
  | .refused _ => none
  | .truncated => none

end Sys2Proof
end

