-- ==== Sys2Proof/Machine/Lanes.lean ====
section
/-! DEFINITION. The lane arithmetic: saturation, the two lane functions, and packed subtraction with and without a writemask
(00_scope.md R12 to R15, 40_legacy_mmx_sse.md R101, 42_evex.md R122). -/

namespace Sys2Proof.Machine

/-- SaturateToSignedByte (00_scope.md R13). -/
def satS8 (x : Int) : BitVec 8 :=
  if 127 < x then 0x7F#8 else if x < -128 then 0x80#8 else BitVec.ofInt 8 x

/-- SaturateToSignedWord (00_scope.md R14). -/
def satS16 (x : Int) : BitVec 16 :=
  if 32767 < x then 0x7FFF#16 else if x < -32768 then 0x8000#16 else BitVec.ofInt 16 x

/-- SubSB (00_scope.md R15): the exact signed difference, saturated. -/
def subSB (a b : BitVec 8) : BitVec 8 := satS8 (a.toInt - b.toInt)

/-- SubSW (00_scope.md R15). -/
def subSW (a b : BitVec 16) : BitVec 16 := satS16 (a.toInt - b.toInt)

/-- Element `j` of a packed vector with `e`-bit elements: bits `je+e-1:je` (00_scope.md R8). -/
def lane (e : Nat) {w : Nat} (x : BitVec w) (j : Nat) : BitVec e := x.extractLsb' (j * e) e

/-- The number whose `e`-bit digits are the `n` elements from `f j` on, `f j` lowest. -/
def packNat {e : Nat} (f : Nat → BitVec e) : Nat → Nat → Nat
  | _, 0 => 0
  | j, n + 1 => (f j).toNat + 2 ^ e * packNat f (j + 1) n

/-- The `w`-bit vector whose elements are `f 0`, `f 1`, ... -/
def pack (w : Nat) {e : Nat} (f : Nat → BitVec e) : BitVec w := BitVec.ofNat w (packNat f 0 (w / e))

/-- PSubS(e, w, a, b) (R101), `sub` being the lane function for `e`. -/
def psubs {e : Nat} (sub : BitVec e → BitVec e → BitVec e) {w : Nat} (a b : BitVec w) : BitVec w :=
  pack w (fun j => sub (lane e a j) (lane e b j))

/-- The writemask of an EVEX form: none, or the bits of K[aaa] (42_evex.md R121). -/
abbrev WriteMask := Option (BitVec 64)

/-- `k1[j] OR *no writemask*` (R121). -/
def WriteMask.active (k : WriteMask) (j : Nat) : Bool :=
  match k with
  | none => true
  | some m => m.getLsbD j

/-- PSubSMask(e, VL, old, a, b, masked, k, z) (R122): a masked-off element keeps the old one under merging-masking and is zero
under zeroing-masking. -/
def psubsMask {e : Nat} (sub : BitVec e → BitVec e → BitVec e) {w : Nat} (old a b : BitVec w) (k : WriteMask) (z : Bool) :
    BitVec w :=
  pack w (fun j =>
    if k.active j then sub (lane e a j) (lane e b j)
    else if z then 0#e
    else lane e old j)

end Sys2Proof.Machine
end

