-- ==== Sys2Proof/Config.lean ====
section
/-! DEFINITION. What a launch fixes (00_scope.md R7), as plain data that State holds, and the free values: what the
spec leaves open after an instruction that goes on. A free value has no body, so no proof can see what it is. -/

namespace Sys2Proof.Config

/-- The operating modes R6 names. Only `long64` is admitted (D1); a step in any other is refused by name. -/
inductive Mode where
  | long64
  | compatibility
  | protected32
  | realAddress
  | virtual8086
  | mode16
  deriving DecidableEq, Repr

/-- `Features` of R7: the CPUID feature flags present, any subset of the six (R2, D2). -/
structure Features where
  mmx : Bool
  sse2 : Bool
  avx : Bool
  avx2 : Bool
  avx512bw : Bool
  avx512vl : Bool
  deriving DecidableEq, Repr

/-- `Enabled` of R7, field by field as 10_state.md R30 lists it. `AlignmentCheck` is not stored: R7 gives it as CR0.AM and
EFLAGS.AC and CPL = 3, and it is computed from these (Machine/Flags.lean). -/
structure Enabled where
  /-- CR0 bit 2. -/
  cr0Em : Bool
  /-- CR0 bit 3. -/
  cr0Ts : Bool
  /-- CR0 bit 18. -/
  cr0Am : Bool
  /-- CR4 bit 9. -/
  cr4Osfxsr : Bool
  /-- CR4 bit 18. -/
  cr4Osxsave : Bool
  /-- XCR0 bit 1, SSE state. -/
  xcr0Sse : Bool
  /-- XCR0 bit 2, AVX state. -/
  xcr0Avx : Bool
  /-- XCR0 bit 5, opmask state. -/
  xcr0Opmask : Bool
  /-- XCR0 bit 6, ZMM_Hi256 state. -/
  xcr0ZmmHi256 : Bool
  /-- XCR0 bit 7, Hi16_ZMM state. -/
  xcr0Hi16Zmm : Bool
  /-- An unmasked x87 exception is pending (R147). -/
  x87ExceptionPending : Bool
  deriving DecidableEq, Repr

/-- Width of a canonical linear address (20_memory.md R51; G17 names both widths). -/
inductive VaWidth where
  | bits48
  | bits57
  deriving DecidableEq, Repr

/-- What an access to memory is for: the `kind` of MemFault (R7, D10). -/
inductive AccessKind where
  | read
  | fetch
  deriving DecidableEq, Repr

/-- What the environment answers for an access it does not allow (R7, R50); `device` marks a window the model has no
memory for (R49, U17). -/
inductive Verdict where
  | gp
  | ss
  | pf (code : BitVec 32)
  | device
  deriving DecidableEq, Repr

/-- The accesses a line of the environment's table is about, by address and size (R7; log 7). -/
inductive Extent where
  /-- Every access that touches a byte of `first` to `last`, both included: a page or a segment bound (R50, R146). -/
  | touching (first last : Word64)
  /-- Every access of exactly `size` bytes whose first byte is one of `first` to `last`, both included: with these lines
  MemFault is any function of address, size and kind. -/
  | starting (first last : Word64) (size : Nat)
  deriving DecidableEq, Repr

/-- One line of the environment's table for MemFault: an access of this kind in this extent gets this verdict (R7, R50,
R146; log 7). -/
structure FaultRule where
  kind : AccessKind
  extent : Extent
  verdict : Verdict
  deriving DecidableEq, Repr

/-- FREE VALUE: bits 79:64 of x87 register `i` after an MMX form (10_state.md R32, U5; log 14). -/
opaque freeX87High : Nat → Nat → BitVec 16

/-- FREE VALUE: the x87 tag word after an MMX form (R32, U5; log 14). -/
opaque freeX87Tag : Nat → BitVec 16

/-- FREE VALUE: the x87 status word, top-of-stack field included, after an MMX form (R32, U5; log 14). -/
opaque freeX87Status : Nat → BitVec 16

/-- FREE VALUE: whether an unaligned memory operand of a VEX or EVEX form raises #AC(0) when alignment checking is on
(60_exceptions.md R148, U4; log 15). -/
opaque freeAlignmentFault : Nat → Bool

/-- FREE VALUE: the pc after an instruction whose last byte is the last byte of the address space (10_state.md R27, N16;
log 16). -/
opaque freePc : Nat → Word64

end Sys2Proof.Config
end

