-- ==== Sys2Proof/Machine/State.lean ====
section
/-! DEFINITION. The machine's state as plain data (10_state.md), the state right after reset, and the reasons a step can
stop. -/

namespace Sys2Proof.Machine

open Sys2Proof.Config

/-- Memory: the listed bytes, by linear address (20_memory.md R40). An address that is not listed reads as
`Memory.unlisted` (Machine/Ops.lean). -/
abbrev Memory := List Host.Cell

/-- Everything the spec gives the machine (INVENTORY.md, State). -/
structure State where
  /-- MM[0..7] (R21). -/
  mm : Vector Word64 8
  /-- Bits 79:64 of the x87 data registers that MM[0..7] are the low 64 bits of (R32). -/
  x87High : Vector (BitVec 16) 8
  /-- The x87 tag word (R32). -/
  x87Tag : BitVec 16
  /-- The x87 status word, with the top-of-stack field (R32, U5). -/
  x87Status : BitVec 16
  /-- V[0..31], the low MAXVL bits of each (R22, D4; log 20). -/
  v : Vector VecWord 32
  /-- K[0..7] (R24). -/
  k : Vector Word64 8
  /-- GPR[0..15] (R25). -/
  gpr : Vector Word64 16
  /-- SegBase(FS) (R26). -/
  fsBase : Word64
  /-- SegBase(GS) (R26). -/
  gsBase : Word64
  /-- RIP (R27). -/
  pc : Word64
  /-- EFLAGS/RFLAGS (R28); bit 18 is AC (R30). -/
  rflags : Word64
  /-- MXCSR (R29). -/
  mxcsr : BitVec 32
  /-- CR2, written by #PF (60_exceptions.md R143, R152). -/
  cr2 : Word64
  /-- Memory (20_memory.md R40). -/
  mem : Memory
  /-- The operating mode (00_scope.md R6, R7). -/
  mode : Mode
  /-- CPUID feature flags (R31). -/
  features : Features
  /-- The enabling bits (R30). -/
  enabled : Enabled
  /-- CPL (00_scope.md R7, 60_exceptions.md R155). -/
  cpl : BitVec 2
  /-- Width of a canonical address (20_memory.md R51). -/
  vaWidth : VaWidth
  /-- MemFault (00_scope.md R7, 20_memory.md R50) as a table (log 7). -/
  faultRules : List FaultRule
  /-- The end-of-run address (D29). -/
  endAddr : Option Word64
  /-- The model's own: numbers the free values; every completed instruction advances it (log 17). -/
  freeCount : Nat
  deriving DecidableEq, Repr

/-- The exceptions a form in scope can raise (60_exceptions.md R143). All are precise faults (R152). -/
inductive Exception where
  /-- #UD, vector 6: R144. Raised by the decoder on an invalid encoding and by the gate of every form. Safe. -/
  | ud
  /-- #NM, vector 7: R145. Raised by the gate of every form when CR0.TS = 1. Safe. -/
  | nm
  /-- #SS(0), vector 12: R146. Raised by a memory operand through SS, or by the environment's verdict. Safe. -/
  | ss
  /-- #GP(0), vector 13: R46, R146, R86. Raised by a misaligned `m128` of a legacy form, a non-canonical operand or fetch, an
  instruction longer than 15 bytes, or the environment's verdict. Safe. -/
  | gp
  /-- #PF, vector 14, with its error code (32 bits, log 33) and the faulting linear address that CR2 receives: R143, R146. Raised by the
  environment's verdict on an access. Safe: EVEX forms fault where hardware suppresses (D30). -/
  | pf (code : BitVec 32) (addr : Word64)
  /-- #MF, vector 16: R147. Raised by the gate of the MMX forms when an x87 exception is pending. Safe. -/
  | mf
  /-- #AC(0), vector 17: R148. Raised by the MMX forms on an unaligned operand, and by VEX and EVEX forms as the free value
  `Config.freeAlignmentFault` says. Safe. -/
  | ac
  deriving DecidableEq, Repr

/-- Why the machine stops with a fault. -/
inductive Fault where
  /-- An exception was raised: terminal (60_exceptions.md R152, D15). `after` is the machine as the exception leaves it: the
  state of the faulting instruction, its pc included, with CR2 written by #PF. Raised by `Machine.raise` only. Safe: the run
  stops where hardware enters a handler. -/
  | raised (x : Exception) (after : State)
  deriving DecidableEq, Repr

/-- Why a step has no meaning. -/
inductive Refusal where
  /-- An instruction without a meaning yet: no arm of `exec` uses it. Safe. -/
  | notModelled (mnemonic : String)
  /-- Execution in a mode other than 64-bit mode (00_scope.md R6, U16). Raised by `step`. Safe. -/
  | otherMode (m : Mode)
  /-- Bytes the decoder gives no meaning (30_encoding.md R83). Raised by `step`. Safe. -/
  | bytes (why : Unadmitted)
  /-- An access in a device window, which is outside the model's memory (20_memory.md R49, U17). Raised by the environment's
  verdict on an operand or on a fetch. Safe. -/
  | deviceMemory
  deriving DecidableEq, Repr

/-- Why an access or a check stops an instruction: an exception, or a refusal. -/
inductive Stop where
  | exc (x : Exception)
  | refuse (r : Refusal)
  deriving DecidableEq, Repr

/-- The machine at the start. The spec gives no reset value and models a launch state that the environment supplies
(10_state.md R34, D19), so this is one launch state, DESIGN CHOICE in the main: the launch premises of
70_reset_and_hazards.md R171 hold with all six features (log 2), registers are zero (log 3) but for the family's values of
RFLAGS, MXCSR and x87 state (PRESUMED, log 4), pc is 1000H (log 5), memory lists nothing (log 6), canonical addresses have
48 bits (log 10), the table of MemFault is empty, so that no canonical access is ever refused (log 30), there is no end address
(log 29), the counter of free values is 0 (log 17). -/
def State.reset : State where
  mm := Vector.replicate 8 0#64
  x87High := Vector.replicate 8 0#16
  x87Tag := 0x5555#16
  x87Status := 0#16
  v := Vector.replicate 32 0#512
  k := Vector.replicate 8 0#64
  gpr := Vector.replicate 16 0#64
  fsBase := 0#64
  gsBase := 0#64
  pc := 0x1000#64
  rflags := 2#64
  mxcsr := 0x1F80#32
  cr2 := 0#64
  mem := []
  mode := .long64
  features := { mmx := true, sse2 := true, avx := true, avx2 := true, avx512bw := true, avx512vl := true }
  enabled :=
    { cr0Em := false, cr0Ts := false, cr0Am := false, cr4Osfxsr := true, cr4Osxsave := true, xcr0Sse := true,
      xcr0Avx := true, xcr0Opmask := true, xcr0ZmmHi256 := true, xcr0Hi16Zmm := true, x87ExceptionPending := false }
  cpl := 0#2
  vaWidth := .bits48
  faultRules := []
  endAddr := none
  freeCount := 0

end Sys2Proof.Machine
end

