-- ==== Sys2Proof/Machine/Ops.lean ====
section
/-! DEFINITION. The named operations over registers and memory, the environment's verdict on an access, fetching, taking an
exception, and the end of an instruction. -/

namespace Sys2Proof.Machine

open Sys2Proof.Config

/-! ### Registers -/

/-- MM[i] (10_state.md R21). -/
def State.getMm (s : State) (i : BitVec 3) : Word64 := s.mm[i.toNat]'i.isLt

/-- MM[i] <- x. -/
def State.setMm (s : State) (i : BitVec 3) (x : Word64) : State := { s with mm := s.mm.set i.toNat x i.isLt }

/-- V[i] (10_state.md R22). -/
def State.getV (s : State) (i : BitVec 5) : VecWord := s.v[i.toNat]'i.isLt

/-- V[i] <- x. -/
def State.setV (s : State) (i : BitVec 5) (x : VecWord) : State := { s with v := s.v.set i.toNat x i.isLt }

/-- K[i] (10_state.md R24). -/
def State.getK (s : State) (i : BitVec 3) : Word64 := s.k[i.toNat]'i.isLt

/-- GPR[i] (10_state.md R25). -/
def State.getGpr (s : State) (i : BitVec 4) : Word64 := s.gpr[i.toNat]'i.isLt

/-- V[i][w-1:0] (10_state.md R23): a source is read in its low bits only. -/
def State.readVec (s : State) (w : Nat) (i : BitVec 5) : BitVec w := (s.getV i).setWidth w

/-- V[i][127:0] <- r, the bits above unmodified (R23, legacy forms). -/
def State.writeXmmKeep (s : State) (i : BitVec 5) (r : BitVec 128) : State :=
  s.setV i ((s.getV i).extractLsb' 128 384 ++ r)

/-- V[i][w-1:0] <- r and V[i][MAXVL-1:w] <- 0 (R23, VEX and EVEX forms). -/
def State.writeVecZero (s : State) (w : Nat) (i : BitVec 5) (r : BitVec w) : State := s.setV i (r.setWidth 512)

/-- MAXVL (00_scope.md R7, D3): 512 when AVX512BW is present, else 256 when AVX is, else 128. -/
def maxvl (f : Features) : Nat := if f.avx512bw then 512 else if f.avx then 256 else 128

/-- The 80-bit x87 data register that MM[i] is the low 64 bits of (10_state.md R32). -/
def State.x87Reg (s : State) (i : BitVec 3) : BitVec 80 := s.x87High[i.toNat]'i.isLt ++ s.getMm i

/-- The x87 top-of-stack field: bits 13:11 of the status word (PRESUMED, log 28). -/
def State.x87Top (s : State) : BitVec 3 := s.x87Status.extractLsb' 11 3

/-- After an MMX form every piece of x87 state but MM[0..7] is unknown (10_state.md R32, D5): free values (log 14). -/
def State.havocX87 (s : State) : State :=
  let n := s.freeCount
  { s with
    x87High := #v[freeX87High n 0, freeX87High n 1, freeX87High n 2, freeX87High n 3,
      freeX87High n 4, freeX87High n 5, freeX87High n 6, freeX87High n 7]
    x87Tag := freeX87Tag n
    x87Status := freeX87Status n }

/-- SegBase (10_state.md R26): FS and GS by an override, else a base of zero. -/
def State.segBase (s : State) : Option Seg → Word64
  | none => 0#64
  | some .fs => s.fsBase
  | some .gs => s.gsBase

/-! ### Memory -/

/-- What a byte that is not listed reads as: 00H (DESIGN CHOICE, log 6). -/
def Memory.unlisted : Byte := 0#8

/-- The byte at address `a`. -/
def Memory.read : Memory → Nat → Byte
  | [], _ => Memory.unlisted
  | (k, b) :: m, a => if k = a then b else Memory.read m a

/-- Remove address `a` from a list of rising addresses. -/
def Memory.erase : Memory → Nat → Memory
  | [], _ => []
  | (k, b) :: m, a => if k = a then m else (k, b) :: Memory.erase m a

/-- Put a byte at address `a` into a list of rising addresses. -/
def Memory.insert : Memory → Nat → Byte → Memory
  | [], a, x => [(a, x)]
  | (k, b) :: m, a, x =>
    if a < k then (a, x) :: (k, b) :: m
    else if a = k then (a, x) :: m
    else (k, b) :: Memory.insert m a x

/-- Store one byte, keeping the canonical form. No form in scope stores (20_memory.md R45): this is how a launch state or a
program is put together. -/
def Memory.write (m : Memory) (a : Nat) (x : Byte) : Memory :=
  if x = Memory.unlisted then Memory.erase m a else Memory.insert m a x

/-- Store bytes from address `a` up; addresses are taken modulo 2^64. -/
def Memory.writeBytes : Memory → Word64 → List Byte → Memory
  | m, _, [] => m
  | m, a, x :: xs => Memory.writeBytes (Memory.write m a.toNat x) (a + 1#64) xs

/-- Addresses rise strictly from `lo` on, lie below 2^64, and no listed byte is what an unlisted one reads as. -/
def Memory.wfFrom : Nat → Memory → Bool
  | _, [] => true
  | lo, (k, b) :: m => decide (lo ≤ k) && decide (k < 2 ^ 64) && b != Memory.unlisted && Memory.wfFrom (k + 1) m

/-- The canonical form of memory. -/
def Memory.wf (m : Memory) : Bool := Memory.wfFrom 0 m

/-- The little-endian value of the bytes from address `a` up: the byte at `a + j` is bits `8j+7:8j` (20_memory.md R41, R42). -/
def Memory.readLe (w : Nat) (m : Memory) (a : Nat) : BitVec w := pack w (fun j => m.read (a + j))

/-! ### The verdict on an access -/

/-- The number of bits below which a canonical address of the lower half stays. -/
def halfBits : VaWidth → Nat
  | .bits48 => 47
  | .bits57 => 56

/-- Every byte of `a .. a+n-1` is at a canonical address and the range does not wrap (20_memory.md R41, R51). -/
def State.canonicalRange (s : State) (a n : Nat) : Bool :=
  decide (a + n ≤ 2 ^ halfBits s.vaWidth) || (decide (2 ^ 64 - 2 ^ halfBits s.vaWidth ≤ a) && decide (a + n ≤ 2 ^ 64))

/-- The access `a .. a+n-1` is in the extent of a rule. -/
def inExtent (a n : Nat) : Extent → Bool
  | .touching first last => decide (first.toNat < a + n) && decide (a ≤ last.toNat)
  | .starting first last size => decide (first.toNat ≤ a) && decide (a ≤ last.toNat) && n == size

/-- The lowest byte of an access at `a` that the extent is about. -/
def extentStart (a : Nat) : Extent → Nat
  | .touching first _ => max a first.toNat
  | .starting _ _ _ => a

/-- The rule is about this kind of access and the access `a .. a+n-1` is in its extent. -/
def ruleApplies (kind : AccessKind) (a n : Nat) (r : FaultRule) : Bool := r.kind == kind && inExtent a n r.extent

def isSegmentVerdict : Verdict → Bool
  | .gp => true
  | .ss => true
  | .pf _ => false
  | .device => false

def isPageVerdict : Verdict → Bool
  | .gp => false
  | .ss => false
  | .pf _ => true
  | .device => false

/-- The #PF error code (60_exceptions.md R143). For a read: bit 1 = 0, bit 2 = (CPL = 3), bit 4 = 0, the other bits as the
environment has them, bit 0 (page present) among them; for a fetch all as the environment has them (log 9). -/
def pfCode (kind : AccessKind) (cpl : BitVec 2) (code : BitVec 32) : BitVec 32 :=
  match kind with
  | .read => (code &&& ~~~0x16#32) ||| (if cpl = 3#2 then 4#32 else 0#32)
  | .fetch => code

/-- What the rule that decides an access at `a` makes of it. The verdict is raised as it stands (20_memory.md R41), `ss` also
where the access is not SS-relative and `gp` also where it is (DEDUCED, log 32). #PF records the lowest byte of the access that
the rule is about (log 8). -/
def verdictStop (kind : AccessKind) (cpl : BitVec 2) (a : Nat) (r : FaultRule) : Stop :=
  match r.verdict with
  | .gp => .exc .gp
  | .ss => .exc .ss
  | .pf code => .exc (.pf (pfCode kind cpl code) (BitVec.ofNat 64 (extentStart a r.extent)))
  | .device => .refuse .deviceMemory

/-- MemFault (00_scope.md R7): the environment's verdict on the access, `#GP`/`#SS` before `#PF` (D16) before a device window;
within these the first rule that applies to the access. -/
def State.memFault (s : State) (a n : Nat) (kind : AccessKind) : Option Stop :=
  let hits := s.faultRules.filter (ruleApplies kind a n)
  match hits.find? (fun r => isSegmentVerdict r.verdict) with
  | some r => some (verdictStop kind s.cpl a r)
  | none =>
    match hits.find? (fun r => isPageVerdict r.verdict) with
    | some r => some (verdictStop kind s.cpl a r)
    | none => hits.head?.map (verdictStop kind s.cpl a)

/-- A memory operand: its linear address, and whether it is relative to SS (30_encoding.md R67). -/
structure MemRef where
  la : Word64
  ssRel : Bool
  deriving DecidableEq, Repr

/-- MemRead(LA, w/8) (20_memory.md R41, R51): canonical, then the environment's verdict, then the bytes. -/
def memRead (w : Nat) (r : MemRef) (s : State) : Except Stop (BitVec w) :=
  if !s.canonicalRange r.la.toNat (w / 8) then .error (.exc (if r.ssRel then .ss else .gp))
  else match s.memFault r.la.toNat (w / 8) .read with
    | some st => .error st
    | none => .ok (s.mem.readLe w r.la.toNat)

/-! ### Fetch -/

/-- Why the byte at `a` cannot be fetched: it is past the canonical range (10_state.md R27: a fault, no wrap-around), or the
environment's verdict (60_exceptions.md R150). -/
def State.fetchStop (s : State) (a : Nat) : Option Stop :=
  if !s.canonicalRange a 1 then some (.exc .gp) else s.memFault a 1 .fetch

/-- Up to `n` instruction bytes from `a` up, and what stopped the fetch, if anything did (20_memory.md R42, R47). -/
def State.fetchFrom (s : State) : Nat → Nat → List Byte × Option Stop
  | _, 0 => ([], none)
  | a, n + 1 =>
    match s.fetchStop a with
    | some st => ([], some st)
    | none =>
      let rest := s.fetchFrom (a + 1) n
      (s.mem.read a :: rest.1, rest.2)

/-- The bytes at pc, as many as an instruction can have (30_encoding.md R86). -/
def State.fetch (s : State) : List Byte × Option Stop := s.fetchFrom s.pc.toNat maxInstrBytes

/-! ### Exceptions -/

/-- The vector number of an exception (60_exceptions.md R143). -/
def Exception.vector : Exception → Nat
  | .ud => 6
  | .nm => 7
  | .ss => 12
  | .gp => 13
  | .pf _ _ => 14
  | .mf => 16
  | .ac => 17

/-- The error code of an exception, if it has one (60_exceptions.md R143), as 32 bits: the spec gives no width (PRESUMED,
log 33). -/
def Exception.errorCode : Exception → Option (BitVec 32)
  | .ud => none
  | .nm => none
  | .ss => some 0#32
  | .gp => some 0#32
  | .pf code _ => some code
  | .mf => none
  | .ac => some 0#32

/-- The state an exception leaves (60_exceptions.md R143, R152): CR2 receives the faulting address of a #PF, and nothing else
changes, pc included. -/
def State.afterException (s : State) : Exception → State
  | .ud => s
  | .nm => s
  | .ss => s
  | .gp => s
  | .pf _ addr => { s with cr2 := addr }
  | .mf => s
  | .ac => s

/-- Taking an exception: the one operation that does it. The spec gives no entry to a handler and no return (R152, R153, D15):
the run ends in a fault outcome that records the exception, its error code and the state, with the faulting pc. -/
def raise (x : Exception) (s : State) : Host.Outcome State Fault Refusal := .fault (.raised x (s.afterException x))

/-- End an instruction that a check or an access stopped. -/
def stop (st : Stop) (s : State) : Host.Outcome State Fault Refusal :=
  match st with
  | .exc x => raise x s
  | .refuse r => .refused r

/-! ### The end of an instruction -/

/-- pc + len (10_state.md R27). Where the instruction's last byte is the last of the address space there is no such address and
the spec gives none: a free value (log 16). -/
def State.nextPc (s : State) (len : Nat) : Word64 :=
  if s.pc.toNat + len < 2 ^ 64 then s.pc + BitVec.ofNat 64 len else freePc s.freeCount

/-- pc <- pc + len; the free values used are used up (log 17). -/
def State.retire (s : State) (len : Nat) : State := { s with pc := s.nextPc len, freeCount := s.freeCount + 1 }

end Sys2Proof.Machine
end

