-- ==== Sys2Proof/Machine/Flags.lean ====
section
/-! DEFINITION. The status and enabling bits the forms read. No form writes a flag or a status bit (10_state.md R28, R29), so
there is no flag to compute: what stands here is the alignment-check condition and the gate of each encoding family, the
checks an instruction makes before it reads an operand (60_exceptions.md R144, R145, R147; order D16, R150). -/

namespace Sys2Proof.Machine

/-- EFLAGS.AC: bit 18 (10_state.md R30). -/
def State.rflagsAc (s : State) : Bool := s.rflags.getLsbD 18

/-- `AlignmentCheck` (00_scope.md R7): CR0.AM and EFLAGS.AC and CPL = 3. -/
def State.alignmentCheck (s : State) : Bool := s.enabled.cr0Am && s.rflagsAc && s.cpl == 3#2

/-- The vector lengths of the EVEX forms (30_encoding.md R77). -/
inductive VecLen where
  | vl128
  | vl256
  | vl512
  deriving DecidableEq, Repr

/-- XCR0[2:1] = 11b and CR4.OSXSAVE = 1 (R144, rows 5 to 14). -/
def State.avxEnabled (s : State) : Bool := s.enabled.cr4Osxsave && s.enabled.xcr0Sse && s.enabled.xcr0Avx

/-- XCR0[7:5] = 111b besides (R144, rows 9 to 14). -/
def State.avx512Enabled (s : State) : Bool :=
  s.avxEnabled && s.enabled.xcr0Opmask && s.enabled.xcr0ZmmHi256 && s.enabled.xcr0Hi16Zmm

/-- The feature and enable conditions of rows 1 and 3 hold: no #UD (R144). -/
def State.mmxUsable (s : State) : Bool := s.features.mmx && !s.enabled.cr0Em

/-- Rows 2 and 4 (R144). -/
def State.sseUsable (s : State) : Bool := s.features.sse2 && !s.enabled.cr0Em && s.enabled.cr4Osfxsr

/-- Rows 5 and 6, and 7 and 8, which need AVX2 (R4, R144). -/
def State.vexUsable (s : State) (l : Bool) : Bool := (if l then s.features.avx2 else s.features.avx) && s.avxEnabled

/-- The features of rows 9 to 14: AVX512BW, and AVX512VL below 512 bits (R4, D21). -/
def State.evexFeature (s : State) : VecLen → Bool
  | .vl128 => s.features.avx512bw && s.features.avx512vl
  | .vl256 => s.features.avx512bw && s.features.avx512vl
  | .vl512 => s.features.avx512bw

/-- Rows 9 to 14 (R144). -/
def State.evexUsable (s : State) (vl : VecLen) : Bool := s.evexFeature vl && s.avx512Enabled

/-- The exception the checks of an MMX form raise, if any: #UD, then #NM, then #MF (R100 steps 2 to 4). -/
def mmxGate (s : State) : Option Exception :=
  if !s.mmxUsable then some .ud
  else if s.enabled.cr0Ts then some .nm
  else if s.enabled.x87ExceptionPending then some .mf
  else none

/-- #UD, then #NM: the checks of the other families (R100, R110, R120 steps 2 and 3). -/
def vectorGate (usable : Bool) (s : State) : Option Exception :=
  if !usable then some .ud
  else if s.enabled.cr0Ts then some .nm
  else none

end Sys2Proof.Machine
end

