-- ==== Sys2Proof/Machine/Operands.lean ====
section
/-! DEFINITION. Operand forms: register numbers, the effective and the linear address of a memory operand, and the fetch of
the subtrahend in each family (30_encoding.md R66 to R69, R74, R78, R79; 20_memory.md R46). -/

namespace Sys2Proof.Machine

open Sys2Proof.Config

/-! ### Register numbers -/

/-- `B:rrr`, a general register number (R67). -/
def gprNum (hi : Bool) (r : BitVec 3) : BitVec 4 := BitVec.ofBool hi ++ r

/-- `R:reg` or `B:rm`, a vector register number below 16 (R69, R74). -/
def xmmNum (hi : Bool) (r : BitVec 3) : BitVec 5 := 0#1 ++ BitVec.ofBool hi ++ r

/-- `R':R:reg` or `X:B:rm`, a vector register number below 32 (R78). -/
def zmmNum (hi4 hi3 : Bool) (r : BitVec 3) : BitVec 5 := BitVec.ofBool hi4 ++ BitVec.ofBool hi3 ++ r

/-- `vvvv` of a VEX prefix (R74). -/
def vvvvNum (vvvv : BitVec 4) : BitVec 5 := 0#1 ++ vvvv

/-- `V':vvvv` of an EVEX prefix (R78). -/
def vvvvHiNum (hi : Bool) (vvvv : BitVec 4) : BitVec 5 := BitVec.ofBool hi ++ vvvv

/-! ### Addresses (R67) -/

/-- The segment an override selects (R65). -/
def segOverride (pfx : List Pfx) : Option Seg :=
  if pfx.contains .segFs then some .fs else if pfx.contains .segGs then some .gs else none

/-- A displacement, sign-extended; an 8-bit one times `n` (R67, R79). -/
def dispTerm (n : Nat) : Disp → Word64
  | .absent => 0#64
  | .d8 d => d.signExtend 64 * BitVec.ofNat 64 n
  | .d32 d => d.signExtend 64

/-- The index term of a SIB byte: none for `X:iii` = 0100b (R67). -/
def indexTerm (s : State) (x : Bool) (ss : BitVec 2) (iii : BitVec 3) : Word64 :=
  if gprNum x iii = 4#4 then 0#64 else s.getGpr (gprNum x iii) * BitVec.ofNat 64 (2 ^ ss.toNat)

/-- EA with 64-bit addresses (R67); `next` is the address after the instruction, `n` the scale of an 8-bit displacement. -/
def ea64 (s : State) (x b : Bool) (n : Nat) (next : Word64) : MemForm → Word64
  | .indirect rm d => s.getGpr (gprNum b rm) + dispTerm n d
  | .ripRel d => next + d.signExtend 64
  | .sib ss iii bbb d => s.getGpr (gprNum b bbb) + indexTerm s x ss iii + dispTerm n d
  | .sibNoBase ss iii d => indexTerm s x ss iii + d.signExtend 64

/-- EA (R67). With a `67` prefix the formula is taken modulo 2^32 and zero-extended; as all its operations are ring operations
this is the low half of the 64-bit result (DEDUCED, log 27). -/
def effAddr (s : State) (pfx : List Pfx) (x b : Bool) (n : Nat) (next : Word64) (m : MemForm) : Word64 :=
  if pfx.contains .addrSize then ((ea64 s x b n next m).setWidth 32).setWidth 64 else ea64 s x b n next m

/-- The form's base register is RSP or RBP (R67). -/
def stackBase (b : Bool) : MemForm → Bool
  | .indirect rm _ => !b && rm == 5#3
  | .ripRel _ => false
  | .sib _ _ bbb _ => !b && (bbb == 4#3 || bbb == 5#3)
  | .sibNoBase _ _ _ => false

/-- The linear address of a memory operand, and whether it is SS-relative (R67, 10_state.md R26). `len` is the length of the
instruction; RIP-relative addresses are modulo 2^64. -/
def memRef (s : State) (pfx : List Pfx) (x b : Bool) (n len : Nat) (m : MemForm) : MemRef where
  la := s.segBase (segOverride pfx) + effAddr s pfx x b n (s.pc + BitVec.ofNat 64 len) m
  ssRel := (segOverride pfx).isNone && stackBase b m

/-! ### REX bits of the legacy forms (R68) -/

def rexR (rex : Option Rex) : Bool := rex.any (·.r)
def rexX (rex : Option Rex) : Bool := rex.any (·.x)
def rexB (rex : Option Rex) : Bool := rex.any (·.b)

/-- The memory operand of a legacy form. -/
def legacyRef (e : LegacyEnc) (s : State) (m : MemForm) : MemRef :=
  memRef s e.pfx (rexX e.rex) (rexB e.rex) 1 e.len m

/-- The memory operand of a VEX form; `len` is passed as the two-byte spelling is shorter (R73). -/
def vexRef (e : Vex3Enc) (len : Nat) (s : State) (m : MemForm) : MemRef := memRef s e.pfx e.x e.b 1 len m

/-- The memory operand of an EVEX form of `n` bytes: an 8-bit displacement counts in units of `n` (R79). -/
def evexRef (e : EvexEnc) (n : Nat) (s : State) (m : MemForm) : MemRef := memRef s e.pfx e.x e.b n e.len m

/-! ### The subtrahend -/

/-- Operand 2 of rows 1 and 3 (R100 step 5): #AC(0) has the lowest priority (R148). -/
def mmxSource (e : LegacyEnc) (s : State) : Except Stop (BitVec 64) :=
  match e.rm with
  | .reg rm => .ok (s.getMm rm)
  | .mem m =>
    match memRead 64 (legacyRef e s m) s with
    | .error st => .error st
    | .ok b =>
      if s.alignmentCheck && (legacyRef e s m).la.toNat % 8 != 0 then .error (.exc .ac) else .ok b

/-- Operand 2 of rows 2 and 4 (R100 step 5): a memory operand must be 16-byte aligned (20_memory.md R46). -/
def xmmSource (e : LegacyEnc) (s : State) : Except Stop (BitVec 128) :=
  match e.rm with
  | .reg rm => .ok (s.readVec 128 (xmmNum (rexB e.rex) rm))
  | .mem m =>
    if (legacyRef e s m).la.toNat % 16 != 0 then .error (.exc .gp) else memRead 128 (legacyRef e s m) s

/-- A memory operand of a VEX or EVEX form (R110, R120 step 4): no alignment is required; with alignment checking on, an
unaligned operand may raise #AC(0) or not, as a free value says (R148, U4). -/
def unalignedRead (w : Nat) (r : MemRef) (s : State) : Except Stop (BitVec w) :=
  match memRead w r s with
  | .error st => .error st
  | .ok b =>
    if s.alignmentCheck && r.la.toNat % (w / 8) != 0 && freeAlignmentFault s.freeCount then .error (.exc .ac) else .ok b

/-- Operand 3 of rows 5 to 8 (R74). -/
def vexSource (w : Nat) (e : Vex3Enc) (len : Nat) (s : State) : Except Stop (BitVec w) :=
  match e.rm with
  | .reg rm => .ok (s.readVec w (xmmNum e.b rm))
  | .mem m => unalignedRead w (vexRef e len s m) s

/-- Operand 3 of rows 9 to 14 (R78): the whole operand is read, whatever the mask (R44, D30). -/
def evexSource (w : Nat) (e : EvexEnc) (s : State) : Except Stop (BitVec w) :=
  match e.rm with
  | .reg rm => .ok (s.readVec w (zmmNum e.x e.b rm))
  | .mem m => unalignedRead w (evexRef e (w / 8) s m) s

/-- The writemask of an EVEX form: `aaa` = 000b is none, K[0] is never one (R80). -/
def evexMask (e : EvexEnc) (s : State) : WriteMask := if e.aaa = 0#3 then none else some (s.getK e.aaa)

end Sys2Proof.Machine
end

