-- ==== Sys2Proof/Machine/Evex.lean ====
section
/-! DEFINITION. The EVEX-encoded forms with writemask, rows 9 to 14 (42_evex.md). -/

namespace Sys2Proof.Machine

/-- VL in bits (00_scope.md R10). -/
def VecLen.bits : VecLen → Nat
  | .vl128 => 128
  | .vl256 => 256
  | .vl512 => 512

/-- ExecEvex (R120): V[d][VL-1:0] <- PSubSMask(e, VL, V[d], V[s1], bv, masked, K[aaa], z), V[d][MAXVL-1:VL] <- 0, with
d = R':R:reg and s1 = V':vvvv. -/
def execEvex {n : Nat} (sub : BitVec n → BitVec n → BitVec n) (vl : VecLen) (e : EvexEnc) (s : State) :
    Host.Outcome State Fault Refusal :=
  match vectorGate (s.evexUsable vl) s with
  | some x => raise x s
  | none =>
    match evexSource vl.bits e s with
    | .error st => stop st s
    | .ok b =>
      let d := zmmNum e.rHi e.r e.reg
      .next ((s.writeVecZero vl.bits d
        (psubsMask sub (s.readVec vl.bits d) (s.readVec vl.bits (vvvvHiNum e.vHi e.vvvv)) b (evexMask e s) e.z)).retire e.len)

/-- VPSUBSB xmm1 {k1}{z}, xmm2, xmm3/m128 (R124). -/
def execVpsubsbXmmEvex (e : EvexEnc) (s : State) : Host.Outcome State Fault Refusal := execEvex subSB .vl128 e s

/-- VPSUBSB ymm1 {k1}{z}, ymm2, ymm3/m256 (R125). -/
def execVpsubsbYmmEvex (e : EvexEnc) (s : State) : Host.Outcome State Fault Refusal := execEvex subSB .vl256 e s

/-- VPSUBSB zmm1 {k1}{z}, zmm2, zmm3/m512 (R126). -/
def execVpsubsbZmmEvex (e : EvexEnc) (s : State) : Host.Outcome State Fault Refusal := execEvex subSB .vl512 e s

/-- VPSUBSW xmm1 {k1}{z}, xmm2, xmm3/m128 (R127). -/
def execVpsubswXmmEvex (e : EvexEnc) (s : State) : Host.Outcome State Fault Refusal := execEvex subSW .vl128 e s

/-- VPSUBSW ymm1 {k1}{z}, ymm2, ymm3/m256 (R128). -/
def execVpsubswYmmEvex (e : EvexEnc) (s : State) : Host.Outcome State Fault Refusal := execEvex subSW .vl256 e s

/-- VPSUBSW zmm1 {k1}{z}, zmm2, zmm3/m512 (R129). -/
def execVpsubswZmmEvex (e : EvexEnc) (s : State) : Host.Outcome State Fault Refusal := execEvex subSW .vl512 e s

end Sys2Proof.Machine
end

