-- ==== Sys2Proof/Machine/Legacy.lean ====
section
/-! DEFINITION. The legacy-encoded forms, rows 1 to 4 (40_legacy_mmx_sse.md). -/

namespace Sys2Proof.Machine

/-- ExecLegacy for rows 1 and 3 (R100): MM[reg] <- PSubS(e, 64, MM[reg], b). -/
def execMmx {n : Nat} (sub : BitVec n → BitVec n → BitVec n) (e : LegacyEnc) (s : State) :
    Host.Outcome State Fault Refusal :=
  match mmxGate s with
  | some x => raise x s
  | none =>
    match mmxSource e s with
    | .error st => stop st s
    | .ok b => .next (((s.setMm e.reg (psubs sub (s.getMm e.reg) b)).havocX87).retire e.len)

/-- ExecLegacy for rows 2 and 4 (R100): V[R:reg][127:0] <- PSubS(e, 128, V[R:reg][127:0], b), the rest unmodified. -/
def execXmm {n : Nat} (sub : BitVec n → BitVec n → BitVec n) (e : LegacyEnc) (s : State) :
    Host.Outcome State Fault Refusal :=
  match vectorGate s.sseUsable s with
  | some x => raise x s
  | none =>
    match xmmSource e s with
    | .error st => stop st s
    | .ok b =>
      let d := xmmNum (rexR e.rex) e.reg
      .next ((s.writeXmmKeep d (psubs sub (s.readVec 128 d) b)).retire e.len)

/-- PSUBSB mm, mm/m64 (R102). -/
def execPsubsbMm (e : LegacyEnc) (s : State) : Host.Outcome State Fault Refusal := execMmx subSB e s

/-- PSUBSB xmm1, xmm2/m128 (R103). -/
def execPsubsbXmm (e : LegacyEnc) (s : State) : Host.Outcome State Fault Refusal := execXmm subSB e s

/-- PSUBSW mm, mm/m64 (R104). -/
def execPsubswMm (e : LegacyEnc) (s : State) : Host.Outcome State Fault Refusal := execMmx subSW e s

/-- PSUBSW xmm1, xmm2/m128 (R105). -/
def execPsubswXmm (e : LegacyEnc) (s : State) : Host.Outcome State Fault Refusal := execXmm subSW e s

end Sys2Proof.Machine
end

