-- ==== Sys2Proof/Machine/Vex.lean ====
section
/-! DEFINITION. The VEX-encoded forms, rows 5 to 8, in their three-byte and two-byte spelling (41_vex.md). -/

namespace Sys2Proof.Machine

/-- The operand width `L` selects (30_encoding.md R74). -/
def vexWidth (l : Bool) : Nat := if l then 256 else 128

/-- The two-byte prefix implies X = 0, B = 0, W = 0 (30_encoding.md R73). -/
def vex2Fields (e : Vex2Enc) : Vex3Enc :=
  { pfx := e.pfx, r := e.r, x := false, b := false, w := false, vvvv := e.vvvv, reg := e.reg, rm := e.rm }

/-- ExecVex (R110): V[R:reg][w-1:0] <- PSubS(e, w, V[vvvv][w-1:0], b), V[R:reg][MAXVL-1:w] <- 0. -/
def execVex {n : Nat} (sub : BitVec n → BitVec n → BitVec n) (l : Bool) (e : Vex3Enc) (len : Nat) (s : State) :
    Host.Outcome State Fault Refusal :=
  match vectorGate (s.vexUsable l) s with
  | some x => raise x s
  | none =>
    match vexSource (vexWidth l) e len s with
    | .error st => stop st s
    | .ok b =>
      .next ((s.writeVecZero (vexWidth l) (xmmNum e.r e.reg)
        (psubs sub (s.readVec (vexWidth l) (vvvvNum e.vvvv)) b)).retire len)

/-- VPSUBSB xmm1, xmm2, xmm3/m128, three-byte VEX (R112). -/
def execVpsubsbXmmVex3 (e : Vex3Enc) (s : State) : Host.Outcome State Fault Refusal := execVex subSB false e e.len s

/-- VPSUBSB xmm1, xmm2, xmm3/m128, two-byte VEX (R112). -/
def execVpsubsbXmmVex2 (e : Vex2Enc) (s : State) : Host.Outcome State Fault Refusal :=
  execVex subSB false (vex2Fields e) e.len s

/-- VPSUBSW xmm1, xmm2, xmm3/m128, three-byte VEX (R113). -/
def execVpsubswXmmVex3 (e : Vex3Enc) (s : State) : Host.Outcome State Fault Refusal := execVex subSW false e e.len s

/-- VPSUBSW xmm1, xmm2, xmm3/m128, two-byte VEX (R113). -/
def execVpsubswXmmVex2 (e : Vex2Enc) (s : State) : Host.Outcome State Fault Refusal :=
  execVex subSW false (vex2Fields e) e.len s

/-- VPSUBSB ymm1, ymm2, ymm3/m256, three-byte VEX (R114). -/
def execVpsubsbYmmVex3 (e : Vex3Enc) (s : State) : Host.Outcome State Fault Refusal := execVex subSB true e e.len s

/-- VPSUBSB ymm1, ymm2, ymm3/m256, two-byte VEX (R114). -/
def execVpsubsbYmmVex2 (e : Vex2Enc) (s : State) : Host.Outcome State Fault Refusal :=
  execVex subSB true (vex2Fields e) e.len s

/-- VPSUBSW ymm1, ymm2, ymm3/m256, three-byte VEX (R115). -/
def execVpsubswYmmVex3 (e : Vex3Enc) (s : State) : Host.Outcome State Fault Refusal := execVex subSW true e e.len s

/-- VPSUBSW ymm1, ymm2, ymm3/m256, two-byte VEX (R115). -/
def execVpsubswYmmVex2 (e : Vex2Enc) (s : State) : Host.Outcome State Fault Refusal :=
  execVex subSW true (vex2Fields e) e.len s

end Sys2Proof.Machine
end

