-- ==== Sys2Proof/Machine/Dispatch.lean ====
section
/-! DEFINITION. The dispatch: one arm per instruction, one direct call of its meaning. -/

namespace Sys2Proof.Machine

def exec (i : Instr) (s : State) : Host.Outcome State Fault Refusal :=
  match i with
  | .psubsbMm e => Sys2Proof.Machine.execPsubsbMm e s
  | .psubsbXmm e => Sys2Proof.Machine.execPsubsbXmm e s
  | .psubswMm e => Sys2Proof.Machine.execPsubswMm e s
  | .psubswXmm e => Sys2Proof.Machine.execPsubswXmm e s
  | .vpsubsbXmmVex3 e => Sys2Proof.Machine.execVpsubsbXmmVex3 e s
  | .vpsubsbXmmVex2 e => Sys2Proof.Machine.execVpsubsbXmmVex2 e s
  | .vpsubswXmmVex3 e => Sys2Proof.Machine.execVpsubswXmmVex3 e s
  | .vpsubswXmmVex2 e => Sys2Proof.Machine.execVpsubswXmmVex2 e s
  | .vpsubsbYmmVex3 e => Sys2Proof.Machine.execVpsubsbYmmVex3 e s
  | .vpsubsbYmmVex2 e => Sys2Proof.Machine.execVpsubsbYmmVex2 e s
  | .vpsubswYmmVex3 e => Sys2Proof.Machine.execVpsubswYmmVex3 e s
  | .vpsubswYmmVex2 e => Sys2Proof.Machine.execVpsubswYmmVex2 e s
  | .vpsubsbXmmEvex e => Sys2Proof.Machine.execVpsubsbXmmEvex e s
  | .vpsubsbYmmEvex e => Sys2Proof.Machine.execVpsubsbYmmEvex e s
  | .vpsubsbZmmEvex e => Sys2Proof.Machine.execVpsubsbZmmEvex e s
  | .vpsubswXmmEvex e => Sys2Proof.Machine.execVpsubswXmmEvex e s
  | .vpsubswYmmEvex e => Sys2Proof.Machine.execVpsubswYmmEvex e s
  | .vpsubswZmmEvex e => Sys2Proof.Machine.execVpsubswZmmEvex e s

end Sys2Proof.Machine
end

