-- ==== Sys2Proof/Machine/Step.lean ====
section
/-! DEFINITION. One step: fetch at pc, decode, execute (00_scope.md R19, 60_exceptions.md R150). -/

namespace Sys2Proof.Machine

open Sys2Proof.Config

/-- The bytes at pc end before an instruction does: the fetch was stopped, or there is no instruction within 15 bytes, which is
#GP(0) (30_encoding.md R86). -/
def stepTruncated (s : State) : Host.Outcome State Fault Refusal :=
  match s.fetch.2 with
  | some st => stop st s
  | none => raise .gp s

/-- What follows from what the bytes at pc decode to. -/
def stepDecoded (s : State) : Decoded → Host.Outcome State Fault Refusal
  | .instr i => exec i s
  | .invalid => raise .ud s
  | .refused why => .refused (.bytes why)
  | .truncated => stepTruncated s

/-- One step in 64-bit mode; any other mode is refused by name (00_scope.md R6). -/
def step (s : State) : Host.Outcome State Fault Refusal :=
  if s.mode = .long64 then stepDecoded s (decode s.fetch.1) else .refused (.otherMode s.mode)

/-- The state with an instruction of the opcode table in memory at pc, and zero bytes after it as far as an instruction can
reach: the load of a program from outside (log 5). -/
def State.withFetchWord (s : State) (nbits w : Nat) : State :=
  { s with mem := s.mem.writeBytes s.pc (tableBytes nbits w) }

end Sys2Proof.Machine
end

