-- ==== Sys2Proof/Safety.lean ====
section
/-! DEFINITION. The terms claims are stated in: when a form is ready to run, what a readable operand is, what a form leaves
unchanged, the invariant, and how a run ends. -/

namespace Sys2Proof.Machine

/-! ### Parts and families of an instruction -/

/-- The legacy prefixes of an instruction, in byte order. -/
def instrPfx : Instr → List Pfx
  | .psubsbMm e => e.pfx
  | .psubsbXmm e => e.pfx
  | .psubswMm e => e.pfx
  | .psubswXmm e => e.pfx
  | .vpsubsbXmmVex3 e => e.pfx
  | .vpsubsbXmmVex2 e => e.pfx
  | .vpsubswXmmVex3 e => e.pfx
  | .vpsubswXmmVex2 e => e.pfx
  | .vpsubsbYmmVex3 e => e.pfx
  | .vpsubsbYmmVex2 e => e.pfx
  | .vpsubswYmmVex3 e => e.pfx
  | .vpsubswYmmVex2 e => e.pfx
  | .vpsubsbXmmEvex e => e.pfx
  | .vpsubsbYmmEvex e => e.pfx
  | .vpsubsbZmmEvex e => e.pfx
  | .vpsubswXmmEvex e => e.pfx
  | .vpsubswYmmEvex e => e.pfx
  | .vpsubswZmmEvex e => e.pfx

/-- The ModRM:r/m operand of an instruction. -/
def instrRegMem : Instr → RegMem
  | .psubsbMm e => e.rm
  | .psubsbXmm e => e.rm
  | .psubswMm e => e.rm
  | .psubswXmm e => e.rm
  | .vpsubsbXmmVex3 e => e.rm
  | .vpsubsbXmmVex2 e => e.rm
  | .vpsubswXmmVex3 e => e.rm
  | .vpsubswXmmVex2 e => e.rm
  | .vpsubsbYmmVex3 e => e.rm
  | .vpsubsbYmmVex2 e => e.rm
  | .vpsubswYmmVex3 e => e.rm
  | .vpsubswYmmVex2 e => e.rm
  | .vpsubsbXmmEvex e => e.rm
  | .vpsubsbYmmEvex e => e.rm
  | .vpsubsbZmmEvex e => e.rm
  | .vpsubswXmmEvex e => e.rm
  | .vpsubswYmmEvex e => e.rm
  | .vpsubswZmmEvex e => e.rm

/-- Rows 1 and 3. -/
def isMmxForm : Instr → Bool
  | .psubsbMm _ => true
  | .psubsbXmm _ => false
  | .psubswMm _ => true
  | .psubswXmm _ => false
  | .vpsubsbXmmVex3 _ => false
  | .vpsubsbXmmVex2 _ => false
  | .vpsubswXmmVex3 _ => false
  | .vpsubswXmmVex2 _ => false
  | .vpsubsbYmmVex3 _ => false
  | .vpsubsbYmmVex2 _ => false
  | .vpsubswYmmVex3 _ => false
  | .vpsubswYmmVex2 _ => false
  | .vpsubsbXmmEvex _ => false
  | .vpsubsbYmmEvex _ => false
  | .vpsubsbZmmEvex _ => false
  | .vpsubswXmmEvex _ => false
  | .vpsubswYmmEvex _ => false
  | .vpsubswZmmEvex _ => false

/-- Rows 2 and 4. -/
def isXmmLegacyForm : Instr → Bool
  | .psubsbMm _ => false
  | .psubsbXmm _ => true
  | .psubswMm _ => false
  | .psubswXmm _ => true
  | .vpsubsbXmmVex3 _ => false
  | .vpsubsbXmmVex2 _ => false
  | .vpsubswXmmVex3 _ => false
  | .vpsubswXmmVex2 _ => false
  | .vpsubsbYmmVex3 _ => false
  | .vpsubsbYmmVex2 _ => false
  | .vpsubswYmmVex3 _ => false
  | .vpsubswYmmVex2 _ => false
  | .vpsubsbXmmEvex _ => false
  | .vpsubsbYmmEvex _ => false
  | .vpsubsbZmmEvex _ => false
  | .vpsubswXmmEvex _ => false
  | .vpsubswYmmEvex _ => false
  | .vpsubswZmmEvex _ => false

/-- Rows 5 to 14: a VEX or EVEX prefix. -/
def isVexOrEvexForm (i : Instr) : Bool := !isMmxForm i && !isXmmLegacyForm i

/-! ### Launch premises (70_reset_and_hazards.md R171), family by family -/

/-- Rows 1 and 3. -/
def MmxReady (s : State) : Prop :=
  s.features.mmx = true ∧ s.enabled.cr0Em = false ∧ s.enabled.cr0Ts = false ∧ s.enabled.x87ExceptionPending = false

/-- Rows 2 and 4. -/
def XmmReady (s : State) : Prop :=
  s.features.sse2 = true ∧ s.enabled.cr0Em = false ∧ s.enabled.cr4Osfxsr = true ∧ s.enabled.cr0Ts = false

/-- CR4.OSXSAVE = 1, XCR0[2:1] = 11b, CR0.TS = 0: what every VEX and EVEX form needs. -/
def AvxReady (s : State) : Prop :=
  s.enabled.cr4Osxsave = true ∧ s.enabled.xcr0Sse = true ∧ s.enabled.xcr0Avx = true ∧ s.enabled.cr0Ts = false

/-- Rows 5 and 6. -/
def Vex128Ready (s : State) : Prop := s.features.avx = true ∧ AvxReady s

/-- Rows 7 and 8. -/
def Vex256Ready (s : State) : Prop := s.features.avx2 = true ∧ AvxReady s

/-- XCR0[7:5] = 111b and AVX512BW besides: what every EVEX form needs. -/
def Avx512Ready (s : State) : Prop :=
  s.features.avx512bw = true ∧ AvxReady s ∧ s.enabled.xcr0Opmask = true ∧ s.enabled.xcr0ZmmHi256 = true ∧
    s.enabled.xcr0Hi16Zmm = true

/-- Rows 9, 10, 12, 13 need AVX512VL too, rows 11 and 14 do not. -/
def EvexReady (s : State) (vl : VecLen) : Prop := Avx512Ready s ∧ (vl ≠ .vl512 → s.features.avx512vl = true)

/-- The launch premises of an instruction: no #UD, #NM or #MF (R171). -/
def Ready (i : Instr) (s : State) : Prop :=
  match i with
  | .psubsbMm _ => MmxReady s
  | .psubsbXmm _ => XmmReady s
  | .psubswMm _ => MmxReady s
  | .psubswXmm _ => XmmReady s
  | .vpsubsbXmmVex3 _ => Vex128Ready s
  | .vpsubsbXmmVex2 _ => Vex128Ready s
  | .vpsubswXmmVex3 _ => Vex128Ready s
  | .vpsubswXmmVex2 _ => Vex128Ready s
  | .vpsubsbYmmVex3 _ => Vex256Ready s
  | .vpsubsbYmmVex2 _ => Vex256Ready s
  | .vpsubswYmmVex3 _ => Vex256Ready s
  | .vpsubswYmmVex2 _ => Vex256Ready s
  | .vpsubsbXmmEvex _ => EvexReady s .vl128
  | .vpsubsbYmmEvex _ => EvexReady s .vl256
  | .vpsubsbZmmEvex _ => EvexReady s .vl512
  | .vpsubswXmmEvex _ => EvexReady s .vl128
  | .vpsubswYmmEvex _ => EvexReady s .vl256
  | .vpsubswZmmEvex _ => EvexReady s .vl512

/-! ### Readable operands -/

/-- `n` bytes at `la` are readable: canonical, no verdict of the environment against them (20_memory.md R41, R50, R51). -/
def Readable (s : State) (la n : Nat) : Prop := s.canonicalRange la n = true ∧ s.memFault la n .read = none

/-- `b` is the little-endian value of the bytes from `la` up (20_memory.md R42): byte `j` of `b` is the byte at `la + j`. -/
def BytesAt (s : State) (la : Nat) {w : Nat} (b : BitVec w) : Prop := ∀ j, j < w / 8 → lane 8 b j = s.mem.read (la + j)

/-- `b` is operand 2 of row 1 or 3, and reading it raises nothing (R69, 20_memory.md R46). -/
def MmxOperand (e : LegacyEnc) (s : State) (b : BitVec 64) : Prop :=
  match e.rm with
  | .reg rm => b = s.getMm rm
  | .mem m =>
    Readable s (legacyRef e s m).la.toNat 8 ∧ BytesAt s (legacyRef e s m).la.toNat b ∧
      (s.alignmentCheck = true → (legacyRef e s m).la.toNat % 8 = 0)

/-- `b` is operand 2 of row 2 or 4, and reading it raises nothing (R69, 20_memory.md R46). -/
def XmmOperand (e : LegacyEnc) (s : State) (b : BitVec 128) : Prop :=
  match e.rm with
  | .reg rm => b = s.readVec 128 (xmmNum (rexB e.rex) rm)
  | .mem m =>
    (legacyRef e s m).la.toNat % 16 = 0 ∧ Readable s (legacyRef e s m).la.toNat 16 ∧ BytesAt s (legacyRef e s m).la.toNat b

/-- No #AC(0) on the `n`-byte operand at `la` of a VEX or EVEX form: alignment checking is off, the operand is aligned, or the
free choice of 60_exceptions.md R148 falls on a normal read. -/
def NoAlignmentFault (s : State) (la n : Nat) : Prop :=
  s.alignmentCheck = true → la % n ≠ 0 → Config.freeAlignmentFault s.freeCount = false

/-- `b` is operand 3 of a VEX form of length `len`, and reading it raises nothing (30_encoding.md R74). -/
def VexOperand (e : Vex3Enc) (len : Nat) (s : State) {w : Nat} (b : BitVec w) : Prop :=
  match e.rm with
  | .reg rm => b = s.readVec w (xmmNum e.b rm)
  | .mem m =>
    Readable s (vexRef e len s m).la.toNat (w / 8) ∧ BytesAt s (vexRef e len s m).la.toNat b ∧
      NoAlignmentFault s (vexRef e len s m).la.toNat (w / 8)

/-- `b` is operand 3 of an EVEX form, and reading it raises nothing (30_encoding.md R78); an 8-bit displacement is scaled by the
operand size (R79). -/
def EvexOperand (e : EvexEnc) (s : State) {w : Nat} (b : BitVec w) : Prop :=
  match e.rm with
  | .reg rm => b = s.readVec w (zmmNum e.x e.b rm)
  | .mem m =>
    Readable s (evexRef e (w / 8) s m).la.toNat (w / 8) ∧ BytesAt s (evexRef e (w / 8) s m).la.toNat b ∧
      NoAlignmentFault s (evexRef e (w / 8) s m).la.toNat (w / 8)

/-- The address of a ModRM:r/m operand, if it is a memory location. -/
def operandOf (rm : RegMem) (ref : MemForm → MemRef) : Option MemRef :=
  match rm with
  | .reg _ => none
  | .mem m => some (ref m)

/-- The memory operand of an instruction, if it has one. -/
def operandRef (i : Instr) (s : State) : Option MemRef :=
  match i with
  | .psubsbMm e => operandOf e.rm (legacyRef e s)
  | .psubsbXmm e => operandOf e.rm (legacyRef e s)
  | .psubswMm e => operandOf e.rm (legacyRef e s)
  | .psubswXmm e => operandOf e.rm (legacyRef e s)
  | .vpsubsbXmmVex3 e => operandOf e.rm (vexRef e e.len s)
  | .vpsubsbXmmVex2 e => operandOf e.rm (vexRef (vex2Fields e) e.len s)
  | .vpsubswXmmVex3 e => operandOf e.rm (vexRef e e.len s)
  | .vpsubswXmmVex2 e => operandOf e.rm (vexRef (vex2Fields e) e.len s)
  | .vpsubsbYmmVex3 e => operandOf e.rm (vexRef e e.len s)
  | .vpsubsbYmmVex2 e => operandOf e.rm (vexRef (vex2Fields e) e.len s)
  | .vpsubswYmmVex3 e => operandOf e.rm (vexRef e e.len s)
  | .vpsubswYmmVex2 e => operandOf e.rm (vexRef (vex2Fields e) e.len s)
  | .vpsubsbXmmEvex e => operandOf e.rm (evexRef e 16 s)
  | .vpsubsbYmmEvex e => operandOf e.rm (evexRef e 32 s)
  | .vpsubsbZmmEvex e => operandOf e.rm (evexRef e 64 s)
  | .vpsubswXmmEvex e => operandOf e.rm (evexRef e 16 s)
  | .vpsubswYmmEvex e => operandOf e.rm (evexRef e 32 s)
  | .vpsubswZmmEvex e => operandOf e.rm (evexRef e 64 s)

/-- The bytes a memory operand of an instruction has (20_memory.md R44). -/
def operandBytes : Instr → Nat
  | .psubsbMm _ => 8
  | .psubsbXmm _ => 16
  | .psubswMm _ => 8
  | .psubswXmm _ => 16
  | .vpsubsbXmmVex3 _ => 16
  | .vpsubsbXmmVex2 _ => 16
  | .vpsubswXmmVex3 _ => 16
  | .vpsubswXmmVex2 _ => 16
  | .vpsubsbYmmVex3 _ => 32
  | .vpsubsbYmmVex2 _ => 32
  | .vpsubswYmmVex3 _ => 32
  | .vpsubswYmmVex2 _ => 32
  | .vpsubsbXmmEvex _ => 16
  | .vpsubsbYmmEvex _ => 32
  | .vpsubsbZmmEvex _ => 64
  | .vpsubswXmmEvex _ => 16
  | .vpsubswYmmEvex _ => 32
  | .vpsubswZmmEvex _ => 64

/-! ### Frames -/

/-- What no form ever changes: opmask and general registers, segment bases, flags, MXCSR, CR2, every byte of memory, and the
launch configuration (10_state.md R20, R28 to R31; 20_memory.md R45). -/
structure Untouched (s t : State) : Prop where
  k : t.k = s.k
  gpr : t.gpr = s.gpr
  fsBase : t.fsBase = s.fsBase
  gsBase : t.gsBase = s.gsBase
  rflags : t.rflags = s.rflags
  mxcsr : t.mxcsr = s.mxcsr
  cr2 : t.cr2 = s.cr2
  bytes : ∀ a, t.mem.read a = s.mem.read a
  mem : t.mem = s.mem
  mode : t.mode = s.mode
  features : t.features = s.features
  enabled : t.enabled = s.enabled
  cpl : t.cpl = s.cpl
  vaWidth : t.vaWidth = s.vaWidth
  faultRules : t.faultRules = s.faultRules
  endAddr : t.endAddr = s.endAddr

/-- The frame of an MMX form with destination MM[d]: every other MMX register and every vector register is unchanged; x87 state
is not spoken of (10_state.md R32). -/
structure MmxFrame (d : BitVec 3) (s t : State) : Prop where
  untouched : Untouched s t
  v : t.v = s.v
  others : ∀ i, i ≠ d → t.getMm i = s.getMm i

/-- The frame of a form with destination V[d]: every other vector register, the MMX registers and x87 state are unchanged. -/
structure VecFrame (d : BitVec 5) (s t : State) : Prop where
  untouched : Untouched s t
  mm : t.mm = s.mm
  x87High : t.x87High = s.x87High
  x87Tag : t.x87Tag = s.x87Tag
  x87Status : t.x87Status = s.x87Status
  others : ∀ i, i ≠ d → t.getV i = s.getV i

/-! ### Results, element by element -/

/-- Every `n`-bit element of `r` is `sub` of the elements of `a` and `b` at its place, and of no others
(00_scope.md R15, 40_legacy_mmx_sse.md R101). -/
def Lanewise {n : Nat} (sub : BitVec n → BitVec n → BitVec n) {w : Nat} (r a b : BitVec w) : Prop :=
  ∀ j, j < w / n → lane n r j = sub (lane n a j) (lane n b j)

/-- The same under the writemask of an EVEX form (42_evex.md R121): element `j` is computed when `aaa` = 000b or bit `j` of
K[aaa] is 1; otherwise it is zero with `z` = 1 and the old element with `z` = 0. -/
def MaskedLanewise {n : Nat} (sub : BitVec n → BitVec n → BitVec n) (e : EvexEnc) (s : State) {w : Nat} (r old a b : BitVec w) :
    Prop :=
  ∀ j, j < w / n →
    ((e.aaa = 0#3 ∨ (s.getK e.aaa).getLsbD j = true) → lane n r j = sub (lane n a j) (lane n b j)) ∧
      (¬(e.aaa = 0#3 ∨ (s.getK e.aaa).getLsbD j = true) → e.z = true → lane n r j = 0#n) ∧
      (¬(e.aaa = 0#3 ∨ (s.getK e.aaa).getLsbD j = true) → e.z = false → lane n r j = lane n old j)

/-- The bits of V[d] from 127 up are as before (10_state.md R23, legacy forms). -/
def UpperKept (d : BitVec 5) (s t : State) : Prop := (t.getV d).extractLsb' 128 384 = (s.getV d).extractLsb' 128 384

/-- The bits of V[d] from `w` up are zero (10_state.md R23, VEX and EVEX forms). -/
def UpperZero (w : Nat) (d : BitVec 5) (t : State) : Prop := ∀ i, w ≤ i → (t.getV d).getLsbD i = false

/-! ### Comparing outcomes -/

/-- An outcome with its state changed. -/
def mapOutcome (f : State → State) : Host.Outcome State Fault Refusal → Host.Outcome State Fault Refusal
  | .next t => .next (f t)
  | .fault (.raised x t) => .fault (.raised x (f t))
  | .refused r => .refused r

/-! ### The invariant -/

/-- Only what exists holds anything (10_state.md R22, D4): the bits of a vector register from MAXVL up, and registers 16 to 31
where MAXVL is below 512, are zero in the store (log 20). -/
abbrev State.VecWf (s : State) : Prop :=
  ∀ i : BitVec 5, s.getV i >>> maxvl s.features = 0#512 ∧
    (maxvl s.features < 512 → 16 ≤ i.toNat → s.getV i = 0#512)

/-- The invariant of the machine: memory in canonical form, vector registers within MAXVL, and AVX2 only beside AVX
(PRESUMED, log 20). -/
abbrev State.Inv (s : State) : Prop :=
  s.mem.wf = true ∧ s.VecWf ∧ (s.features.avx2 = true → s.features.avx = true)

/-! ### Runs (D29) -/

/-- How a run stands after some steps: ended at the end address (the final state), ended in a fault, refused, or going on. -/
inductive RunResult where
  | ended (s : State)
  | faulted (f : Fault)
  | refused (r : Refusal)
  | running (s : State)
  deriving DecidableEq, Repr

/-- pc is at the end-of-run address. -/
def State.final (s : State) : Bool := s.endAddr == some s.pc

/-- Up to `n` steps, to the end-of-run address, a fault or a refusal. -/
def runToEnd : Nat → State → RunResult
  | 0, s => if s.final then .ended s else .running s
  | n + 1, s =>
    if s.final then .ended s
    else match step s with
      | .next t => runToEnd n t
      | .fault f => .faulted f
      | .refused r => .refused r

end Sys2Proof.Machine
end

