-- ==== Sys2Proof/Certificates/Slice0/Obligations.lean ====
section
/-! DEFINITION. The statements for the provers, each from the rules its docstring names. Fault outcomes are written out:
`.fault (.raised x s)` is exception `x` with the state, pc included, as it was (60_exceptions.md R152). -/

open Sys2Proof Sys2Proof.Machine Sys2Proof.Config

/-! ### Lane arithmetic -/

/-- 00_scope.md R13: SaturateToSignedByte, case by case. -/
def Obligations.SaturateToSignedByteCases : Prop :=
  ∀ x : Int, (127 < x → satS8 x = 0x7F#8) ∧ (x < -128 → satS8 x = 0x80#8) ∧
    (-128 ≤ x → x ≤ 127 → (satS8 x).toInt = x ∧ ((satS8 x).toNat : Int) = x % 256)

/-- 00_scope.md R14: SaturateToSignedWord, case by case. -/
def Obligations.SaturateToSignedWordCases : Prop :=
  ∀ x : Int, (32767 < x → satS16 x = 0x7FFF#16) ∧ (x < -32768 → satS16 x = 0x8000#16) ∧
    (-32768 ≤ x → x ≤ 32767 → (satS16 x).toInt = x ∧ ((satS16 x).toNat : Int) = x % 65536)

/-- 00_scope.md R12 to R15: a lane function is the exact signed difference, clamped to the signed range of the element. -/
def Obligations.LaneDifferenceIsClampedExactly : Prop :=
  (∀ a b : BitVec 8, (subSB a b).toInt = max (-128) (min 127 (a.toInt - b.toInt))) ∧
    (∀ a b : BitVec 16, (subSW a b).toInt = max (-32768) (min 32767 (a.toInt - b.toInt)))

/-- 00_scope.md R16, the seventh law: a lane function differs from the modular difference exactly when the operands' signs differ
and the modular difference has not the minuend's sign; it then gives the bound on the minuend's side. -/
def Obligations.LaneSaturatesExactlyOnSignedOverflow : Prop :=
  (∀ a b : BitVec 8, (subSB a b ≠ a - b ↔ (a.msb ≠ b.msb ∧ (a - b).msb ≠ a.msb)) ∧
      (subSB a b ≠ a - b → subSB a b = if a.msb then 0x80#8 else 0x7F#8)) ∧
    (∀ a b : BitVec 16, (subSW a b ≠ a - b ↔ (a.msb ≠ b.msb ∧ (a - b).msb ≠ a.msb)) ∧
      (subSW a b ≠ a - b → subSW a b = if a.msb then 0x8000#16 else 0x7FFF#16))

/-- 00_scope.md R16, the other laws: x - x, x - 0, 0 - x, and monotony. -/
def Obligations.LaneFunctionLaws : Prop :=
  (∀ a b a' b' : BitVec 8, subSB a a = 0#8 ∧ subSB a 0#8 = a ∧ subSB 0#8 0x80#8 = 0x7F#8 ∧
      (b ≠ 0x80#8 → subSB 0#8 b = -b) ∧
      (a.toInt ≤ a'.toInt → b'.toInt ≤ b.toInt → (subSB a b).toInt ≤ (subSB a' b').toInt)) ∧
    (∀ a b a' b' : BitVec 16, subSW a a = 0#16 ∧ subSW a 0#16 = a ∧ subSW 0#16 0x8000#16 = 0x7FFF#16 ∧
      (b ≠ 0x8000#16 → subSW 0#16 b = -b) ∧
      (a.toInt ≤ a'.toInt → b'.toInt ≤ b.toInt → (subSW a b).toInt ≤ (subSW a' b').toInt))

/-- 40_legacy_mmx_sse.md R101: PSubS, slice by slice, for both element sizes and every operand width. -/
def Obligations.PackedSubtractionActsOnEverySlice : Prop :=
  ∀ w : Nat, (w = 64 ∨ w = 128 ∨ w = 256 ∨ w = 512) → ∀ a b : BitVec w,
    (∀ j, j < w / 8 →
      (psubs subSB a b).extractLsb' (j * 8) 8 = subSB (a.extractLsb' (j * 8) 8) (b.extractLsb' (j * 8) 8)) ∧
    (∀ j, j < w / 16 →
      (psubs subSW a b).extractLsb' (j * 16) 16 = subSW (a.extractLsb' (j * 16) 16) (b.extractLsb' (j * 16) 16))

/-- 42_evex.md R122: PSubSMask, slice by slice, in its three cases; with no mask it is PSubS. -/
def Obligations.MaskedSubtractionActsOnEverySlice : Prop :=
  ∀ w : Nat, (w = 128 ∨ w = 256 ∨ w = 512) → ∀ (old a b : BitVec w) (m : BitVec 64) (z : Bool),
    (∀ j, j < w / 8 → (psubsMask subSB old a b (some m) z).extractLsb' (j * 8) 8 =
      if m.getLsbD j then subSB (a.extractLsb' (j * 8) 8) (b.extractLsb' (j * 8) 8)
      else if z then 0#8 else old.extractLsb' (j * 8) 8) ∧
    (∀ j, j < w / 16 → (psubsMask subSW old a b (some m) z).extractLsb' (j * 16) 16 =
      if m.getLsbD j then subSW (a.extractLsb' (j * 16) 16) (b.extractLsb' (j * 16) 16)
      else if z then 0#16 else old.extractLsb' (j * 16) 16) ∧
    psubsMask subSB old a b none z = psubs subSB a b ∧ psubsMask subSW old a b none z = psubs subSW a b

/-! ### What each instruction does: completion, result, frame

`pc` moves to `s.nextPc len`, which `Obligations.PcAdvancesByLength` reads. The readable-operand conditions and the little-endian
value rest on 20_memory.md R42, R46, R51 and log 6, 7, 10, 15. -/

/-- 40_legacy_mmx_sse.md R102. Nothing else changes but x87 state, which the form disturbs and of which this says nothing (R100 step 9,
10_state.md R32; log 14). -/
def Obligations.PsubsbMmResult : Prop :=
  ∀ (e : LegacyEnc) (s : State) (b : BitVec 64), MmxReady s → MmxOperand e s b →
    ∃ t, exec (.psubsbMm e) s = .next t ∧ Lanewise subSB (t.getMm e.reg) (s.getMm e.reg) b ∧ MmxFrame e.reg s t ∧
      t.pc = s.nextPc e.len

/-- 40_legacy_mmx_sse.md R104. Nothing else changes but x87 state, which the form disturbs and of which this says nothing (R100 step 9,
10_state.md R32; log 14). -/
def Obligations.PsubswMmResult : Prop :=
  ∀ (e : LegacyEnc) (s : State) (b : BitVec 64), MmxReady s → MmxOperand e s b →
    ∃ t, exec (.psubswMm e) s = .next t ∧ Lanewise subSW (t.getMm e.reg) (s.getMm e.reg) b ∧ MmxFrame e.reg s t ∧
      t.pc = s.nextPc e.len

/-- 40_legacy_mmx_sse.md R103. -/
def Obligations.PsubsbXmmResult : Prop :=
  ∀ (e : LegacyEnc) (s : State) (b : BitVec 128) (d : BitVec 5), XmmReady s → XmmOperand e s b →
    d = xmmNum (rexR e.rex) e.reg →
    ∃ t, exec (.psubsbXmm e) s = .next t ∧ Lanewise subSB (t.readVec 128 d) (s.readVec 128 d) b ∧ UpperKept d s t ∧
      VecFrame d s t ∧ t.pc = s.nextPc e.len

/-- 40_legacy_mmx_sse.md R105. -/
def Obligations.PsubswXmmResult : Prop :=
  ∀ (e : LegacyEnc) (s : State) (b : BitVec 128) (d : BitVec 5), XmmReady s → XmmOperand e s b →
    d = xmmNum (rexR e.rex) e.reg →
    ∃ t, exec (.psubswXmm e) s = .next t ∧ Lanewise subSW (t.readVec 128 d) (s.readVec 128 d) b ∧ UpperKept d s t ∧
      VecFrame d s t ∧ t.pc = s.nextPc e.len

/-- 41_vex.md R112, in both spellings. -/
def Obligations.VpsubsbXmmVexResult : Prop :=
  (∀ (e : Vex3Enc) (s : State) (b : BitVec 128) (d : BitVec 5), Vex128Ready s → VexOperand e e.len s b → d = xmmNum e.r e.reg →
    ∃ t, exec (.vpsubsbXmmVex3 e) s = .next t ∧
      Lanewise subSB (t.readVec 128 d) (s.readVec 128 (vvvvNum e.vvvv)) b ∧ UpperZero 128 d t ∧ VecFrame d s t ∧
      t.pc = s.nextPc e.len) ∧
  (∀ (e : Vex2Enc) (s : State) (b : BitVec 128) (d : BitVec 5), Vex128Ready s → VexOperand (vex2Fields e) e.len s b →
    d = xmmNum e.r e.reg →
    ∃ t, exec (.vpsubsbXmmVex2 e) s = .next t ∧
      Lanewise subSB (t.readVec 128 d) (s.readVec 128 (vvvvNum e.vvvv)) b ∧ UpperZero 128 d t ∧ VecFrame d s t ∧
      t.pc = s.nextPc e.len)

/-- 41_vex.md R113, in both spellings. -/
def Obligations.VpsubswXmmVexResult : Prop :=
  (∀ (e : Vex3Enc) (s : State) (b : BitVec 128) (d : BitVec 5), Vex128Ready s → VexOperand e e.len s b → d = xmmNum e.r e.reg →
    ∃ t, exec (.vpsubswXmmVex3 e) s = .next t ∧
      Lanewise subSW (t.readVec 128 d) (s.readVec 128 (vvvvNum e.vvvv)) b ∧ UpperZero 128 d t ∧ VecFrame d s t ∧
      t.pc = s.nextPc e.len) ∧
  (∀ (e : Vex2Enc) (s : State) (b : BitVec 128) (d : BitVec 5), Vex128Ready s → VexOperand (vex2Fields e) e.len s b →
    d = xmmNum e.r e.reg →
    ∃ t, exec (.vpsubswXmmVex2 e) s = .next t ∧
      Lanewise subSW (t.readVec 128 d) (s.readVec 128 (vvvvNum e.vvvv)) b ∧ UpperZero 128 d t ∧ VecFrame d s t ∧
      t.pc = s.nextPc e.len)

/-- 41_vex.md R114, in both spellings. -/
def Obligations.VpsubsbYmmVexResult : Prop :=
  (∀ (e : Vex3Enc) (s : State) (b : BitVec 256) (d : BitVec 5), Vex256Ready s → VexOperand e e.len s b → d = xmmNum e.r e.reg →
    ∃ t, exec (.vpsubsbYmmVex3 e) s = .next t ∧
      Lanewise subSB (t.readVec 256 d) (s.readVec 256 (vvvvNum e.vvvv)) b ∧ UpperZero 256 d t ∧ VecFrame d s t ∧
      t.pc = s.nextPc e.len) ∧
  (∀ (e : Vex2Enc) (s : State) (b : BitVec 256) (d : BitVec 5), Vex256Ready s → VexOperand (vex2Fields e) e.len s b →
    d = xmmNum e.r e.reg →
    ∃ t, exec (.vpsubsbYmmVex2 e) s = .next t ∧
      Lanewise subSB (t.readVec 256 d) (s.readVec 256 (vvvvNum e.vvvv)) b ∧ UpperZero 256 d t ∧ VecFrame d s t ∧
      t.pc = s.nextPc e.len)

/-- 41_vex.md R115, in both spellings. -/
def Obligations.VpsubswYmmVexResult : Prop :=
  (∀ (e : Vex3Enc) (s : State) (b : BitVec 256) (d : BitVec 5), Vex256Ready s → VexOperand e e.len s b → d = xmmNum e.r e.reg →
    ∃ t, exec (.vpsubswYmmVex3 e) s = .next t ∧
      Lanewise subSW (t.readVec 256 d) (s.readVec 256 (vvvvNum e.vvvv)) b ∧ UpperZero 256 d t ∧ VecFrame d s t ∧
      t.pc = s.nextPc e.len) ∧
  (∀ (e : Vex2Enc) (s : State) (b : BitVec 256) (d : BitVec 5), Vex256Ready s → VexOperand (vex2Fields e) e.len s b →
    d = xmmNum e.r e.reg →
    ∃ t, exec (.vpsubswYmmVex2 e) s = .next t ∧
      Lanewise subSW (t.readVec 256 d) (s.readVec 256 (vvvvNum e.vvvv)) b ∧ UpperZero 256 d t ∧ VecFrame d s t ∧
      t.pc = s.nextPc e.len)

/-- 42_evex.md R124. -/
def Obligations.VpsubsbXmmEvexResult : Prop :=
  ∀ (e : EvexEnc) (s : State) (b : BitVec 128) (d : BitVec 5), EvexReady s .vl128 → EvexOperand e s b →
    d = zmmNum e.rHi e.r e.reg →
    ∃ t, exec (.vpsubsbXmmEvex e) s = .next t ∧
      MaskedLanewise subSB e s (t.readVec 128 d) (s.readVec 128 d) (s.readVec 128 (vvvvHiNum e.vHi e.vvvv)) b ∧
      UpperZero 128 d t ∧ VecFrame d s t ∧ t.pc = s.nextPc e.len

/-- 42_evex.md R125. -/
def Obligations.VpsubsbYmmEvexResult : Prop :=
  ∀ (e : EvexEnc) (s : State) (b : BitVec 256) (d : BitVec 5), EvexReady s .vl256 → EvexOperand e s b →
    d = zmmNum e.rHi e.r e.reg →
    ∃ t, exec (.vpsubsbYmmEvex e) s = .next t ∧
      MaskedLanewise subSB e s (t.readVec 256 d) (s.readVec 256 d) (s.readVec 256 (vvvvHiNum e.vHi e.vvvv)) b ∧
      UpperZero 256 d t ∧ VecFrame d s t ∧ t.pc = s.nextPc e.len

/-- 42_evex.md R126. -/
def Obligations.VpsubsbZmmEvexResult : Prop :=
  ∀ (e : EvexEnc) (s : State) (b : BitVec 512) (d : BitVec 5), EvexReady s .vl512 → EvexOperand e s b →
    d = zmmNum e.rHi e.r e.reg →
    ∃ t, exec (.vpsubsbZmmEvex e) s = .next t ∧
      MaskedLanewise subSB e s (t.readVec 512 d) (s.readVec 512 d) (s.readVec 512 (vvvvHiNum e.vHi e.vvvv)) b ∧
      VecFrame d s t ∧ t.pc = s.nextPc e.len

/-- 42_evex.md R127. -/
def Obligations.VpsubswXmmEvexResult : Prop :=
  ∀ (e : EvexEnc) (s : State) (b : BitVec 128) (d : BitVec 5), EvexReady s .vl128 → EvexOperand e s b →
    d = zmmNum e.rHi e.r e.reg →
    ∃ t, exec (.vpsubswXmmEvex e) s = .next t ∧
      MaskedLanewise subSW e s (t.readVec 128 d) (s.readVec 128 d) (s.readVec 128 (vvvvHiNum e.vHi e.vvvv)) b ∧
      UpperZero 128 d t ∧ VecFrame d s t ∧ t.pc = s.nextPc e.len

/-- 42_evex.md R128. -/
def Obligations.VpsubswYmmEvexResult : Prop :=
  ∀ (e : EvexEnc) (s : State) (b : BitVec 256) (d : BitVec 5), EvexReady s .vl256 → EvexOperand e s b →
    d = zmmNum e.rHi e.r e.reg →
    ∃ t, exec (.vpsubswYmmEvex e) s = .next t ∧
      MaskedLanewise subSW e s (t.readVec 256 d) (s.readVec 256 d) (s.readVec 256 (vvvvHiNum e.vHi e.vvvv)) b ∧
      UpperZero 256 d t ∧ VecFrame d s t ∧ t.pc = s.nextPc e.len

/-- 42_evex.md R129. -/
def Obligations.VpsubswZmmEvexResult : Prop :=
  ∀ (e : EvexEnc) (s : State) (b : BitVec 512) (d : BitVec 5), EvexReady s .vl512 → EvexOperand e s b →
    d = zmmNum e.rHi e.r e.reg →
    ∃ t, exec (.vpsubswZmmEvex e) s = .next t ∧
      MaskedLanewise subSW e s (t.readVec 512 d) (s.readVec 512 d) (s.readVec 512 (vvvvHiNum e.vHi e.vvvv)) b ∧
      VecFrame d s t ∧ t.pc = s.nextPc e.len

/-! ### Checks before an instruction runs: conditions and order -/

/-- 60_exceptions.md R144, R145, R147, in the order of R150, rows 1 and 3. -/
def Obligations.MmxFormsCheckInOrder : Prop :=
  ∀ (e : LegacyEnc) (s : State), ∀ i ∈ [Instr.psubsbMm e, Instr.psubswMm e],
    (s.features.mmx = false ∨ s.enabled.cr0Em = true → exec i s = .fault (.raised .ud s)) ∧
    (s.features.mmx = true → s.enabled.cr0Em = false → s.enabled.cr0Ts = true → exec i s = .fault (.raised .nm s)) ∧
    (s.features.mmx = true → s.enabled.cr0Em = false → s.enabled.cr0Ts = false → s.enabled.x87ExceptionPending = true →
      exec i s = .fault (.raised .mf s))

/-- 60_exceptions.md R144, R145, in the order of R150, rows 2 and 4. -/
def Obligations.XmmLegacyFormsCheckInOrder : Prop :=
  ∀ (e : LegacyEnc) (s : State), ∀ i ∈ [Instr.psubsbXmm e, Instr.psubswXmm e],
    (s.features.sse2 = false ∨ s.enabled.cr0Em = true ∨ s.enabled.cr4Osfxsr = false → exec i s = .fault (.raised .ud s)) ∧
    (s.features.sse2 = true → s.enabled.cr0Em = false → s.enabled.cr4Osfxsr = true → s.enabled.cr0Ts = true →
      exec i s = .fault (.raised .nm s))

/-- 60_exceptions.md R144, R145, in the order of R150, rows 5 to 8: AVX for 128 bits, AVX2 for 256 (00_scope.md R4). -/
def Obligations.VexFormsCheckInOrder : Prop :=
  ∀ (e : Vex3Enc) (e2 : Vex2Enc) (s : State) (feature : Bool) (i : Instr),
    (i ∈ [Instr.vpsubsbXmmVex3 e, Instr.vpsubswXmmVex3 e, Instr.vpsubsbXmmVex2 e2, Instr.vpsubswXmmVex2 e2] ∧
        feature = s.features.avx ∨
      i ∈ [Instr.vpsubsbYmmVex3 e, Instr.vpsubswYmmVex3 e, Instr.vpsubsbYmmVex2 e2, Instr.vpsubswYmmVex2 e2] ∧
        feature = s.features.avx2) →
    (feature = false ∨ s.enabled.cr4Osxsave = false ∨ s.enabled.xcr0Sse = false ∨ s.enabled.xcr0Avx = false →
      exec i s = .fault (.raised .ud s)) ∧
    (feature = true → s.enabled.cr4Osxsave = true → s.enabled.xcr0Sse = true → s.enabled.xcr0Avx = true →
      s.enabled.cr0Ts = true → exec i s = .fault (.raised .nm s))

/-- 60_exceptions.md R144, R145, in the order of R150, rows 9 to 14: AVX512BW, and AVX512VL below 512 bits (R5, D21). -/
def Obligations.EvexFormsCheckInOrder : Prop :=
  ∀ (e : EvexEnc) (s : State) (feature : Bool) (i : Instr),
    (i ∈ [Instr.vpsubsbXmmEvex e, Instr.vpsubsbYmmEvex e, Instr.vpsubswXmmEvex e, Instr.vpsubswYmmEvex e] ∧
        feature = (s.features.avx512bw && s.features.avx512vl) ∨
      i ∈ [Instr.vpsubsbZmmEvex e, Instr.vpsubswZmmEvex e] ∧ feature = s.features.avx512bw) →
    (feature = false ∨ s.enabled.cr4Osxsave = false ∨ s.enabled.xcr0Sse = false ∨ s.enabled.xcr0Avx = false ∨
        s.enabled.xcr0Opmask = false ∨ s.enabled.xcr0ZmmHi256 = false ∨ s.enabled.xcr0Hi16Zmm = false →
      exec i s = .fault (.raised .ud s)) ∧
    (feature = true → s.enabled.cr4Osxsave = true → s.enabled.xcr0Sse = true → s.enabled.xcr0Avx = true →
      s.enabled.xcr0Opmask = true → s.enabled.xcr0ZmmHi256 = true → s.enabled.xcr0Hi16Zmm = true →
      s.enabled.cr0Ts = true → exec i s = .fault (.raised .nm s))

/-! ### Memory-operand faults -/

/-- 20_memory.md R46: rows 2 and 4 raise #GP(0) on a linear address that is no multiple of 16, whatever else is wrong with it. -/
def Obligations.XmmLegacyOperandMustBeAligned : Prop :=
  ∀ (e : LegacyEnc) (m : MemForm) (s : State), XmmReady s → e.rm = .mem m → (legacyRef e s m).la.toNat % 16 ≠ 0 →
    ∀ i ∈ [Instr.psubsbXmm e, Instr.psubswXmm e], exec i s = .fault (.raised .gp s)

/-- 20_memory.md R46, 60_exceptions.md R148: rows 1 and 3 raise #AC(0) on a readable operand that is not 8-byte aligned when
CR0.AM = 1, EFLAGS.AC = 1 and CPL = 3. -/
def Obligations.MmxOperandAlignmentCheck : Prop :=
  ∀ (e : LegacyEnc) (m : MemForm) (s : State), MmxReady s → e.rm = .mem m →
    Readable s (legacyRef e s m).la.toNat 8 → s.enabled.cr0Am = true → s.rflags.getLsbD 18 = true → s.cpl = 3#2 →
    (legacyRef e s m).la.toNat % 8 ≠ 0 →
    ∀ i ∈ [Instr.psubsbMm e, Instr.psubswMm e], exec i s = .fault (.raised .ac s)

/-- 60_exceptions.md R148, U4: an unaligned memory operand of a VEX or EVEX form under alignment checking may raise #AC(0) or
complete; the model takes the one or the other as a free value says (log 15), and a proof must hold for both. -/
def Obligations.UnalignedVectorOperandEitherWay : Prop :=
  ∀ (i : Instr) (s : State) (r : MemRef), isVexOrEvexForm i = true → Ready i s → operandRef i s = some r →
    Readable s r.la.toNat (operandBytes i) → s.alignmentCheck = true → r.la.toNat % operandBytes i ≠ 0 →
    (freeAlignmentFault s.freeCount = true → exec i s = .fault (.raised .ac s)) ∧
      (freeAlignmentFault s.freeCount = false → ∃ t, exec i s = .next t)

/-- 20_memory.md R51: an operand with a non-canonical byte raises #SS(0) when the access is SS-relative, else #GP(0); in rows 2 and
4 a misaligned one raises #GP(0) first (R46, D16). -/
def Obligations.NonCanonicalOperandFaults : Prop :=
  ∀ (i : Instr) (s : State) (r : MemRef), Ready i s → operandRef i s = some r →
    (isXmmLegacyForm i = true → r.la.toNat % 16 = 0) → s.canonicalRange r.la.toNat (operandBytes i) = false →
    exec i s = .fault (.raised (if r.ssRel then .ss else .gp) s)

/-- 20_memory.md R41, R50: the environment's verdict on the whole operand ends the instruction, as the
verdict names it (log 32). The writemask plays no part: an EVEX
form reads the whole operand whatever its mask holds (R44, D30), so it faults with every mask bit 0 too. -/
def Obligations.EnvironmentVerdictEndsTheForm : Prop :=
  ∀ (i : Instr) (s : State) (r : MemRef), Ready i s → operandRef i s = some r →
    (isXmmLegacyForm i = true → r.la.toNat % 16 = 0) → s.canonicalRange r.la.toNat (operandBytes i) = true →
    (∀ x, s.memFault r.la.toNat (operandBytes i) .read = some (.exc x) → exec i s = .fault (.raised x (s.afterException x))) ∧
      (∀ why, s.memFault r.la.toNat (operandBytes i) .read = some (.refuse why) → exec i s = .refused why)

/-- 60_exceptions.md R143: the error code of a #PF on an operand (bit 1 = 0, bit 2 = (CPL = 3), bit 4 = 0), and CR2, which receives
the address of a byte of the operand (which byte: log 8). -/
def Obligations.PageFaultCodeAndCr2 : Prop :=
  ∀ (i : Instr) (s t : State) (code : BitVec 32) (addr : Word64), exec i s = .fault (.raised (.pf code addr) t) →
    code.getLsbD 1 = false ∧ code.getLsbD 2 = (s.cpl == 3#2) ∧ code.getLsbD 4 = false ∧ t = { s with cr2 := addr } ∧
      ∃ r, operandRef i s = some r ∧ r.la.toNat ≤ addr.toNat ∧ addr.toNat < r.la.toNat + operandBytes i

/-- 60_exceptions.md R152: every exception is precise; of an instruction, and of a whole step. -/
def Obligations.ExceptionsArePrecise : Prop :=
  (∀ (i : Instr) (s t : State) (x : Exception), exec i s = .fault (.raised x t) →
    t.pc = s.pc ∧ t = { s with cr2 := t.cr2 } ∧ ((∀ code addr, x ≠ .pf code addr) → t = s)) ∧
  (∀ (s t : State) (x : Exception), step s = .fault (.raised x t) →
    t.pc = s.pc ∧ t = { s with cr2 := t.cr2 } ∧ ((∀ code addr, x ≠ .pf code addr) → t = s))

/-- 60_exceptions.md R143, R147, R148: which rows raise what. #MF is the MMX rows' alone and only with an exception pending, the
XMM legacy rows never raise #AC(0), and a register operand raises nothing beyond #UD, #NM and #MF. -/
def Obligations.ExceptionsOfEachRow : Prop :=
  ∀ (i : Instr) (s t : State) (x : Exception), exec i s = .fault (.raised x t) →
    (x = .mf → isMmxForm i = true ∧ s.enabled.x87ExceptionPending = true) ∧
    (x = .ac → isXmmLegacyForm i = false ∧ s.alignmentCheck = true) ∧
    ((instrRegMem i).isReg = true → x = .ud ∨ x = .nm ∨ x = .mf)

/-! ### The whole machine -/

/-- 20_memory.md R45: no form writes memory, whether it completes or faults; hence memory is constant over a run. -/
def Obligations.NoFormWritesMemory : Prop :=
  (∀ (i : Instr) (s t : State) (a : Nat), exec i s = .next t → t.mem.read a = s.mem.read a) ∧
  (∀ (i : Instr) (s t : State) (x : Exception) (a : Nat), exec i s = .fault (.raised x t) → t.mem.read a = s.mem.read a) ∧
  (∀ (n : Nat) (s t : State) (a : Nat), (runToEnd n s = .ended t ∨ runToEnd n s = .running t) → t.mem.read a = s.mem.read a)

/-- 10_state.md R20, R24 to R31: no step changes a flag, MXCSR, a general, opmask, segment or control register, memory, or the
launch configuration. -/
def Obligations.StepLeavesTheRestUntouched : Prop :=
  ∀ s t : State, step s = .next t → Untouched s t

/-- 10_state.md R22, D4 (and log 6, log 20): every step keeps memory canonical and the vector registers within MAXVL. -/
def Obligations.StepKeepsTheInvariant : Prop :=
  ∀ s t : State, s.Inv → step s = .next t → t.Inv

/-- The invariant holds in the model's launch state (log 2 to 6, log 20). -/
def Obligations.ResetMeetsTheInvariant : Prop :=
  State.reset.Inv

/-- D29, 20_memory.md R45: a run that reaches its end address, of whatever length, ends in a state that meets the invariant, with
memory and everything else no form writes as at launch. -/
def Obligations.RunsKeepInvariantAndMemory : Prop :=
  ∀ (n : Nat) (s t : State), s.Inv → runToEnd n s = .ended t → t.Inv ∧ Untouched s t ∧ t.endAddr = some t.pc

/-- 10_state.md R27: a form that completes sets pc to pc + len (where pc + len is an address; beyond, log 16). -/
def Obligations.PcAdvancesByLength : Prop :=
  ∀ (i : Instr) (s t : State), exec i s = .next t → s.pc.toNat + i.len < 2 ^ 64 → t.pc = s.pc + BitVec.ofNat 64 i.len

/-! ### Fetch and decode -/

/-- A step runs the instruction the bytes at pc decode to; where they decode to none it stops as 30_encoding.md R83 says, and where
they end too early as whatever ended the fetch says, or with #GP(0) if nothing did (log 11, log 12). -/
def Obligations.StepRunsTheDecodedInstruction : Prop :=
  ∀ s : State, s.mode = .long64 →
    (∀ i, decode s.fetch.1 = .instr i → step s = exec i s) ∧
    (decode s.fetch.1 = .invalid → step s = .fault (.raised .ud s)) ∧
    (∀ why, decode s.fetch.1 = .refused why → step s = .refused (.bytes why)) ∧
    (decode s.fetch.1 = .truncated →
      (∀ x, s.fetch.2 = some (.exc x) → step s = .fault (.raised x (s.afterException x))) ∧
      (∀ why, s.fetch.2 = some (.refuse why) → step s = .refused why) ∧
      (s.fetch.2 = none → step s = .fault (.raised .gp s)))

/-- 00_scope.md R6, R7: a mode other than 64-bit mode is refused by name. -/
def Obligations.OtherModesAreRefused : Prop :=
  ∀ s : State, s.mode ≠ .long64 → step s = .refused (.otherMode s.mode)

/-- 00_scope.md R19: where memory at pc holds the bytes of a well-formed instruction, and they can be fetched, a step runs it,
whatever follows them. Two clauses are the model's choice and no rule's: in front of VEX and EVEX `67` may also stand before `64` or
`65`, which R60's shape does not have (log 31), and bytes after the instruction's last need not be fetchable (log 11). -/
def Obligations.StepRunsEncodedBytes : Prop :=
  ∀ (i : Instr) (s : State), i.wf = true → s.mode = .long64 →
    (∀ k (hk : k < (encode i).length),
      s.fetchStop (s.pc.toNat + k) = none ∧ s.mem.read (s.pc.toNat + k) = (encode i)[k]) →
    step s = exec i s

/-- 10_state.md R27, 30_encoding.md R86, 60_exceptions.md R150: bytes are fetched up to the first that cannot be, at most 15. An
instruction that needs a byte past the canonical range (at pc or later, the top of the address space too) is #GP(0), one that needs
a byte the environment denies gets its verdict, and one that needs a sixteenth byte is #GP(0) (log 11, log 12). The last two
clauses are the simplest cases: pc itself not canonical, and fifteen prefix bytes. -/
def Obligations.FetchLimitsFault : Prop :=
  ∀ s : State, s.mode = .long64 →
    (∀ (k : Nat) (st : Stop), k < 15 → (∀ j, j < k → s.fetchStop (s.pc.toNat + j) = none) →
      s.fetchStop (s.pc.toNat + k) = some st →
      s.fetch.1 = (List.range k).map (fun j => s.mem.read (s.pc.toNat + j)) ∧
      (s.canonicalRange (s.pc.toNat + k) 1 = false → st = .exc .gp) ∧
      (decode s.fetch.1 = .truncated →
        (∀ x, st = .exc x → step s = .fault (.raised x (s.afterException x))) ∧
        (∀ why, st = .refuse why → step s = .refused why))) ∧
    ((∀ k, k < 15 → s.fetchStop (s.pc.toNat + k) = none) →
      s.fetch.1 = (List.range 15).map (fun j => s.mem.read (s.pc.toNat + j)) ∧
      (decode s.fetch.1 = .truncated → step s = .fault (.raised .gp s))) ∧
    (s.canonicalRange s.pc.toNat 1 = false → step s = .fault (.raised .gp s)) ∧
    ((∀ k, k < 15 → s.fetchStop (s.pc.toNat + k) = none ∧ isPrefixByte (s.mem.read (s.pc.toNat + k)) = true) →
      step s = .fault (.raised .gp s))

/-- Words written out from 95_test_vectors.md section 2, one or more per family. -/
def Obligations.ListedWordsDecode : Prop :=
  decode [0x0F#8, 0xE9#8, 0x7B#8, 0x08#8] =
    .instr (.psubswMm { pfx := [], rex := none, reg := 7, rm := .mem (.indirect 3 (.d8 8)) }) ∧
  decode [0x66#8, 0x44#8, 0x0F#8, 0xE9#8, 0x7C#8, 0x8F#8, 0x10#8] =
    .instr (.psubswXmm { pfx := [.opSize], rex := some { w := false, r := true, x := false, b := false }, reg := 7,
                         rm := .mem (.sib 2 1 7 (.d8 0x10)) }) ∧
  decode [0xC5#8, 0xE9#8, 0xE8#8, 0xCB#8] =
    .instr (.vpsubsbXmmVex2 { pfx := [], r := false, vvvv := 2, reg := 1, rm := .reg 3 }) ∧
  decode [0xC4#8, 0xC1#8, 0x69#8, 0xE8#8, 0xCB#8] =
    .instr (.vpsubsbXmmVex3 { pfx := [], r := false, x := false, b := true, w := false, vvvv := 2, reg := 1, rm := .reg 3 }) ∧
  decode [0x62#8, 0x61#8, 0x6D#8, 0xC5#8, 0xE9#8, 0x48#8, 0x01#8] =
    .instr (.vpsubswZmmEvex { pfx := [], r := true, x := false, b := false, rHi := true, w := false, vvvv := 2, z := true,
                              vHi := true, aaa := 5, reg := 1, rm := .mem (.indirect 0 (.d8 1)) })

/-- 30_encoding.md R64 to R81: decoding an encoded well-formed instruction gives it back, whatever bytes follow. Well-formed VEX and
EVEX instructions have `67` and an override in either order: R60's shape has the override first only, and that `67` before `64` or
`65` decodes there is the model's choice (log 31), no rule's. -/
def Obligations.DecodeOfEncode : Prop :=
  ∀ (i : Instr) (rest : List Byte), i.wf = true → decode (encode i ++ rest) = .instr i

/-- 30_encoding.md R64 to R81: what decodes to an instruction begins with its encoding, of its length, which is 3 to 13 bytes
(R86), and the instruction is well-formed: no bit of an accepted encoding is dropped. The order of `67` and an override in front of
VEX and EVEX is kept as it stands in the bytes; accepting both orders is the model's choice (log 31). -/
def Obligations.EncodeOfDecode : Prop :=
  ∀ (bytes : List Byte) (i : Instr), decode bytes = .instr i →
    i.wf = true ∧ bytes.take i.len = encode i ∧ (encode i).length = i.len ∧ 3 ≤ i.len ∧ i.len ≤ 13

/-- 30_encoding.md R76, R80, R83: the EVEX field values at which #UD is raised. -/
def Obligations.ReservedEvexFieldsAreInvalid : Prop :=
  ∀ (p0 p1 p2 opc : Byte) (reg : BitVec 3) (rm : RegMem) (rest : List Byte), rm.wf = true →
    (opc = 0xE8#8 ∨ opc = 0xE9#8) → p0.extractLsb' 0 2 = 1#2 → p1.extractLsb' 0 2 = 1#2 →
    (p0.extractLsb' 2 2 ≠ 0#2 ∨ p1.getLsbD 2 = false ∨ p2.extractLsb' 5 2 = 3#2 ∨ p2.getLsbD 4 = true ∨
      p2.getLsbD 7 = true ∧ p2.extractLsb' 0 3 = 0#3) →
    decode (0x62#8 :: p0 :: p1 :: p2 :: opc :: (modrmBytes reg rm ++ rest)) = .invalid

/-- 30_encoding.md R70, R75, R81, R84: `F0`, `F2` or `F3` before any form, and `66` or REX before a VEX or EVEX form, raise #UD;
well-formed forms include those of log 31, with `67` before an override in front of VEX or EVEX. -/
def Obligations.InvalidPrefixesAreInvalid : Prop :=
  ∀ (i : Instr) (b : Byte) (rest : List Byte), i.wf = true →
    (b = 0xF0#8 ∨ b = 0xF2#8 ∨ b = 0xF3#8 ∨ isVexOrEvexForm i = true ∧ (b = 0x66#8 ∨ b.extractLsb' 4 4 = 4#4)) →
    decode (b :: (encode i ++ rest)) = .invalid

/-- 30_encoding.md R65: a repeated prefix, a second segment override, and the overrides `26`, `2E`, `36`, `3E` are refused by
name; well-formed forms include those of log 31, with `67` before an override in front of VEX or EVEX. -/
def Obligations.RedundantPrefixesAreRefused : Prop :=
  ∀ (i : Instr) (rest : List Byte), i.wf = true →
    (∀ p q : Pfx, q ∈ instrPfx i → p.group = q.group → decode (p.byte :: (encode i ++ rest)) = .refused .repeatedPrefix) ∧
    (∀ b, (b = 0x26#8 ∨ b = 0x2E#8 ∨ b = 0x36#8 ∨ b = 0x3E#8) → decode (b :: (encode i ++ rest)) = .refused .nullSegment)

/-- 30_encoding.md R69: an MMX row with REX.R = 1, or with REX.B = 1 and a register operand, is refused by name. -/
def Obligations.RexOnMmxRegistersIsRefused : Prop :=
  ∀ (e : LegacyEnc) (x : Rex) (opc : Byte) (rest : List Byte), pfxNoOpSize e.pfx = true → e.rm.wf = true →
    (opc = 0xE8#8 ∨ opc = 0xE9#8) → e.rex = some x → (x.r = true ∨ x.b = true ∧ e.rm.isReg = true) →
    decode (encodeLegacy opc e ++ rest) = .refused .rexOnMmx

/-- 30_encoding.md R85: in the VEX and EVEX rows the W bit has no effect, and REX.W has none on rows 1 to 4 (R68). -/
def Obligations.WBitIsIgnored : Prop :=
  (∀ (e : LegacyEnc) (x : Rex) (w : Bool) (s : State), e.rex = some x →
    ∀ f ∈ [Instr.psubsbMm, Instr.psubswMm, Instr.psubsbXmm, Instr.psubswXmm],
      exec (f { e with rex := some { x with w := w } }) s = exec (f e) s) ∧
  (∀ (e : Vex3Enc) (w : Bool) (s : State),
    ∀ f ∈ [Instr.vpsubsbXmmVex3, Instr.vpsubswXmmVex3, Instr.vpsubsbYmmVex3, Instr.vpsubswYmmVex3],
      exec (f { e with w := w }) s = exec (f e) s) ∧
  (∀ (e : EvexEnc) (w : Bool) (s : State),
    ∀ f ∈ [Instr.vpsubsbXmmEvex, Instr.vpsubsbYmmEvex, Instr.vpsubsbZmmEvex, Instr.vpsubswXmmEvex, Instr.vpsubswYmmEvex,
        Instr.vpsubswZmmEvex],
      exec (f { e with w := w }) s = exec (f e) s)

/-! ### Addresses -/

/-- 30_encoding.md R67, R79, 10_state.md R26: the linear address of each memory form with 64-bit addresses, and which accesses are
SS-relative, for any scale `n` of an 8-bit displacement; then the operand of every instruction, with its scale: 1, but in EVEX
forms the operand's size in bytes. -/
def Obligations.LinearAddressOfEachForm : Prop :=
  ∀ (s : State) (pfx : List Pfx) (x b : Bool) (n len : Nat) (base : Word64) (disp : Disp → Word64)
    (index : BitVec 2 → BitVec 3 → Word64),
    pfx.contains .addrSize = false → pfxDistinct pfx = true →
    (base = if pfx.contains .segFs then s.fsBase else if pfx.contains .segGs then s.gsBase else 0#64) →
    disp .absent = 0#64 → (∀ d, disp (.d8 d) = d.signExtend 64 * BitVec.ofNat 64 n) → (∀ d, disp (.d32 d) = d.signExtend 64) →
    (∀ ss iii, index ss iii =
      if BitVec.ofBool x ++ iii = 4#4 then 0#64 else s.getGpr (BitVec.ofBool x ++ iii) * BitVec.ofNat 64 (2 ^ ss.toNat)) →
    (∀ rm d, (memRef s pfx x b n len (.indirect rm d)).la = base + (s.getGpr (BitVec.ofBool b ++ rm) + disp d)) ∧
    (∀ d, (memRef s pfx x b n len (.ripRel d)).la = base + (s.pc + BitVec.ofNat 64 len + d.signExtend 64)) ∧
    (∀ ss iii bbb d, (memRef s pfx x b n len (.sib ss iii bbb d)).la =
      base + (s.getGpr (BitVec.ofBool b ++ bbb) + index ss iii + disp d)) ∧
    (∀ ss iii d, (memRef s pfx x b n len (.sibNoBase ss iii d)).la = base + (index ss iii + d.signExtend 64)) ∧
    (∀ m, (memRef s pfx x b n len m).ssRel = true ↔
      pfx.contains .segFs = false ∧ pfx.contains .segGs = false ∧ b = false ∧
        ((∃ d, m = .indirect 5#3 d) ∨ (∃ ss iii d, m = .sib ss iii 4#3 d) ∨ (∃ ss iii d, m = .sib ss iii 5#3 d))) ∧
    (∀ e : EvexEnc, ∀ m, e.pfx = pfx → e.x = x → e.b = b → e.len = len → evexRef e n s m = memRef s pfx x b n len m) ∧
    (∀ e : Vex3Enc, ∀ m, e.pfx = pfx → e.x = x → e.b = b → vexRef e len s m = memRef s pfx x b 1 len m) ∧
    (∀ e : LegacyEnc, ∀ m, e.pfx = pfx → rexX e.rex = x → rexB e.rex = b → e.len = len →
      legacyRef e s m = memRef s pfx x b 1 len m) ∧
    (∀ (e : LegacyEnc) (m : MemForm), e.rm = .mem m →
      ∀ i ∈ [Instr.psubsbMm e, Instr.psubsbXmm e, Instr.psubswMm e, Instr.psubswXmm e],
        operandRef i s = some (memRef s e.pfx (rexX e.rex) (rexB e.rex) 1 i.len m)) ∧
    (∀ (e : Vex3Enc) (m : MemForm), e.rm = .mem m →
      ∀ i ∈ [Instr.vpsubsbXmmVex3 e, Instr.vpsubswXmmVex3 e, Instr.vpsubsbYmmVex3 e, Instr.vpsubswYmmVex3 e],
        operandRef i s = some (memRef s e.pfx e.x e.b 1 i.len m)) ∧
    (∀ (e : Vex2Enc) (m : MemForm), e.rm = .mem m →
      ∀ i ∈ [Instr.vpsubsbXmmVex2 e, Instr.vpsubswXmmVex2 e, Instr.vpsubsbYmmVex2 e, Instr.vpsubswYmmVex2 e],
        operandRef i s = some (memRef s e.pfx false false 1 i.len m)) ∧
    (∀ (e : EvexEnc) (m : MemForm), e.rm = .mem m →
      ∀ p ∈ [(Instr.vpsubsbXmmEvex e, 16), (Instr.vpsubswXmmEvex e, 16), (Instr.vpsubsbYmmEvex e, 32),
          (Instr.vpsubswYmmEvex e, 32), (Instr.vpsubsbZmmEvex e, 64), (Instr.vpsubswZmmEvex e, 64)],
        operandRef p.1 s = some (memRef s e.pfx e.x e.b p.2 p.1.len m))

/-- 30_encoding.md R67: with a `67` prefix the formula is evaluated on the low 32 bits of each register and of `next`, the sum is
taken modulo 2^32 and zero-extended; the linear address adds the segment base to that, modulo 2^64 (10_state.md R26), and which
accesses are SS-relative does not depend on the prefix. The model takes the low half of the 64-bit sum instead (log 27); this says it
is the same. -/
def Obligations.AddressSizePrefixFormula : Prop :=
  ∀ (s : State) (pfx : List Pfx) (x b : Bool) (n len : Nat) (next base : Word64) (low : BitVec 4 → BitVec 32)
    (disp : Disp → BitVec 32) (index : BitVec 2 → BitVec 3 → BitVec 32),
    pfx.contains .addrSize = true →
    (base = if pfx.contains .segFs then s.fsBase else if pfx.contains .segGs then s.gsBase else 0#64) → (∀ i, low i = (s.getGpr i).setWidth 32) →
    disp .absent = 0#32 → (∀ d, disp (.d8 d) = d.signExtend 32 * BitVec.ofNat 32 n) → (∀ d, disp (.d32 d) = d) →
    (∀ ss iii, index ss iii =
      if BitVec.ofBool x ++ iii = 4#4 then 0#32 else low (BitVec.ofBool x ++ iii) * BitVec.ofNat 32 (2 ^ ss.toNat)) →
    (∀ rm d, effAddr s pfx x b n next (.indirect rm d) = (low (BitVec.ofBool b ++ rm) + disp d).setWidth 64) ∧
    (∀ d, effAddr s pfx x b n next (.ripRel d) = (next.setWidth 32 + d).setWidth 64) ∧
    (∀ ss iii bbb d, effAddr s pfx x b n next (.sib ss iii bbb d) =
      (low (BitVec.ofBool b ++ bbb) + index ss iii + disp d).setWidth 64) ∧
    (∀ ss iii d, effAddr s pfx x b n next (.sibNoBase ss iii d) = (index ss iii + d).setWidth 64) ∧
    (∀ rm d, (memRef s pfx x b n len (.indirect rm d)).la = base + (low (BitVec.ofBool b ++ rm) + disp d).setWidth 64) ∧
    (∀ d, (memRef s pfx x b n len (.ripRel d)).la =
      base + ((s.pc + BitVec.ofNat 64 len).setWidth 32 + d).setWidth 64) ∧
    (∀ ss iii bbb d, (memRef s pfx x b n len (.sib ss iii bbb d)).la =
      base + (low (BitVec.ofBool b ++ bbb) + index ss iii + disp d).setWidth 64) ∧
    (∀ ss iii d, (memRef s pfx x b n len (.sibNoBase ss iii d)).la = base + (index ss iii + d).setWidth 64) ∧
    (∀ m, (memRef s pfx x b n len m).ssRel = true ↔
      pfx.contains .segFs = false ∧ pfx.contains .segGs = false ∧ b = false ∧
        ((∃ d, m = .indirect 5#3 d) ∨ (∃ ss iii d, m = .sib ss iii 4#3 d) ∨ (∃ ss iii d, m = .sib ss iii 5#3 d)))

/-! ### Families against each other -/

/-- 42_evex.md R130: without a writemask an EVEX.128 or EVEX.256 form leaves the same vector registers as the VEX form, in either
spelling, on the same registers (below 16) and the same subtrahend, upper bits included. -/
def Obligations.UnmaskedEvexMatchesVex : Prop :=
  ∀ (e : EvexEnc) (v : Vex3Enc) (v2 : Vex2Enc) (s : State), e.aaa = 0#3 → e.rHi = false → e.vHi = false →
    v.r = e.r → v.vvvv = e.vvvv → v.reg = e.reg → v2.r = e.r → v2.vvvv = e.vvvv → v2.reg = e.reg →
    (∀ b : BitVec 128, Vex128Ready s → EvexReady s .vl128 → EvexOperand e s b → VexOperand v v.len s b →
      VexOperand (vex2Fields v2) v2.len s b →
      (∃ t t' t'', exec (.vpsubsbXmmEvex e) s = .next t ∧ exec (.vpsubsbXmmVex3 v) s = .next t' ∧
        exec (.vpsubsbXmmVex2 v2) s = .next t'' ∧ t.v = t'.v ∧ t.v = t''.v) ∧
      (∃ t t' t'', exec (.vpsubswXmmEvex e) s = .next t ∧ exec (.vpsubswXmmVex3 v) s = .next t' ∧
        exec (.vpsubswXmmVex2 v2) s = .next t'' ∧ t.v = t'.v ∧ t.v = t''.v)) ∧
    (∀ b : BitVec 256, Vex256Ready s → EvexReady s .vl256 → EvexOperand e s b → VexOperand v v.len s b →
      VexOperand (vex2Fields v2) v2.len s b →
      (∃ t t' t'', exec (.vpsubsbYmmEvex e) s = .next t ∧ exec (.vpsubsbYmmVex3 v) s = .next t' ∧
        exec (.vpsubsbYmmVex2 v2) s = .next t'' ∧ t.v = t'.v ∧ t.v = t''.v) ∧
      (∃ t t' t'', exec (.vpsubswYmmEvex e) s = .next t ∧ exec (.vpsubswYmmVex3 v) s = .next t' ∧
        exec (.vpsubswYmmVex2 v2) s = .next t'' ∧ t.v = t'.v ∧ t.v = t''.v))

/-- 41_vex.md R116: a VEX.128 form, in either spelling, whose minuend is its destination writes the same low 128 bits as the legacy
form on the same inputs; the legacy form keeps the bits above, the VEX form zeroes them. -/
def Obligations.VexMatchesLegacyBelow128 : Prop :=
  ∀ (e : LegacyEnc) (v : Vex3Enc) (v2 : Vex2Enc) (s : State) (b : BitVec 128) (d : BitVec 5), XmmReady s → Vex128Ready s →
    XmmOperand e s b → VexOperand v v.len s b → VexOperand (vex2Fields v2) v2.len s b →
    d = xmmNum (rexR e.rex) e.reg → xmmNum v.r v.reg = d → vvvvNum v.vvvv = d → xmmNum v2.r v2.reg = d → vvvvNum v2.vvvv = d →
    (∃ t t' t'', exec (.psubsbXmm e) s = .next t ∧ exec (.vpsubsbXmmVex3 v) s = .next t' ∧
      exec (.vpsubsbXmmVex2 v2) s = .next t'' ∧ t.readVec 128 d = t'.readVec 128 d ∧ t.readVec 128 d = t''.readVec 128 d ∧
      UpperKept d s t ∧ UpperZero 128 d t' ∧ UpperZero 128 d t'') ∧
    (∃ t t' t'', exec (.psubswXmm e) s = .next t ∧ exec (.vpsubswXmmVex3 v) s = .next t' ∧
      exec (.vpsubswXmmVex2 v2) s = .next t'' ∧ t.readVec 128 d = t'.readVec 128 d ∧ t.readVec 128 d = t''.readVec 128 d ∧
      UpperKept d s t ∧ UpperZero 128 d t' ∧ UpperZero 128 d t'')

/-- 00_scope.md R16 at the level of registers: a register minus itself is zero, in the packed subtraction of every width, and in the
legacy forms (R102, R103), which keep the upper bits of an XMM destination. -/
def Obligations.RegisterMinusItselfIsZero : Prop :=
  (∀ w : Nat, (w = 64 ∨ w = 128 ∨ w = 256 ∨ w = 512) → ∀ a : BitVec w, psubs subSB a a = 0#w ∧ psubs subSW a a = 0#w) ∧
  (∀ (e : LegacyEnc) (s : State), MmxReady s → e.rm = .reg e.reg →
    (∃ t, exec (.psubsbMm e) s = .next t ∧ t.getMm e.reg = 0#64) ∧ (∃ t, exec (.psubswMm e) s = .next t ∧ t.getMm e.reg = 0#64)) ∧
  (∀ (e : LegacyEnc) (s : State) (rm : BitVec 3) (d : BitVec 5), XmmReady s → e.rm = .reg rm → d = xmmNum (rexB e.rex) rm →
    d = xmmNum (rexR e.rex) e.reg →
    (∃ t, exec (.psubsbXmm e) s = .next t ∧ t.readVec 128 d = 0#128 ∧ UpperKept d s t) ∧
    (∃ t, exec (.psubswXmm e) s = .next t ∧ t.readVec 128 d = 0#128 ∧ UpperKept d s t))

/-! ### What a form does not read -/

/-- 10_state.md R24, 42_evex.md R121: mask bits from KL up, and K[0], have no effect: with the opmask registers replaced by any that
agree on bits KL-1:0 of K[1] to K[7], an EVEX form has the same outcome. -/
def Obligations.MaskBitsAboveKlAreIgnored : Prop :=
  ∀ (e : EvexEnc) (s : State) (k : Vector Word64 8) (kl : Nat) (i : Instr),
    (i = .vpsubsbXmmEvex e ∧ kl = 16 ∨ i = .vpsubsbYmmEvex e ∧ kl = 32 ∨ i = .vpsubsbZmmEvex e ∧ kl = 64 ∨
      i = .vpsubswXmmEvex e ∧ kl = 8 ∨ i = .vpsubswYmmEvex e ∧ kl = 16 ∨ i = .vpsubswZmmEvex e ∧ kl = 32) →
    (∀ (r : BitVec 3) (j : Nat), r ≠ 0#3 → j < kl → (({ s with k := k } : State).getK r).getLsbD j = (s.getK r).getLsbD j) →
    exec i { s with k := k } = mapOutcome (fun t => { t with k := k }) (exec i s)

/-- 10_state.md R32, 60_exceptions.md R147: nothing reads x87 state except the pending-exception check. Whatever the registers' upper
bits, the tag word and the status word hold, the outcome is the same but for them, with the pending condition as it is:
`x87ExceptionPending` is kept apart from the status word (log 26), and what it does is `Obligations.MmxFormsCheckInOrder`. -/
def Obligations.X87StateIsNotRead : Prop :=
  ∀ (i : Instr) (s : State) (high : Vector (BitVec 16) 8) (tag status : BitVec 16),
    mapOutcome (fun t => { t with x87High := high, x87Tag := tag, x87Status := status })
        (exec i { s with x87High := high, x87Tag := tag, x87Status := status }) =
      mapOutcome (fun t => { t with x87High := high, x87Tag := tag, x87Status := status }) (exec i s)

/-- 10_state.md R28, R29: no form reads a flag (but AC, through AlignmentCheck, R30) or MXCSR. -/
def Obligations.FlagsAndMxcsrAreNotRead : Prop :=
  ∀ (i : Instr) (s : State) (flags : Word64) (mx : BitVec 32), flags.getLsbD 18 = s.rflags.getLsbD 18 →
    exec i { s with rflags := flags, mxcsr := mx } = mapOutcome (fun t => { t with rflags := flags, mxcsr := mx }) (exec i s)

/-! ### The environment's verdict -/

/-- 00_scope.md R7, 20_memory.md R41: MemFault may be any function of address, size and access kind. For every such function and all
the sizes asked about, some table of the model's form (log 7) answers as the function does; the code and the address of a #PF are
those of R143 (log 8, log 9). -/
def Obligations.EveryVerdictFunctionHasATable : Prop :=
  ∀ (f : Word64 → Nat → AccessKind → Option Verdict) (sizes : List Nat), ∃ rules : List FaultRule,
    ∀ (s : State) (a : Word64) (n : Nat) (kind : AccessKind), s.faultRules = rules → n ∈ sizes →
      (f a n kind = none → s.memFault a.toNat n kind = none) ∧
      (f a n kind = some .gp → s.memFault a.toNat n kind = some (.exc .gp)) ∧
      (f a n kind = some .ss → s.memFault a.toNat n kind = some (.exc .ss)) ∧
      (∀ code, f a n kind = some (.pf code) → s.memFault a.toNat n kind = some (.exc (.pf (pfCode kind s.cpl code) a))) ∧
      (f a n kind = some .device → s.memFault a.toNat n kind = some (.refuse .deviceMemory))
end

