-- ==== Sys2Proof/Laws/Lanes.lean ====
section
/-! SUPPORT. Packing: element `j` of a packed vector is the `j`-th element packed; a packed vector is determined by its
elements. -/

namespace Sys2Proof.Machine

/-- Digit `i` of `packNat`. -/
theorem packNat_digit {e : Nat} (f : Nat → BitVec e) (n j i : Nat) (hi : i < n) :
    packNat f j n / 2 ^ (i * e) % 2 ^ e = (f (j + i)).toNat := by
  induction n generalizing j i with
  | zero => omega
  | succ n ih =>
    rw [packNat]
    have hf := (f j).isLt
    cases i with
    | zero => simp [Nat.add_mul_mod_self_left, Nat.mod_eq_of_lt hf]
    | succ i =>
      have hsplit : (2 : Nat) ^ ((i + 1) * e) = 2 ^ e * 2 ^ (i * e) := by rw [← pow_add]; congr 1; ring
      rw [hsplit, ← Nat.div_div_eq_div_mul, Nat.add_mul_div_left _ _ (Nat.two_pow_pos e), Nat.div_eq_of_lt hf, Nat.zero_add,
        ih (j + 1) i (by omega)]
      congr 2
      omega

/-- `packNat` of `n` elements fits `n * e` bits. -/
theorem packNat_lt {e : Nat} (f : Nat → BitVec e) (n j : Nat) : packNat f j n < 2 ^ (n * e) := by
  induction n generalizing j with
  | zero => simp [packNat]
  | succ n ih =>
    rw [packNat]
    have hf := (f j).isLt
    have h := ih (j + 1)
    have hsplit : (2 : Nat) ^ ((n + 1) * e) = 2 ^ e * 2 ^ (n * e) := by rw [← pow_add]; congr 1; ring
    rw [hsplit]
    calc (f j).toNat + 2 ^ e * packNat f (j + 1) n < 2 ^ e + 2 ^ e * packNat f (j + 1) n := by omega
      _ = 2 ^ e * (packNat f (j + 1) n + 1) := by ring
      _ ≤ 2 ^ e * 2 ^ (n * e) := Nat.mul_le_mul_left _ h

/-- Packing looks at the elements it packs only. -/
theorem packNat_congr {e : Nat} (f g : Nat → BitVec e) (n j : Nat) (h : ∀ i, j ≤ i → i < j + n → f i = g i) :
    packNat f j n = packNat g j n := by
  induction n generalizing j with
  | zero => rfl
  | succ n ih => rw [packNat, packNat, h j (by omega) (by omega), ih (j + 1) (fun i h1 h2 => h i (by omega) (by omega))]

/-- Element `j` of a packed vector is the `j`-th element (40_legacy_mmx_sse.md R101). -/
theorem lane_pack {e : Nat} (w : Nat) (f : Nat → BitVec e) (j : Nat) (hj : j < w / e) : lane e (pack w f) j = f j := by
  apply BitVec.eq_of_toNat_eq
  have hlt : packNat f 0 (w / e) < 2 ^ w :=
    lt_of_lt_of_le (packNat_lt f (w / e) 0) (Nat.pow_le_pow_right (by omega) (Nat.div_mul_le_self w e))
  rw [lane, pack, BitVec.extractLsb'_toNat, BitVec.toNat_ofNat, Nat.mod_eq_of_lt hlt, Nat.shiftRight_eq_div_pow,
    packNat_digit f (w / e) 0 j hj, Nat.zero_add]

/-- A bit of a vector is a bit of one of its elements. -/
theorem getLsbD_lane {w e : Nat} (x : BitVec w) (j i : Nat) (hi : i < e) : (lane e x j).getLsbD i = x.getLsbD (j * e + i) := by
  simp [lane, hi]

/-- Vectors with the same elements are the same, where the elements fill the vector. -/
theorem eq_of_lanes {w e : Nat} (he : 0 < e) (hw : w / e * e = w) (x y : BitVec w)
    (h : ∀ j, j < w / e → lane e x j = lane e y j) : x = y := by
  apply BitVec.eq_of_getLsbD_eq
  intro i hi
  have hj : i / e < w / e := Nat.div_lt_of_lt_mul (by rw [Nat.mul_comm, hw]; exact hi)
  have hm : i % e < e := Nat.mod_lt i he
  have hsplit : i = i / e * e + i % e := by rw [Nat.mul_comm]; exact (Nat.div_add_mod i e).symm
  rw [hsplit, ← getLsbD_lane x (i / e) (i % e) hm, ← getLsbD_lane y (i / e) (i % e) hm, h (i / e) hj]

/-- A little-endian value holds the bytes it was read from (20_memory.md R42). -/
theorem lane_readLe (w : Nat) (m : Memory) (a j : Nat) (hj : j < w / 8) : lane 8 (m.readLe w a) j = m.read (a + j) :=
  lane_pack w _ j hj

end Sys2Proof.Machine
end

