-- ==== Sys2Proof/Laws/Access.lean ====
section
/-! SUPPORT. What an access can do: the environment's verdict, a memory read, and the fetch of the subtrahend in each family. -/

namespace Sys2Proof.Machine

open Sys2Proof.Config

/-! ### The verdict -/

/-- What a rule can make of an access. -/
theorem verdictStop_cases (kind : AccessKind) (cpl : BitVec 2) (a : Nat) (r : FaultRule) :
    verdictStop kind cpl a r = .exc .gp ∨ verdictStop kind cpl a r = .exc .ss ∨
      (∃ code addr, verdictStop kind cpl a r = .exc (.pf (pfCode kind cpl code) addr)) ∨
      verdictStop kind cpl a r = .refuse .deviceMemory := by
  unfold verdictStop
  cases r.verdict with
  | gp => exact .inl rfl
  | ss => exact .inr (.inl rfl)
  | pf code => exact .inr (.inr (.inl ⟨code, _, rfl⟩))
  | device => exact .inr (.inr (.inr rfl))

/-- MemFault answers nothing, or what one of its rules makes of the access. -/
theorem memFault_of_rule (s : State) (a n : Nat) (kind : AccessKind) (st : Stop) (h : s.memFault a n kind = some st) :
    ∃ r, r ∈ s.faultRules ∧ ruleApplies kind a n r = true ∧ st = verdictStop kind s.cpl a r := by
  simp only [State.memFault] at h
  split at h
  · rename_i r hr
    have hmem := List.mem_of_find?_eq_some hr
    rw [List.mem_filter] at hmem
    exact ⟨r, hmem.1, hmem.2, (Option.some.inj h).symm⟩
  · split at h
    · rename_i r hr
      have hmem := List.mem_of_find?_eq_some hr
      rw [List.mem_filter] at hmem
      exact ⟨r, hmem.1, hmem.2, (Option.some.inj h).symm⟩
    · rw [Option.map_eq_some_iff] at h
      obtain ⟨r, hr, rfl⟩ := h
      have hmem := List.mem_of_head? hr
      rw [List.mem_filter] at hmem
      exact ⟨r, hmem.1, hmem.2, rfl⟩

/-- What MemFault can answer (00_scope.md R7): #GP(0), #SS(0), a #PF with the code of 60_exceptions.md R143, or a device window. -/
theorem memFault_cases (s : State) (a n : Nat) (kind : AccessKind) (st : Stop) (h : s.memFault a n kind = some st) :
    st = .exc .gp ∨ st = .exc .ss ∨ (∃ code addr, st = .exc (.pf (pfCode kind s.cpl code) addr)) ∨ st = .refuse .deviceMemory := by
  obtain ⟨r, -, -, rfl⟩ := memFault_of_rule s a n kind st h
  exact verdictStop_cases kind s.cpl a r

/-- MemFault answers nothing exactly where no rule applies. -/
theorem memFault_none_iff (s : State) (a n : Nat) (kind : AccessKind) :
    s.memFault a n kind = none ↔ ∀ r ∈ s.faultRules, ruleApplies kind a n r = false := by
  constructor
  · intro h r hr
    by_contra hc
    have hm : r ∈ s.faultRules.filter (ruleApplies kind a n) := List.mem_filter.2 ⟨hr, by simpa using hc⟩
    simp only [State.memFault] at h
    split at h
    · cases h
    · split at h
      · cases h
      · rw [Option.map_eq_none_iff, List.head?_eq_none_iff] at h
        rw [h] at hm
        cases hm
  · intro h
    cases hf : s.memFault a n kind with
    | none => rfl
    | some st =>
      obtain ⟨r, hr, ha, -⟩ := memFault_of_rule s a n kind st hf
      rw [h r hr] at ha
      cases ha

/-- Where rules apply and all of them make the same of the access, that is MemFault's answer. -/
theorem memFault_of_agree (s : State) (a n : Nat) (kind : AccessKind) (st : Stop)
    (hr : ∃ r ∈ s.faultRules, ruleApplies kind a n r = true)
    (hall : ∀ r ∈ s.faultRules, ruleApplies kind a n r = true → verdictStop kind s.cpl a r = st) :
    s.memFault a n kind = some st := by
  cases hf : s.memFault a n kind with
  | none =>
    obtain ⟨r, hm, ha⟩ := hr
    rw [(memFault_none_iff s a n kind).1 hf r hm] at ha
    cases ha
  | some st' =>
    obtain ⟨r, hm, ha, rfl⟩ := memFault_of_rule s a n kind st' hf
    rw [hall r hm ha]

/-- The address a #PF records is that of a byte of the access. -/
theorem memFault_pf_addr (s : State) (a n : Nat) (kind : AccessKind) (code : BitVec 32) (addr : Word64) (hn : 0 < n)
    (hs : a + n ≤ 2 ^ 64) (h : s.memFault a n kind = some (.exc (.pf code addr))) : a ≤ addr.toNat ∧ addr.toNat < a + n := by
  obtain ⟨r, -, ha, hv⟩ := memFault_of_rule s a n kind _ h
  have hb : a ≤ extentStart a r.extent ∧ extentStart a r.extent < a + n := by
    simp only [ruleApplies, Bool.and_eq_true] at ha
    cases he : r.extent with
    | touching first last =>
      simp only [he, inExtent, Bool.and_eq_true, decide_eq_true_eq] at ha
      simp only [extentStart]
      omega
    | starting first last size => simp only [extentStart]; omega
  unfold verdictStop at hv
  split at hv
  · cases hv
  · cases hv
  · simp only [Stop.exc.injEq, Exception.pf.injEq] at hv
    rw [hv.2, BitVec.toNat_ofNat, Nat.mod_eq_of_lt (by omega)]
    exact hb
  · cases hv

/-- With an empty table MemFault is constantly "none" (20_memory.md R50). -/
theorem memFault_nil (s : State) (a n : Nat) (kind : AccessKind) (h : s.faultRules = []) : s.memFault a n kind = none := by
  simp [State.memFault, h]

/-! ### MemRead -/

/-- A read succeeds on a readable operand, with the bytes there. -/
theorem memRead_ok_iff (w : Nat) (r : MemRef) (s : State) (b : BitVec w) :
    memRead w r s = .ok b ↔ Readable s r.la.toNat (w / 8) ∧ b = s.mem.readLe w r.la.toNat := by
  unfold memRead Readable
  cases hc : s.canonicalRange r.la.toNat (w / 8)
  · simp
  · cases hm : s.memFault r.la.toNat (w / 8) .read
    · simp [eq_comm]
    · simp

/-- A read that fails: not canonical, or the environment's verdict. -/
theorem memRead_error_cases (w : Nat) (r : MemRef) (s : State) (st : Stop) (h : memRead w r s = .error st) :
    (s.canonicalRange r.la.toNat (w / 8) = false ∧ st = .exc (if r.ssRel then .ss else .gp)) ∨
      (s.canonicalRange r.la.toNat (w / 8) = true ∧ s.memFault r.la.toNat (w / 8) .read = some st) := by
  unfold memRead at h
  cases hc : s.canonicalRange r.la.toNat (w / 8)
  · simp only [hc, Bool.not_false, if_true, Except.error.injEq] at h
    exact .inl ⟨rfl, h.symm⟩
  · refine .inr ⟨rfl, ?_⟩
    cases hm : s.memFault r.la.toNat (w / 8) .read
    · simp [hc, hm] at h
    · simpa [hc, hm] using h

/-- The bytes of an operand determine it. -/
theorem bytesAt_iff (s : State) (la : Nat) {w : Nat} (hw : w / 8 * 8 = w) (b : BitVec w) :
    BytesAt s la b ↔ b = s.mem.readLe w la := by
  constructor
  · intro h
    apply eq_of_lanes (by omega : 0 < 8) hw
    intro j hj
    rw [h j hj, lane_readLe w s.mem la j hj]
  · rintro rfl j hj
    exact lane_readLe w s.mem la j hj

/-! ### Addresses of 32 bits -/

/-- The low half of a sign-extended displacement (30_encoding.md R67). -/
theorem setWidth_signExtend (n : Nat) (d : BitVec n) : (d.signExtend 64).setWidth 32 = d.signExtend 32 := by
  apply BitVec.eq_of_getLsbD_eq
  intro i hi
  rw [BitVec.getLsbD_setWidth, BitVec.getLsbD_signExtend, BitVec.getLsbD_signExtend]
  simp [hi, show i < 64 by omega]

/-! ### The subtrahend -/

/-- The subtrahend of an MMX form is fetched exactly when it is a readable operand. -/
theorem mmxSource_ok_iff (e : LegacyEnc) (s : State) (b : BitVec 64) : mmxSource e s = .ok b ↔ MmxOperand e s b := by
  unfold mmxSource MmxOperand
  cases e.rm with
  | reg rm => simp [eq_comm]
  | mem m =>
    simp only [bytesAt_iff s _ (by decide : 64 / 8 * 8 = 64)]
    cases hr : memRead 64 (legacyRef e s m) s with
    | error st =>
      simp only [reduceCtorEq, false_iff, not_and]
      intro hread hb
      rw [(memRead_ok_iff 64 _ s b).2 ⟨hread, hb⟩] at hr
      cases hr
    | ok b' =>
      obtain ⟨hread, hb'⟩ := (memRead_ok_iff 64 _ s b').1 hr
      have hread' : Readable s (legacyRef e s m).la.toNat 8 := hread
      by_cases hal : s.alignmentCheck = true ∧ (legacyRef e s m).la.toNat % 8 ≠ 0
      · simp only [hal.1, Bool.true_and, bne_iff_ne, ne_eq, hal.2, not_false_iff, if_true]
        simp
      · have hcond : (s.alignmentCheck && (legacyRef e s m).la.toNat % 8 != 0) = false := by
          by_contra hc
          simp only [Bool.not_eq_false, Bool.and_eq_true, bne_iff_ne] at hc
          exact hal hc
        simp only [hcond, hread', ← hb', true_and]
        constructor
        · intro h
          refine ⟨by simpa [eq_comm] using h, fun ha => ?_⟩
          by_contra hne
          exact hal ⟨ha, hne⟩
        · rintro ⟨rfl, -⟩
          rfl

/-- The subtrahend of an XMM legacy form. -/
theorem xmmSource_ok_iff (e : LegacyEnc) (s : State) (b : BitVec 128) : xmmSource e s = .ok b ↔ XmmOperand e s b := by
  unfold xmmSource XmmOperand
  cases e.rm with
  | reg rm => simp [eq_comm]
  | mem m =>
    simp only [bytesAt_iff s _ (by decide : 128 / 8 * 8 = 128)]
    by_cases hal : (legacyRef e s m).la.toNat % 16 = 0
    · simp only [hal, bne_self_eq_false, Bool.false_eq_true, if_false, true_and]
      exact memRead_ok_iff 128 _ s b
    · simp [hal]

/-- A memory operand of a VEX or EVEX form. -/
theorem unalignedRead_ok_iff (w : Nat) (hw : w / 8 * 8 = w) (r : MemRef) (s : State) (b : BitVec w) :
    unalignedRead w r s = .ok b ↔
      Readable s r.la.toNat (w / 8) ∧ BytesAt s r.la.toNat b ∧ NoAlignmentFault s r.la.toNat (w / 8) := by
  unfold unalignedRead NoAlignmentFault
  rw [bytesAt_iff s _ hw]
  cases hr : memRead w r s with
  | error st =>
    simp only [reduceCtorEq, false_iff, not_and]
    intro hread hb
    rw [(memRead_ok_iff w _ s b).2 ⟨hread, hb⟩] at hr
    cases hr
  | ok b' =>
    obtain ⟨hread, hb'⟩ := (memRead_ok_iff w _ s b').1 hr
    simp only [hread, ← hb', true_and]
    cases hcond : (s.alignmentCheck && r.la.toNat % (w / 8) != 0 && freeAlignmentFault s.freeCount)
    · simp only [Bool.false_eq_true, if_false, Except.ok.injEq]
      constructor
      · rintro rfl
        refine ⟨rfl, fun ha hne => ?_⟩
        by_contra hf
        simp only [Bool.not_eq_false] at hf
        simp [ha, hne, hf] at hcond
      · rintro ⟨rfl, -⟩
        rfl
    · simp only [Bool.and_eq_true, bne_iff_ne] at hcond
      simp only [if_true, reduceCtorEq, false_iff, not_and]
      intro _ hno
      have := hno hcond.1.1 hcond.1.2
      simp [hcond.2] at this

/-- The subtrahend of a VEX form. -/
theorem vexSource_ok_iff (w : Nat) (hw : w / 8 * 8 = w) (e : Vex3Enc) (len : Nat) (s : State) (b : BitVec w) :
    vexSource w e len s = .ok b ↔ VexOperand e len s b := by
  unfold vexSource VexOperand
  cases e.rm with
  | reg rm => simp [eq_comm]
  | mem m => exact unalignedRead_ok_iff w hw _ s b

/-- The subtrahend of an EVEX form. -/
theorem evexSource_ok_iff (w : Nat) (hw : w / 8 * 8 = w) (e : EvexEnc) (s : State) (b : BitVec w) :
    evexSource w e s = .ok b ↔ EvexOperand e s b := by
  unfold evexSource EvexOperand
  cases e.rm with
  | reg rm => simp [eq_comm]
  | mem m => exact unalignedRead_ok_iff w hw _ s b

end Sys2Proof.Machine
end

