-- ==== Sys2Proof/Laws/Encoding.lean ====
section
/-! SUPPORT. The parts of the encoder and the decoder, each against the other: displacement, SIB, ModRM, prefix bytes; lengths.
The bit-level facts are closed questions over at most eight bits. -/

namespace Sys2Proof

/-! ### Displacements -/

/-- A concatenation as a number. -/
theorem toNat_append_add {n m : Nat} (x : BitVec n) (y : BitVec m) : (x ++ y).toNat = x.toNat * 2 ^ m + y.toNat := by
  rw [BitVec.toNat_append, ← Nat.shiftLeft_add_eq_or_of_lt y.isLt, Nat.shiftLeft_eq]

theorem readDisp32_bytes (d : BitVec 32) (rest : List Byte) : readDisp32 (disp32Bytes d ++ rest) = some d := by
  simp only [disp32Bytes, List.cons_append, readDisp32, Option.some.injEq]
  apply BitVec.eq_of_toNat_eq
  have := d.isLt
  simp only [toNat_append_add, BitVec.extractLsb'_toNat, Nat.shiftRight_eq_div_pow]
  omega

/-- What a 32-bit displacement was read from. -/
theorem bytes_of_readDisp32 (bs : List Byte) (d : BitVec 32) (h : readDisp32 bs = some d) : ∃ rest, bs = disp32Bytes d ++ rest := by
  match bs with
  | b0 :: b1 :: b2 :: b3 :: rest =>
    refine ⟨rest, ?_⟩
    simp only [readDisp32, Option.some.injEq] at h
    subst h
    have h0 := b0.isLt
    have h1 := b1.isLt
    have h2 := b2.isLt
    have h3 := b3.isLt
    simp only [disp32Bytes, List.cons_append, List.nil_append, List.cons.injEq, and_true]
    refine ⟨?_, ?_, ?_, ?_⟩ <;>
      (apply BitVec.eq_of_toNat_eq
       simp only [BitVec.extractLsb'_toNat, toNat_append_add, Nat.shiftRight_eq_div_pow]
       omega)
  | [] => simp [readDisp32] at h
  | [_] => simp [readDisp32] at h
  | [_, _] => simp [readDisp32] at h
  | [_, _, _] => simp [readDisp32] at h

theorem readDisp_bytes (d : Disp) (rest : List Byte) : readDisp d.md (d.bytes ++ rest) = some d := by
  cases d with
  | absent => rfl
  | d8 d => rfl
  | d32 d => simp [readDisp, Disp.md, Disp.bytes, readDisp32_bytes]

/-- What a displacement was read from. -/
theorem bytes_of_readDisp (md : BitVec 2) (bs : List Byte) (d : Disp) (hmd : md ≠ 3#2) (h : readDisp md bs = some d) :
    d.md = md ∧ ∃ rest, bs = d.bytes ++ rest := by
  have hcases : md = 0#2 ∨ md = 1#2 ∨ md = 2#2 := by clear h; revert hmd; revert md; decide
  rcases hcases with rfl | rfl | rfl
  · simp only [readDisp, beq_self_eq_true, if_true, Option.some.injEq] at h
    subst h
    exact ⟨rfl, bs, rfl⟩
  · cases bs with
    | nil => simp [readDisp] at h
    | cons b bs =>
      simp [readDisp] at h
      subst h
      exact ⟨rfl, bs, rfl⟩
  · simp [readDisp] at h
    obtain ⟨d', hd, rfl⟩ := h
    exact ⟨rfl, bytes_of_readDisp32 bs d' hd⟩

theorem disp_bytes_length (d : Disp) : d.bytes.length = d.len := by cases d <;> rfl

theorem disp_md_ne_three (d : Disp) : d.md ≠ 3#2 := by cases d <;> simp [Disp.md]

/-! ### ModRM and SIB fields -/

theorem modrmByte_md (md : BitVec 2) (reg rm : BitVec 3) : (modrmByte md reg rm).extractLsb' 6 2 = md := by
  revert md reg rm; decide

theorem modrmByte_reg (md : BitVec 2) (reg rm : BitVec 3) : (modrmByte md reg rm).extractLsb' 3 3 = reg := by
  revert md reg rm; decide

theorem modrmByte_rm (md : BitVec 2) (reg rm : BitVec 3) : (modrmByte md reg rm).extractLsb' 0 3 = rm := by
  revert md reg rm; decide

theorem modrmByte_of_fields (b : Byte) : modrmByte (b.extractLsb' 6 2) (b.extractLsb' 3 3) (b.extractLsb' 0 3) = b := by
  revert b; decide +kernel

/-- ModRM.r/m reads back, whatever follows. -/
theorem readModRM_bytes (reg : BitVec 3) (o : RegMem) (rest : List Byte) (h : o.wf = true) :
    readModRM (modrmBytes reg o ++ rest) = some (reg, o) := by
  match o with
  | .reg rm =>
    simp [modrmBytes, readModRM, modrmByte_md, modrmByte_reg, modrmByte_rm, readRegMem]
  | .mem (.indirect rm d) =>
    have h4 : rm ≠ 4#3 := by rintro rfl; simp [RegMem.wf, MemForm.wf] at h
    have h5 : ¬(d.md = 0#2 ∧ rm = 5#3) := by
      rintro ⟨hd, rfl⟩
      cases d <;> simp [RegMem.wf, MemForm.wf, Disp.md] at h hd
    have h3 := disp_md_ne_three d
    simp only [modrmBytes, List.cons_append, readModRM, modrmByte_md, modrmByte_reg, modrmByte_rm, readRegMem, beq_iff_eq,
      Bool.and_eq_true]
    rw [if_neg h3, if_neg h4, if_neg h5, readDisp_bytes]
    rfl
  | .mem (.ripRel d) =>
    simp [modrmBytes, readModRM, modrmByte_md, modrmByte_reg, modrmByte_rm, readRegMem, readDisp32_bytes]
  | .mem (.sib ss iii bbb d) =>
    have h5 : ¬(bbb = 5#3 ∧ d.md = 0#2) := by
      rintro ⟨rfl, hd⟩
      cases d <;> simp [RegMem.wf, MemForm.wf, Disp.md] at h hd
    have h3 := disp_md_ne_three d
    have hs : (ss ++ iii ++ bbb : BitVec 8) = modrmByte ss iii bbb := rfl
    simp only [modrmBytes, List.cons_append, readModRM, modrmByte_md, modrmByte_reg, modrmByte_rm, readRegMem, readSib, hs,
      beq_iff_eq, Bool.and_eq_true]
    rw [if_neg h3, if_pos trivial, if_neg h5, readDisp_bytes]
    rfl
  | .mem (.sibNoBase ss iii d) =>
    have hs : (ss ++ iii ++ 5#3 : BitVec 8) = modrmByte ss iii 5#3 := rfl
    simp [modrmBytes, readModRM, modrmByte_md, modrmByte_reg, modrmByte_rm, readRegMem, readSib, hs, readDisp32_bytes]

/-- What ModRM.r/m was read from. -/
theorem bytes_of_readModRM (bs : List Byte) (reg : BitVec 3) (o : RegMem) (h : readModRM bs = some (reg, o)) :
    o.wf = true ∧ ∃ rest, bs = modrmBytes reg o ++ rest := by
  cases bs with
  | nil => simp [readModRM] at h
  | cons b bs =>
    simp only [readModRM, Option.map_eq_some_iff, Prod.mk.injEq] at h
    obtain ⟨o', ho, hreg, rfl⟩ := h
    have hb := modrmByte_of_fields b
    rw [hreg] at hb
    generalize b.extractLsb' 6 2 = md at ho hb
    generalize b.extractLsb' 0 3 = rm at ho hb
    subst hb
    simp only [readRegMem, beq_iff_eq, Bool.and_eq_true] at ho
    split at ho
    · rename_i hmd
      simp only [Option.some.injEq] at ho
      subst ho hmd
      exact ⟨rfl, bs, rfl⟩
    · rename_i hmd
      split at ho
      · rename_i hrm
        subst hrm
        simp only [Option.map_eq_some_iff] at ho
        obtain ⟨m, hm, rfl⟩ := ho
        cases bs with
        | nil => simp [readSib] at hm
        | cons sb bs =>
          have hsb := modrmByte_of_fields sb
          simp only [readSib, beq_iff_eq, Bool.and_eq_true] at hm
          generalize sb.extractLsb' 6 2 = ss at hm hsb
          generalize sb.extractLsb' 3 3 = iii at hm hsb
          generalize sb.extractLsb' 0 3 = bbb at hm hsb
          subst hsb
          split at hm
          · rename_i h5
            obtain ⟨rfl, rfl⟩ := h5
            simp only [Option.map_eq_some_iff] at hm
            obtain ⟨d, hd, rfl⟩ := hm
            obtain ⟨rest, rfl⟩ := bytes_of_readDisp32 bs d hd
            exact ⟨rfl, rest, rfl⟩
          · rename_i h5
            simp only [Option.map_eq_some_iff] at hm
            obtain ⟨d, hd, rfl⟩ := hm
            obtain ⟨rfl, rest, rfl⟩ := bytes_of_readDisp md bs d hmd hd
            refine ⟨?_, rest, rfl⟩
            cases d <;> simp_all [RegMem.wf, MemForm.wf, Disp.md]
      · rename_i h4
        split at ho
        · rename_i h5
          obtain ⟨rfl, rfl⟩ := h5
          simp only [Option.map_eq_some_iff] at ho
          obtain ⟨d, hd, rfl⟩ := ho
          obtain ⟨rest, rfl⟩ := bytes_of_readDisp32 bs d hd
          exact ⟨rfl, rest, rfl⟩
        · rename_i h5
          simp only [Option.map_eq_some_iff] at ho
          obtain ⟨d, hd, rfl⟩ := ho
          obtain ⟨rfl, rest, rfl⟩ := bytes_of_readDisp md bs d hmd hd
          refine ⟨?_, rest, rfl⟩
          cases d <;> simp_all [RegMem.wf, MemForm.wf, Disp.md]

theorem modrmBytes_length (reg : BitVec 3) (o : RegMem) : (modrmBytes reg o).length = o.len := by
  match o with
  | .reg _ => rfl
  | .mem (.indirect _ d) => simp [modrmBytes, RegMem.len, disp_bytes_length]; omega
  | .mem (.ripRel _) => rfl
  | .mem (.sib _ _ _ d) => simp [modrmBytes, RegMem.len, disp_bytes_length]; omega
  | .mem (.sibNoBase _ _ _) => rfl

/-! ### Prefix bytes -/

theorem rexOfByte_byte (x : Rex) : rexOfByte x.byte = x := by
  obtain ⟨w, r, xx, b⟩ := x
  revert w r xx b; decide

theorem isRexByte_byte (x : Rex) : isRexByte x.byte = true := by
  obtain ⟨w, r, xx, b⟩ := x
  revert w r xx b; decide

/-- A REX byte is the byte of its fields. -/
theorem byte_of_rexOfByte (b : Byte) (h : isRexByte b = true) : (rexOfByte b).byte = b := by
  revert b; decide +kernel

@[simp] theorem pfxOfByte_byte (p : Pfx) : pfxOfByte p.byte = some p := by cases p <;> rfl
@[simp] theorem isRexByte_pfx (p : Pfx) : isRexByte p.byte = false := by cases p <;> rfl
@[simp] theorem isPrefixByte_pfx (p : Pfx) : isPrefixByte p.byte = true := by cases p <;> rfl
@[simp] theorem isUdPrefixByte_pfx (p : Pfx) : isUdPrefixByte p.byte = false := by cases p <;> rfl
@[simp] theorem isPrefixByte_rex (x : Rex) : isPrefixByte x.byte = true := by simp [isPrefixByte, isRexByte_byte]
@[simp] theorem isUdPrefixByte_rex (x : Rex) : isUdPrefixByte x.byte = false := by
  obtain ⟨w, r, xx, b⟩ := x
  revert w r xx b; decide

/-- An admitted prefix byte is the byte of its prefix. -/
theorem byte_of_pfxOfByte (b : Byte) (p : Pfx) (h : pfxOfByte b = some p) : p.byte = b := by
  revert b p; decide +kernel

/-- Prefixes read back. -/
theorem readPrefixes_bytes (ps : List Pfx) (rex : Option Rex) (h : pfxDistinct ps = true) :
    readPrefixes (ps.map Pfx.byte ++ rexBytes rex) = .ok (ps, rex) := by
  induction ps with
  | nil =>
    cases rex with
    | none => rfl
    | some x => simp [rexBytes, readPrefixes, isRexByte_byte, rexOfByte_byte]
  | cons p ps ih =>
    simp only [pfxDistinct, Bool.and_eq_true, Bool.not_eq_true'] at h
    rw [List.map_cons, List.cons_append, readPrefixes, isRexByte_pfx, pfxOfByte_byte]
    simp [ih h.2, h.1]

/-- What prefixes were read from. -/
theorem bytes_of_readPrefixes (bs : List Byte) (ps : List Pfx) (rex : Option Rex) (h : readPrefixes bs = .ok (ps, rex)) :
    pfxDistinct ps = true ∧ bs = ps.map Pfx.byte ++ rexBytes rex := by
  induction bs generalizing ps rex with
  | nil =>
    simp only [readPrefixes, Except.ok.injEq, Prod.mk.injEq] at h
    obtain ⟨rfl, rfl⟩ := h
    exact ⟨rfl, rfl⟩
  | cons b bs ih =>
    rw [readPrefixes] at h
    split at h
    · rename_i hr
      split at h
      · rename_i he
        simp only [Except.ok.injEq, Prod.mk.injEq] at h
        obtain ⟨rfl, rfl⟩ := h
        simp only [List.isEmpty_iff] at he
        subst he
        exact ⟨rfl, by simp [rexBytes, byte_of_rexOfByte b hr]⟩
      · simp at h
    · split at h
      · simp at h
      · rename_i p hp
        split at h
        · simp at h
        · rename_i ps' rex' hread
          split at h
          · simp at h
          · rename_i hany
            simp only [Except.ok.injEq, Prod.mk.injEq] at h
            obtain ⟨rfl, rfl⟩ := h
            obtain ⟨hd, rfl⟩ := ih ps' rex' hread
            refine ⟨?_, ?_⟩
            · simp only [pfxDistinct, Bool.and_eq_true, Bool.not_eq_true']
              exact ⟨by simpa using hany, hd⟩
            · simp [byte_of_pfxOfByte b p hp]

/-- The prefix bytes of an encoding end where its first other byte stands. -/
theorem takeWhile_prefixes (ps : List Byte) (b : Byte) (rest : List Byte) (hp : ∀ x ∈ ps, isPrefixByte x = true)
    (hb : isPrefixByte b = false) :
    (ps ++ b :: rest).takeWhile isPrefixByte = ps ∧ (ps ++ b :: rest).dropWhile isPrefixByte = b :: rest := by
  induction ps with
  | nil => simp [hb]
  | cons p ps ih =>
    have h1 := hp p (by simp)
    have h2 := ih (fun x hx => hp x (by simp [hx]))
    simp [h1, h2]

/-- Where the prefixes of a byte string end, its body is decoded. -/
theorem decode_prefixes (ps : List Byte) (b : Byte) (rest : List Byte) (hp : ∀ x ∈ ps, isPrefixByte x = true)
    (hb : isPrefixByte b = false) : decode (ps ++ b :: rest) = decodeBody ps (b :: rest) := by
  obtain ⟨h1, h2⟩ := takeWhile_prefixes ps b rest hp hb
  rw [decode, h1, h2]

theorem isPrefixByte_map (ps : List Pfx) : ∀ x ∈ ps.map Pfx.byte, isPrefixByte x = true := by
  intro x hx
  obtain ⟨p, -, rfl⟩ := List.mem_map.1 hx
  simp

/-- Admitted prefixes are no reason for #UD on a legacy form (R65). -/
theorem any_isUdPrefixByte_map (ps : List Pfx) (rex : Option Rex) :
    (ps.map Pfx.byte ++ rexBytes rex).any isUdPrefixByte = false := by
  cases rex <;> simp [rexBytes]

/-- Nor, without `66`, on a VEX or EVEX form (R75, R81). -/
theorem udBeforeVex_map (ps : List Pfx) (h : ps.contains .opSize = false) : udBeforeVex (ps.map Pfx.byte) = false := by
  simp only [udBeforeVex, List.any_map, List.any_eq_false]
  intro p hp
  simp only [List.contains_eq_any_beq, List.any_eq_false, beq_iff_eq] at h
  have := h p hp
  cases p <;> simp_all [Pfx.byte, isUdPrefixByte, isRexByte]

/-- Prefix bytes that are no reason for #UD before VEX or EVEX hold no REX and no `66`. -/
theorem readPrefixes_before_vex (bs : List Byte) (ps : List Pfx) (rex : Option Rex) (h : readPrefixes bs = .ok (ps, rex))
    (hu : udBeforeVex bs = false) : rex = none ∧ pfxNoOpSize ps = true := by
  obtain ⟨hd, rfl⟩ := bytes_of_readPrefixes _ _ _ h
  simp only [udBeforeVex, List.any_append, Bool.or_eq_false_iff] at hu
  constructor
  · cases rex with
    | none => rfl
    | some x => simp [rexBytes, isRexByte_byte] at hu
  · simp only [pfxNoOpSize, hd, Bool.true_and, Bool.not_eq_true', List.contains_eq_any_beq, List.any_eq_false]
    intro p hp heq
    simp only [beq_iff_eq] at heq
    subst heq
    have h66 := List.any_eq_false.1 hu.1 _ (List.mem_map_of_mem hp)
    simp [Pfx.byte] at h66

theorem isOpcode_iff (opc : Byte) : isOpcode opc = true ↔ opc = 0xE8#8 ∨ opc = 0xE9#8 := by simp [isOpcode]

/-! ### The fields of VEX and EVEX prefix bytes -/

/-- `v1` of a three-byte VEX prefix (R72). -/
theorem vex3_first (r x b : Bool) :
    let v : Byte := BitVec.ofBool (!r) ++ BitVec.ofBool (!x) ++ BitVec.ofBool (!b) ++ 1#5
    v.extractLsb' 0 5 = 1#5 ∧ v.getLsbD 7 = !r ∧ v.getLsbD 6 = !x ∧ v.getLsbD 5 = !b := by
  revert r x b; decide

/-- `v2` of a three-byte VEX prefix (R72). -/
theorem vex3_second (w l : Bool) (vvvv : BitVec 4) :
    let v : Byte := BitVec.ofBool w ++ ~~~vvvv ++ BitVec.ofBool l ++ 1#2
    v.extractLsb' 0 2 = 1#2 ∧ v.getLsbD 2 = l ∧ v.getLsbD 7 = w ∧ ~~~(v.extractLsb' 3 4) = vvvv := by
  revert w l vvvv; decide

/-- `P0` of an EVEX prefix (R76). -/
theorem evex_first (r x b rHi : Bool) :
    let p : Byte := BitVec.ofBool (!r) ++ BitVec.ofBool (!x) ++ BitVec.ofBool (!b) ++ BitVec.ofBool (!rHi) ++ 1#4
    p.extractLsb' 0 2 = 1#2 ∧ p.extractLsb' 2 2 = 0#2 ∧ p.getLsbD 7 = !r ∧ p.getLsbD 6 = !x ∧ p.getLsbD 5 = !b ∧
      p.getLsbD 4 = !rHi := by
  revert r x b rHi; decide

/-- `P1` of an EVEX prefix (R76). -/
theorem evex_second (w : Bool) (vvvv : BitVec 4) :
    let p : Byte := BitVec.ofBool w ++ ~~~vvvv ++ 1#1 ++ 1#2
    p.extractLsb' 0 2 = 1#2 ∧ p.getLsbD 2 = true ∧ p.getLsbD 7 = w ∧ ~~~(p.extractLsb' 3 4) = vvvv := by
  revert w vvvv; decide

/-- `P2` of an EVEX prefix (R76). -/
theorem evex_third (z vHi : Bool) (ll : BitVec 2) (aaa : BitVec 3) :
    let p : Byte := BitVec.ofBool z ++ ll ++ 0#1 ++ BitVec.ofBool (!vHi) ++ aaa
    p.getLsbD 4 = false ∧ p.getLsbD 7 = z ∧ p.extractLsb' 5 2 = ll ∧ p.getLsbD 3 = !vHi ∧ p.extractLsb' 0 3 = aaa := by
  revert z vHi ll aaa; decide

/-! ### Lengths -/

theorem regMem_len_bounds (o : RegMem) : 1 ≤ o.len ∧ o.len ≤ 6 := by
  rcases o with _ | (⟨_, (_ | _ | _)⟩ | _ | ⟨_, _, _, (_ | _ | _)⟩ | _) <;> simp [RegMem.len, Disp.len]

/-- Distinct prefixes: at most three, two without `66` (R65). -/
theorem pfxDistinct_length (ps : List Pfx) (h : pfxDistinct ps = true) :
    ps.length ≤ 3 ∧ (ps.contains .opSize = false → ps.length ≤ 2) := by
  rcases ps with _ | ⟨p, _ | ⟨q, _ | ⟨r, _ | ⟨t, ps⟩⟩⟩⟩
  · simp
  · simp
  · simp
  · revert h; cases p <;> cases q <;> cases r <;> simp [pfxDistinct, Pfx.group]
  · exfalso; revert h; cases p <;> cases q <;> cases r <;> cases t <;> simp [pfxDistinct, Pfx.group]

end Sys2Proof
end

