-- ==== Sys2Proof/Laws/State.lean ====
section
/-! SUPPORT. One lemma per field and update of the state, true by rfl, and the laws of the register accessors. -/

namespace Sys2Proof.Machine

/-! ### MM[i] <- x -/

@[simp] theorem setMm_x87High (s : State) (i : BitVec 3) (x : Word64) : (s.setMm i x).x87High = s.x87High := rfl
@[simp] theorem setMm_x87Tag (s : State) (i : BitVec 3) (x : Word64) : (s.setMm i x).x87Tag = s.x87Tag := rfl
@[simp] theorem setMm_x87Status (s : State) (i : BitVec 3) (x : Word64) : (s.setMm i x).x87Status = s.x87Status := rfl
@[simp] theorem setMm_v (s : State) (i : BitVec 3) (x : Word64) : (s.setMm i x).v = s.v := rfl
@[simp] theorem setMm_k (s : State) (i : BitVec 3) (x : Word64) : (s.setMm i x).k = s.k := rfl
@[simp] theorem setMm_gpr (s : State) (i : BitVec 3) (x : Word64) : (s.setMm i x).gpr = s.gpr := rfl
@[simp] theorem setMm_fsBase (s : State) (i : BitVec 3) (x : Word64) : (s.setMm i x).fsBase = s.fsBase := rfl
@[simp] theorem setMm_gsBase (s : State) (i : BitVec 3) (x : Word64) : (s.setMm i x).gsBase = s.gsBase := rfl
@[simp] theorem setMm_pc (s : State) (i : BitVec 3) (x : Word64) : (s.setMm i x).pc = s.pc := rfl
@[simp] theorem setMm_rflags (s : State) (i : BitVec 3) (x : Word64) : (s.setMm i x).rflags = s.rflags := rfl
@[simp] theorem setMm_mxcsr (s : State) (i : BitVec 3) (x : Word64) : (s.setMm i x).mxcsr = s.mxcsr := rfl
@[simp] theorem setMm_cr2 (s : State) (i : BitVec 3) (x : Word64) : (s.setMm i x).cr2 = s.cr2 := rfl
@[simp] theorem setMm_mem (s : State) (i : BitVec 3) (x : Word64) : (s.setMm i x).mem = s.mem := rfl
@[simp] theorem setMm_mode (s : State) (i : BitVec 3) (x : Word64) : (s.setMm i x).mode = s.mode := rfl
@[simp] theorem setMm_features (s : State) (i : BitVec 3) (x : Word64) : (s.setMm i x).features = s.features := rfl
@[simp] theorem setMm_enabled (s : State) (i : BitVec 3) (x : Word64) : (s.setMm i x).enabled = s.enabled := rfl
@[simp] theorem setMm_cpl (s : State) (i : BitVec 3) (x : Word64) : (s.setMm i x).cpl = s.cpl := rfl
@[simp] theorem setMm_vaWidth (s : State) (i : BitVec 3) (x : Word64) : (s.setMm i x).vaWidth = s.vaWidth := rfl
@[simp] theorem setMm_faultRules (s : State) (i : BitVec 3) (x : Word64) : (s.setMm i x).faultRules = s.faultRules := rfl
@[simp] theorem setMm_endAddr (s : State) (i : BitVec 3) (x : Word64) : (s.setMm i x).endAddr = s.endAddr := rfl
@[simp] theorem setMm_freeCount (s : State) (i : BitVec 3) (x : Word64) : (s.setMm i x).freeCount = s.freeCount := rfl

/-! ### V[i] <- x -/

@[simp] theorem setV_mm (s : State) (i : BitVec 5) (x : VecWord) : (s.setV i x).mm = s.mm := rfl
@[simp] theorem setV_x87High (s : State) (i : BitVec 5) (x : VecWord) : (s.setV i x).x87High = s.x87High := rfl
@[simp] theorem setV_x87Tag (s : State) (i : BitVec 5) (x : VecWord) : (s.setV i x).x87Tag = s.x87Tag := rfl
@[simp] theorem setV_x87Status (s : State) (i : BitVec 5) (x : VecWord) : (s.setV i x).x87Status = s.x87Status := rfl
@[simp] theorem setV_k (s : State) (i : BitVec 5) (x : VecWord) : (s.setV i x).k = s.k := rfl
@[simp] theorem setV_gpr (s : State) (i : BitVec 5) (x : VecWord) : (s.setV i x).gpr = s.gpr := rfl
@[simp] theorem setV_fsBase (s : State) (i : BitVec 5) (x : VecWord) : (s.setV i x).fsBase = s.fsBase := rfl
@[simp] theorem setV_gsBase (s : State) (i : BitVec 5) (x : VecWord) : (s.setV i x).gsBase = s.gsBase := rfl
@[simp] theorem setV_pc (s : State) (i : BitVec 5) (x : VecWord) : (s.setV i x).pc = s.pc := rfl
@[simp] theorem setV_rflags (s : State) (i : BitVec 5) (x : VecWord) : (s.setV i x).rflags = s.rflags := rfl
@[simp] theorem setV_mxcsr (s : State) (i : BitVec 5) (x : VecWord) : (s.setV i x).mxcsr = s.mxcsr := rfl
@[simp] theorem setV_cr2 (s : State) (i : BitVec 5) (x : VecWord) : (s.setV i x).cr2 = s.cr2 := rfl
@[simp] theorem setV_mem (s : State) (i : BitVec 5) (x : VecWord) : (s.setV i x).mem = s.mem := rfl
@[simp] theorem setV_mode (s : State) (i : BitVec 5) (x : VecWord) : (s.setV i x).mode = s.mode := rfl
@[simp] theorem setV_features (s : State) (i : BitVec 5) (x : VecWord) : (s.setV i x).features = s.features := rfl
@[simp] theorem setV_enabled (s : State) (i : BitVec 5) (x : VecWord) : (s.setV i x).enabled = s.enabled := rfl
@[simp] theorem setV_cpl (s : State) (i : BitVec 5) (x : VecWord) : (s.setV i x).cpl = s.cpl := rfl
@[simp] theorem setV_vaWidth (s : State) (i : BitVec 5) (x : VecWord) : (s.setV i x).vaWidth = s.vaWidth := rfl
@[simp] theorem setV_faultRules (s : State) (i : BitVec 5) (x : VecWord) : (s.setV i x).faultRules = s.faultRules := rfl
@[simp] theorem setV_endAddr (s : State) (i : BitVec 5) (x : VecWord) : (s.setV i x).endAddr = s.endAddr := rfl
@[simp] theorem setV_freeCount (s : State) (i : BitVec 5) (x : VecWord) : (s.setV i x).freeCount = s.freeCount := rfl

/-! ### V[i][127:0] <- r, the rest kept -/

@[simp] theorem writeXmmKeep_mm (s : State) (i : BitVec 5) (r : BitVec 128) : (s.writeXmmKeep i r).mm = s.mm := rfl
@[simp] theorem writeXmmKeep_x87High (s : State) (i : BitVec 5) (r : BitVec 128) : (s.writeXmmKeep i r).x87High = s.x87High := rfl
@[simp] theorem writeXmmKeep_x87Tag (s : State) (i : BitVec 5) (r : BitVec 128) : (s.writeXmmKeep i r).x87Tag = s.x87Tag := rfl
@[simp] theorem writeXmmKeep_x87Status (s : State) (i : BitVec 5) (r : BitVec 128) : (s.writeXmmKeep i r).x87Status = s.x87Status := rfl
@[simp] theorem writeXmmKeep_k (s : State) (i : BitVec 5) (r : BitVec 128) : (s.writeXmmKeep i r).k = s.k := rfl
@[simp] theorem writeXmmKeep_gpr (s : State) (i : BitVec 5) (r : BitVec 128) : (s.writeXmmKeep i r).gpr = s.gpr := rfl
@[simp] theorem writeXmmKeep_fsBase (s : State) (i : BitVec 5) (r : BitVec 128) : (s.writeXmmKeep i r).fsBase = s.fsBase := rfl
@[simp] theorem writeXmmKeep_gsBase (s : State) (i : BitVec 5) (r : BitVec 128) : (s.writeXmmKeep i r).gsBase = s.gsBase := rfl
@[simp] theorem writeXmmKeep_pc (s : State) (i : BitVec 5) (r : BitVec 128) : (s.writeXmmKeep i r).pc = s.pc := rfl
@[simp] theorem writeXmmKeep_rflags (s : State) (i : BitVec 5) (r : BitVec 128) : (s.writeXmmKeep i r).rflags = s.rflags := rfl
@[simp] theorem writeXmmKeep_mxcsr (s : State) (i : BitVec 5) (r : BitVec 128) : (s.writeXmmKeep i r).mxcsr = s.mxcsr := rfl
@[simp] theorem writeXmmKeep_cr2 (s : State) (i : BitVec 5) (r : BitVec 128) : (s.writeXmmKeep i r).cr2 = s.cr2 := rfl
@[simp] theorem writeXmmKeep_mem (s : State) (i : BitVec 5) (r : BitVec 128) : (s.writeXmmKeep i r).mem = s.mem := rfl
@[simp] theorem writeXmmKeep_mode (s : State) (i : BitVec 5) (r : BitVec 128) : (s.writeXmmKeep i r).mode = s.mode := rfl
@[simp] theorem writeXmmKeep_features (s : State) (i : BitVec 5) (r : BitVec 128) : (s.writeXmmKeep i r).features = s.features := rfl
@[simp] theorem writeXmmKeep_enabled (s : State) (i : BitVec 5) (r : BitVec 128) : (s.writeXmmKeep i r).enabled = s.enabled := rfl
@[simp] theorem writeXmmKeep_cpl (s : State) (i : BitVec 5) (r : BitVec 128) : (s.writeXmmKeep i r).cpl = s.cpl := rfl
@[simp] theorem writeXmmKeep_vaWidth (s : State) (i : BitVec 5) (r : BitVec 128) : (s.writeXmmKeep i r).vaWidth = s.vaWidth := rfl
@[simp] theorem writeXmmKeep_faultRules (s : State) (i : BitVec 5) (r : BitVec 128) : (s.writeXmmKeep i r).faultRules = s.faultRules := rfl
@[simp] theorem writeXmmKeep_endAddr (s : State) (i : BitVec 5) (r : BitVec 128) : (s.writeXmmKeep i r).endAddr = s.endAddr := rfl
@[simp] theorem writeXmmKeep_freeCount (s : State) (i : BitVec 5) (r : BitVec 128) : (s.writeXmmKeep i r).freeCount = s.freeCount := rfl

/-! ### V[i][w-1:0] <- r, the rest zeroed -/

@[simp] theorem writeVecZero_mm (s : State) (w : Nat) (i : BitVec 5) (r : BitVec w) : (s.writeVecZero w i r).mm = s.mm := rfl
@[simp] theorem writeVecZero_x87High (s : State) (w : Nat) (i : BitVec 5) (r : BitVec w) : (s.writeVecZero w i r).x87High = s.x87High := rfl
@[simp] theorem writeVecZero_x87Tag (s : State) (w : Nat) (i : BitVec 5) (r : BitVec w) : (s.writeVecZero w i r).x87Tag = s.x87Tag := rfl
@[simp] theorem writeVecZero_x87Status (s : State) (w : Nat) (i : BitVec 5) (r : BitVec w) : (s.writeVecZero w i r).x87Status = s.x87Status := rfl
@[simp] theorem writeVecZero_k (s : State) (w : Nat) (i : BitVec 5) (r : BitVec w) : (s.writeVecZero w i r).k = s.k := rfl
@[simp] theorem writeVecZero_gpr (s : State) (w : Nat) (i : BitVec 5) (r : BitVec w) : (s.writeVecZero w i r).gpr = s.gpr := rfl
@[simp] theorem writeVecZero_fsBase (s : State) (w : Nat) (i : BitVec 5) (r : BitVec w) : (s.writeVecZero w i r).fsBase = s.fsBase := rfl
@[simp] theorem writeVecZero_gsBase (s : State) (w : Nat) (i : BitVec 5) (r : BitVec w) : (s.writeVecZero w i r).gsBase = s.gsBase := rfl
@[simp] theorem writeVecZero_pc (s : State) (w : Nat) (i : BitVec 5) (r : BitVec w) : (s.writeVecZero w i r).pc = s.pc := rfl
@[simp] theorem writeVecZero_rflags (s : State) (w : Nat) (i : BitVec 5) (r : BitVec w) : (s.writeVecZero w i r).rflags = s.rflags := rfl
@[simp] theorem writeVecZero_mxcsr (s : State) (w : Nat) (i : BitVec 5) (r : BitVec w) : (s.writeVecZero w i r).mxcsr = s.mxcsr := rfl
@[simp] theorem writeVecZero_cr2 (s : State) (w : Nat) (i : BitVec 5) (r : BitVec w) : (s.writeVecZero w i r).cr2 = s.cr2 := rfl
@[simp] theorem writeVecZero_mem (s : State) (w : Nat) (i : BitVec 5) (r : BitVec w) : (s.writeVecZero w i r).mem = s.mem := rfl
@[simp] theorem writeVecZero_mode (s : State) (w : Nat) (i : BitVec 5) (r : BitVec w) : (s.writeVecZero w i r).mode = s.mode := rfl
@[simp] theorem writeVecZero_features (s : State) (w : Nat) (i : BitVec 5) (r : BitVec w) : (s.writeVecZero w i r).features = s.features := rfl
@[simp] theorem writeVecZero_enabled (s : State) (w : Nat) (i : BitVec 5) (r : BitVec w) : (s.writeVecZero w i r).enabled = s.enabled := rfl
@[simp] theorem writeVecZero_cpl (s : State) (w : Nat) (i : BitVec 5) (r : BitVec w) : (s.writeVecZero w i r).cpl = s.cpl := rfl
@[simp] theorem writeVecZero_vaWidth (s : State) (w : Nat) (i : BitVec 5) (r : BitVec w) : (s.writeVecZero w i r).vaWidth = s.vaWidth := rfl
@[simp] theorem writeVecZero_faultRules (s : State) (w : Nat) (i : BitVec 5) (r : BitVec w) : (s.writeVecZero w i r).faultRules = s.faultRules := rfl
@[simp] theorem writeVecZero_endAddr (s : State) (w : Nat) (i : BitVec 5) (r : BitVec w) : (s.writeVecZero w i r).endAddr = s.endAddr := rfl
@[simp] theorem writeVecZero_freeCount (s : State) (w : Nat) (i : BitVec 5) (r : BitVec w) : (s.writeVecZero w i r).freeCount = s.freeCount := rfl

/-! ### x87 state becomes unknown -/

@[simp] theorem havocX87_mm (s : State) : s.havocX87.mm = s.mm := rfl
@[simp] theorem havocX87_v (s : State) : s.havocX87.v = s.v := rfl
@[simp] theorem havocX87_k (s : State) : s.havocX87.k = s.k := rfl
@[simp] theorem havocX87_gpr (s : State) : s.havocX87.gpr = s.gpr := rfl
@[simp] theorem havocX87_fsBase (s : State) : s.havocX87.fsBase = s.fsBase := rfl
@[simp] theorem havocX87_gsBase (s : State) : s.havocX87.gsBase = s.gsBase := rfl
@[simp] theorem havocX87_pc (s : State) : s.havocX87.pc = s.pc := rfl
@[simp] theorem havocX87_rflags (s : State) : s.havocX87.rflags = s.rflags := rfl
@[simp] theorem havocX87_mxcsr (s : State) : s.havocX87.mxcsr = s.mxcsr := rfl
@[simp] theorem havocX87_cr2 (s : State) : s.havocX87.cr2 = s.cr2 := rfl
@[simp] theorem havocX87_mem (s : State) : s.havocX87.mem = s.mem := rfl
@[simp] theorem havocX87_mode (s : State) : s.havocX87.mode = s.mode := rfl
@[simp] theorem havocX87_features (s : State) : s.havocX87.features = s.features := rfl
@[simp] theorem havocX87_enabled (s : State) : s.havocX87.enabled = s.enabled := rfl
@[simp] theorem havocX87_cpl (s : State) : s.havocX87.cpl = s.cpl := rfl
@[simp] theorem havocX87_vaWidth (s : State) : s.havocX87.vaWidth = s.vaWidth := rfl
@[simp] theorem havocX87_faultRules (s : State) : s.havocX87.faultRules = s.faultRules := rfl
@[simp] theorem havocX87_endAddr (s : State) : s.havocX87.endAddr = s.endAddr := rfl
@[simp] theorem havocX87_freeCount (s : State) : s.havocX87.freeCount = s.freeCount := rfl

/-! ### The end of an instruction -/

@[simp] theorem retire_pc (s : State) (len : Nat) : (s.retire len).pc = s.nextPc len := rfl
@[simp] theorem retire_freeCount (s : State) (len : Nat) : (s.retire len).freeCount = s.freeCount + 1 := rfl
@[simp] theorem retire_mm (s : State) (len : Nat) : (s.retire len).mm = s.mm := rfl
@[simp] theorem retire_x87High (s : State) (len : Nat) : (s.retire len).x87High = s.x87High := rfl
@[simp] theorem retire_x87Tag (s : State) (len : Nat) : (s.retire len).x87Tag = s.x87Tag := rfl
@[simp] theorem retire_x87Status (s : State) (len : Nat) : (s.retire len).x87Status = s.x87Status := rfl
@[simp] theorem retire_v (s : State) (len : Nat) : (s.retire len).v = s.v := rfl
@[simp] theorem retire_k (s : State) (len : Nat) : (s.retire len).k = s.k := rfl
@[simp] theorem retire_gpr (s : State) (len : Nat) : (s.retire len).gpr = s.gpr := rfl
@[simp] theorem retire_fsBase (s : State) (len : Nat) : (s.retire len).fsBase = s.fsBase := rfl
@[simp] theorem retire_gsBase (s : State) (len : Nat) : (s.retire len).gsBase = s.gsBase := rfl
@[simp] theorem retire_rflags (s : State) (len : Nat) : (s.retire len).rflags = s.rflags := rfl
@[simp] theorem retire_mxcsr (s : State) (len : Nat) : (s.retire len).mxcsr = s.mxcsr := rfl
@[simp] theorem retire_cr2 (s : State) (len : Nat) : (s.retire len).cr2 = s.cr2 := rfl
@[simp] theorem retire_mem (s : State) (len : Nat) : (s.retire len).mem = s.mem := rfl
@[simp] theorem retire_mode (s : State) (len : Nat) : (s.retire len).mode = s.mode := rfl
@[simp] theorem retire_features (s : State) (len : Nat) : (s.retire len).features = s.features := rfl
@[simp] theorem retire_enabled (s : State) (len : Nat) : (s.retire len).enabled = s.enabled := rfl
@[simp] theorem retire_cpl (s : State) (len : Nat) : (s.retire len).cpl = s.cpl := rfl
@[simp] theorem retire_vaWidth (s : State) (len : Nat) : (s.retire len).vaWidth = s.vaWidth := rfl
@[simp] theorem retire_faultRules (s : State) (len : Nat) : (s.retire len).faultRules = s.faultRules := rfl
@[simp] theorem retire_endAddr (s : State) (len : Nat) : (s.retire len).endAddr = s.endAddr := rfl

/-! ### An exception -/

@[simp] theorem afterException_mm (s : State) (x : Exception) : (s.afterException x).mm = s.mm := by cases x <;> rfl
@[simp] theorem afterException_x87High (s : State) (x : Exception) : (s.afterException x).x87High = s.x87High := by cases x <;> rfl
@[simp] theorem afterException_x87Tag (s : State) (x : Exception) : (s.afterException x).x87Tag = s.x87Tag := by cases x <;> rfl
@[simp] theorem afterException_x87Status (s : State) (x : Exception) : (s.afterException x).x87Status = s.x87Status := by cases x <;> rfl
@[simp] theorem afterException_v (s : State) (x : Exception) : (s.afterException x).v = s.v := by cases x <;> rfl
@[simp] theorem afterException_k (s : State) (x : Exception) : (s.afterException x).k = s.k := by cases x <;> rfl
@[simp] theorem afterException_gpr (s : State) (x : Exception) : (s.afterException x).gpr = s.gpr := by cases x <;> rfl
@[simp] theorem afterException_fsBase (s : State) (x : Exception) : (s.afterException x).fsBase = s.fsBase := by cases x <;> rfl
@[simp] theorem afterException_gsBase (s : State) (x : Exception) : (s.afterException x).gsBase = s.gsBase := by cases x <;> rfl
@[simp] theorem afterException_pc (s : State) (x : Exception) : (s.afterException x).pc = s.pc := by cases x <;> rfl
@[simp] theorem afterException_rflags (s : State) (x : Exception) : (s.afterException x).rflags = s.rflags := by cases x <;> rfl
@[simp] theorem afterException_mxcsr (s : State) (x : Exception) : (s.afterException x).mxcsr = s.mxcsr := by cases x <;> rfl
@[simp] theorem afterException_mem (s : State) (x : Exception) : (s.afterException x).mem = s.mem := by cases x <;> rfl
@[simp] theorem afterException_mode (s : State) (x : Exception) : (s.afterException x).mode = s.mode := by cases x <;> rfl
@[simp] theorem afterException_features (s : State) (x : Exception) : (s.afterException x).features = s.features := by cases x <;> rfl
@[simp] theorem afterException_enabled (s : State) (x : Exception) : (s.afterException x).enabled = s.enabled := by cases x <;> rfl
@[simp] theorem afterException_cpl (s : State) (x : Exception) : (s.afterException x).cpl = s.cpl := by cases x <;> rfl
@[simp] theorem afterException_vaWidth (s : State) (x : Exception) : (s.afterException x).vaWidth = s.vaWidth := by cases x <;> rfl
@[simp] theorem afterException_faultRules (s : State) (x : Exception) : (s.afterException x).faultRules = s.faultRules := by cases x <;> rfl
@[simp] theorem afterException_endAddr (s : State) (x : Exception) : (s.afterException x).endAddr = s.endAddr := by cases x <;> rfl
@[simp] theorem afterException_freeCount (s : State) (x : Exception) : (s.afterException x).freeCount = s.freeCount := by cases x <;> rfl

/-! ### Accessors through the updates -/

@[simp] theorem getMm_setMm_same (s : State) (i : BitVec 3) (x : Word64) : (s.setMm i x).getMm i = x := by
  simp [State.getMm, State.setMm]

@[simp] theorem getMm_setMm_other (s : State) (i j : BitVec 3) (x : Word64) (h : j ≠ i) : (s.setMm i x).getMm j = s.getMm j := by
  have : i.toNat ≠ j.toNat := fun hn => h (BitVec.eq_of_toNat_eq hn.symm)
  simp [State.getMm, State.setMm, this]

@[simp] theorem getV_setV_same (s : State) (i : BitVec 5) (x : VecWord) : (s.setV i x).getV i = x := by
  simp [State.getV, State.setV]

@[simp] theorem getV_setV_other (s : State) (i j : BitVec 5) (x : VecWord) (h : j ≠ i) : (s.setV i x).getV j = s.getV j := by
  have : i.toNat ≠ j.toNat := fun hn => h (BitVec.eq_of_toNat_eq hn.symm)
  simp [State.getV, State.setV, this]

@[simp] theorem getV_setMm (s : State) (i : BitVec 3) (j : BitVec 5) (x : Word64) : (s.setMm i x).getV j = s.getV j := rfl
@[simp] theorem getMm_setV (s : State) (i : BitVec 5) (j : BitVec 3) (x : VecWord) : (s.setV i x).getMm j = s.getMm j := rfl
@[simp] theorem getMm_havocX87 (s : State) (i : BitVec 3) : s.havocX87.getMm i = s.getMm i := rfl
@[simp] theorem getV_havocX87 (s : State) (i : BitVec 5) : s.havocX87.getV i = s.getV i := rfl
@[simp] theorem getMm_retire (s : State) (len : Nat) (i : BitVec 3) : (s.retire len).getMm i = s.getMm i := rfl
@[simp] theorem getV_retire (s : State) (len : Nat) (i : BitVec 5) : (s.retire len).getV i = s.getV i := rfl
@[simp] theorem nextPc_setMm (s : State) (i : BitVec 3) (x : Word64) (len : Nat) : (s.setMm i x).nextPc len = s.nextPc len := rfl
@[simp] theorem nextPc_havocX87 (s : State) (len : Nat) : s.havocX87.nextPc len = s.nextPc len := rfl
@[simp] theorem nextPc_setV (s : State) (i : BitVec 5) (x : VecWord) (len : Nat) : (s.setV i x).nextPc len = s.nextPc len := rfl
@[simp] theorem nextPc_writeXmmKeep (s : State) (i : BitVec 5) (r : BitVec 128) (len : Nat) : (s.writeXmmKeep i r).nextPc len = s.nextPc len := rfl
@[simp] theorem nextPc_writeVecZero (s : State) (w : Nat) (i : BitVec 5) (r : BitVec w) (len : Nat) : (s.writeVecZero w i r).nextPc len = s.nextPc len := rfl
@[simp] theorem getMm_writeXmmKeep (s : State) (i : BitVec 5) (r : BitVec 128) (j : BitVec 3) : (s.writeXmmKeep i r).getMm j = s.getMm j := rfl
@[simp] theorem getMm_writeVecZero (s : State) (w : Nat) (i : BitVec 5) (r : BitVec w) (j : BitVec 3) : (s.writeVecZero w i r).getMm j = s.getMm j := rfl

/-- A legacy write keeps the bits above 127 (10_state.md R23). -/
theorem getV_writeXmmKeep_same (s : State) (i : BitVec 5) (r : BitVec 128) :
    (s.writeXmmKeep i r).getV i = (s.getV i).extractLsb' 128 384 ++ r := by
  simp [State.writeXmmKeep]

@[simp] theorem getV_writeXmmKeep_other (s : State) (i j : BitVec 5) (r : BitVec 128) (h : j ≠ i) :
    (s.writeXmmKeep i r).getV j = s.getV j := by
  simp [State.writeXmmKeep, h]

/-- A VEX or EVEX write zeroes the bits above the operand (10_state.md R23). -/
theorem getV_writeVecZero_same (s : State) (w : Nat) (i : BitVec 5) (r : BitVec w) :
    (s.writeVecZero w i r).getV i = r.setWidth 512 := by
  simp [State.writeVecZero]

@[simp] theorem getV_writeVecZero_other (s : State) (w : Nat) (i j : BitVec 5) (r : BitVec w) (h : j ≠ i) :
    (s.writeVecZero w i r).getV j = s.getV j := by
  simp [State.writeVecZero, h]

@[simp] theorem readVec_retire (s : State) (len w : Nat) (i : BitVec 5) : (s.retire len).readVec w i = s.readVec w i := rfl

/-- What a legacy form wrote is read back. -/
theorem readVec_writeXmmKeep_same (s : State) (i : BitVec 5) (r : BitVec 128) : (s.writeXmmKeep i r).readVec 128 i = r := by
  apply BitVec.eq_of_getLsbD_eq
  intro j hj
  simp only [State.readVec, getV_writeXmmKeep_same, BitVec.getLsbD_setWidth, BitVec.getLsbD_append]
  simp [hj]

/-- What a VEX or EVEX form wrote is read back. -/
theorem readVec_writeVecZero_same (s : State) (w : Nat) (hw : w ≤ 512) (i : BitVec 5) (r : BitVec w) :
    (s.writeVecZero w i r).readVec w i = r := by
  rw [State.readVec, getV_writeVecZero_same, BitVec.setWidth_setWidth_of_le _ hw, BitVec.setWidth_eq]

/-- The bits above 127 after a legacy write (10_state.md R23). -/
theorem upper_writeXmmKeep_same (s : State) (i : BitVec 5) (r : BitVec 128) :
    ((s.writeXmmKeep i r).getV i).extractLsb' 128 384 = (s.getV i).extractLsb' 128 384 := by
  rw [getV_writeXmmKeep_same]
  apply BitVec.eq_of_getLsbD_eq
  intro j hj
  simp only [BitVec.getLsbD_extractLsb', BitVec.getLsbD_append]
  simp [hj]

/-- The same, bit by bit. -/
theorem upper_bit_writeXmmKeep_same (s : State) (i : BitVec 5) (r : BitVec 128) (j : Nat) (hj : 128 ≤ j) :
    ((s.writeXmmKeep i r).getV i).getLsbD j = (s.getV i).getLsbD j := by
  rw [getV_writeXmmKeep_same]
  simp only [BitVec.getLsbD_append, BitVec.getLsbD_extractLsb']
  rw [if_neg (by omega), Nat.add_sub_cancel' hj]
  by_cases h : j < 512
  · simp [show j - 128 < 384 by omega]
  · rw [BitVec.getLsbD_of_ge _ _ (by omega : 512 ≤ j), Bool.and_false]

/-- The bits above the operand after a VEX or EVEX write (10_state.md R23). -/
theorem upper_writeVecZero_same (s : State) (w : Nat) (i : BitVec 5) (r : BitVec w) (j : Nat) (hj : w ≤ j) :
    ((s.writeVecZero w i r).getV i).getLsbD j = false := by
  rw [getV_writeVecZero_same, BitVec.getLsbD_setWidth, BitVec.getLsbD_of_ge r j hj, Bool.and_false]

/-- pc advances by the length wherever pc + len is an address (10_state.md R27). -/
theorem nextPc_of_lt (s : State) (len : Nat) (h : s.pc.toNat + len < 2 ^ 64) : s.nextPc len = s.pc + BitVec.ofNat 64 len := by
  simp only [State.nextPc, if_pos h]

end Sys2Proof.Machine
end

