-- ==== Sys2Proof/Laws/Exec.lean ====
section
/-! SUPPORT. What an instruction can do, said once: its gate, then for each family every outcome and exactly when it completes;
then the same of a step. -/

namespace Sys2Proof.Machine

/-! ### Gates -/

theorem mmxGate_none_iff (s : State) : mmxGate s = none ↔ MmxReady s := by
  unfold mmxGate MmxReady State.mmxUsable
  cases s.features.mmx <;> cases s.enabled.cr0Em <;> cases s.enabled.cr0Ts <;> cases s.enabled.x87ExceptionPending <;> simp

theorem vectorGate_none_iff (usable : Bool) (s : State) :
    vectorGate usable s = none ↔ usable = true ∧ s.enabled.cr0Ts = false := by
  unfold vectorGate
  cases usable <;> cases s.enabled.cr0Ts <;> simp

theorem xmmGate_none_iff (s : State) : vectorGate s.sseUsable s = none ↔ XmmReady s := by
  rw [vectorGate_none_iff]
  unfold XmmReady State.sseUsable
  cases s.features.sse2 <;> cases s.enabled.cr0Em <;> cases s.enabled.cr4Osfxsr <;> simp

theorem vexGate_none_iff (l : Bool) (s : State) :
    vectorGate (s.vexUsable l) s = none ↔ if l then Vex256Ready s else Vex128Ready s := by
  rw [vectorGate_none_iff]
  unfold Vex256Ready Vex128Ready AvxReady State.vexUsable State.avxEnabled
  cases l <;> simp [and_assoc]

theorem evexGate_none_iff (vl : VecLen) (s : State) : vectorGate (s.evexUsable vl) s = none ↔ EvexReady s vl := by
  rw [vectorGate_none_iff]
  unfold EvexReady Avx512Ready AvxReady State.evexUsable State.avx512Enabled State.avxEnabled State.evexFeature
  cases vl <;> simp <;> tauto

/-- What the MMX gate can raise. -/
theorem mmxGate_cases (s : State) (x : Exception) (h : mmxGate s = some x) :
    x = .ud ∨ x = .nm ∨ (x = .mf ∧ s.enabled.x87ExceptionPending = true) := by
  unfold mmxGate at h
  split at h
  · exact .inl (Option.some.inj h).symm
  · split at h
    · exact .inr (.inl (Option.some.inj h).symm)
    · split at h
      · exact .inr (.inr ⟨(Option.some.inj h).symm, ‹_›⟩)
      · cases h

/-- What the other gates can raise. -/
theorem vectorGate_cases (usable : Bool) (s : State) (x : Exception) (h : vectorGate usable s = some x) : x = .ud ∨ x = .nm := by
  unfold vectorGate at h
  split at h
  · exact .inl (Option.some.inj h).symm
  · split at h
    · exact .inr (Option.some.inj h).symm
    · cases h

/-! ### The families: every outcome -/

theorem execMmx_cases {n : Nat} (sub : BitVec n → BitVec n → BitVec n) (e : LegacyEnc) (s : State) :
    (∃ x, mmxGate s = some x ∧ execMmx sub e s = raise x s) ∨
    (MmxReady s ∧ ∃ st, mmxSource e s = .error st ∧ execMmx sub e s = stop st s) ∨
    (MmxReady s ∧ ∃ b, MmxOperand e s b ∧
      execMmx sub e s = .next (((s.setMm e.reg (psubs sub (s.getMm e.reg) b)).havocX87).retire e.len)) := by
  cases hg : mmxGate s with
  | some x => exact .inl ⟨x, rfl, by simp [execMmx, hg]⟩
  | none =>
    have hr := (mmxGate_none_iff s).1 hg
    cases hs : mmxSource e s with
    | error st => exact .inr (.inl ⟨hr, st, rfl, by simp [execMmx, hg, hs]⟩)
    | ok b => exact .inr (.inr ⟨hr, b, (mmxSource_ok_iff e s b).1 hs, by simp [execMmx, hg, hs]⟩)

theorem execXmm_cases {n : Nat} (sub : BitVec n → BitVec n → BitVec n) (e : LegacyEnc) (s : State) :
    (∃ x, vectorGate s.sseUsable s = some x ∧ execXmm sub e s = raise x s) ∨
    (XmmReady s ∧ ∃ st, xmmSource e s = .error st ∧ execXmm sub e s = stop st s) ∨
    (XmmReady s ∧ ∃ b, XmmOperand e s b ∧
      execXmm sub e s = .next ((s.writeXmmKeep (xmmNum (rexR e.rex) e.reg)
        (psubs sub (s.readVec 128 (xmmNum (rexR e.rex) e.reg)) b)).retire e.len)) := by
  cases hg : vectorGate s.sseUsable s with
  | some x => exact .inl ⟨x, rfl, by simp [execXmm, hg]⟩
  | none =>
    have hr := (xmmGate_none_iff s).1 hg
    cases hs : xmmSource e s with
    | error st => exact .inr (.inl ⟨hr, st, rfl, by simp [execXmm, hg, hs]⟩)
    | ok b => exact .inr (.inr ⟨hr, b, (xmmSource_ok_iff e s b).1 hs, by simp [execXmm, hg, hs]⟩)

theorem vexWidth_bytes (l : Bool) : vexWidth l / 8 * 8 = vexWidth l := by cases l <;> rfl

theorem execVex_cases {n : Nat} (sub : BitVec n → BitVec n → BitVec n) (l : Bool) (e : Vex3Enc) (len : Nat) (s : State) :
    (∃ x, vectorGate (s.vexUsable l) s = some x ∧ execVex sub l e len s = raise x s) ∨
    ((if l then Vex256Ready s else Vex128Ready s) ∧ ∃ st, vexSource (vexWidth l) e len s = .error st ∧
      execVex sub l e len s = stop st s) ∨
    ((if l then Vex256Ready s else Vex128Ready s) ∧ ∃ b : BitVec (vexWidth l), VexOperand e len s b ∧
      execVex sub l e len s = .next ((s.writeVecZero (vexWidth l) (xmmNum e.r e.reg)
        (psubs sub (s.readVec (vexWidth l) (vvvvNum e.vvvv)) b)).retire len)) := by
  cases hg : vectorGate (s.vexUsable l) s with
  | some x => exact .inl ⟨x, rfl, by simp [execVex, hg]⟩
  | none =>
    have hr := (vexGate_none_iff l s).1 hg
    cases hs : vexSource (vexWidth l) e len s with
    | error st => exact .inr (.inl ⟨hr, st, rfl, by simp [execVex, hg, hs]⟩)
    | ok b => exact .inr (.inr ⟨hr, b, (vexSource_ok_iff _ (vexWidth_bytes l) e len s b).1 hs, by simp [execVex, hg, hs]⟩)

theorem vecLen_bytes (vl : VecLen) : vl.bits / 8 * 8 = vl.bits := by cases vl <;> rfl

theorem execEvex_cases {n : Nat} (sub : BitVec n → BitVec n → BitVec n) (vl : VecLen) (e : EvexEnc) (s : State) :
    (∃ x, vectorGate (s.evexUsable vl) s = some x ∧ execEvex sub vl e s = raise x s) ∨
    (EvexReady s vl ∧ ∃ st, evexSource vl.bits e s = .error st ∧ execEvex sub vl e s = stop st s) ∨
    (EvexReady s vl ∧ ∃ b : BitVec vl.bits, EvexOperand e s b ∧
      execEvex sub vl e s = .next ((s.writeVecZero vl.bits (zmmNum e.rHi e.r e.reg)
        (psubsMask sub (s.readVec vl.bits (zmmNum e.rHi e.r e.reg)) (s.readVec vl.bits (vvvvHiNum e.vHi e.vvvv)) b
          (evexMask e s) e.z)).retire e.len)) := by
  cases hg : vectorGate (s.evexUsable vl) s with
  | some x => exact .inl ⟨x, rfl, by simp [execEvex, hg]⟩
  | none =>
    have hr := (evexGate_none_iff vl s).1 hg
    cases hs : evexSource vl.bits e s with
    | error st => exact .inr (.inl ⟨hr, st, rfl, by simp [execEvex, hg, hs]⟩)
    | ok b => exact .inr (.inr ⟨hr, b, (evexSource_ok_iff _ (vecLen_bytes vl) e s b).1 hs, by simp [execEvex, hg, hs]⟩)

/-! ### The families: completion -/

theorem execMmx_completes {n : Nat} (sub : BitVec n → BitVec n → BitVec n) (e : LegacyEnc) (s : State) (b : BitVec 64)
    (hr : MmxReady s) (hb : MmxOperand e s b) :
    execMmx sub e s = .next (((s.setMm e.reg (psubs sub (s.getMm e.reg) b)).havocX87).retire e.len) := by
  simp [execMmx, (mmxGate_none_iff s).2 hr, (mmxSource_ok_iff e s b).2 hb]

theorem execXmm_completes {n : Nat} (sub : BitVec n → BitVec n → BitVec n) (e : LegacyEnc) (s : State) (b : BitVec 128)
    (hr : XmmReady s) (hb : XmmOperand e s b) :
    execXmm sub e s = .next ((s.writeXmmKeep (xmmNum (rexR e.rex) e.reg)
      (psubs sub (s.readVec 128 (xmmNum (rexR e.rex) e.reg)) b)).retire e.len) := by
  simp [execXmm, (xmmGate_none_iff s).2 hr, (xmmSource_ok_iff e s b).2 hb]

theorem execVex_completes {n : Nat} (sub : BitVec n → BitVec n → BitVec n) (l : Bool) (e : Vex3Enc) (len : Nat) (s : State)
    (b : BitVec (vexWidth l)) (hr : if l then Vex256Ready s else Vex128Ready s) (hb : VexOperand e len s b) :
    execVex sub l e len s = .next ((s.writeVecZero (vexWidth l) (xmmNum e.r e.reg)
      (psubs sub (s.readVec (vexWidth l) (vvvvNum e.vvvv)) b)).retire len) := by
  simp [execVex, (vexGate_none_iff l s).2 hr, (vexSource_ok_iff _ (vexWidth_bytes l) e len s b).2 hb]

theorem execEvex_completes {n : Nat} (sub : BitVec n → BitVec n → BitVec n) (vl : VecLen) (e : EvexEnc) (s : State)
    (b : BitVec vl.bits) (hr : EvexReady s vl) (hb : EvexOperand e s b) :
    execEvex sub vl e s = .next ((s.writeVecZero vl.bits (zmmNum e.rHi e.r e.reg)
      (psubsMask sub (s.readVec vl.bits (zmmNum e.rHi e.r e.reg)) (s.readVec vl.bits (vvvvHiNum e.vHi e.vvvv)) b
        (evexMask e s) e.z)).retire e.len) := by
  simp [execEvex, (evexGate_none_iff vl s).2 hr, (evexSource_ok_iff _ (vecLen_bytes vl) e s b).2 hb]

/-! ### A stop leaves nothing behind -/

/-- A stopped instruction has no next state. -/
theorem stop_ne_next (st : Stop) (s t : State) : stop st s ≠ .next t := by
  cases st with
  | exc x => simp [stop, raise]
  | refuse r => simp [stop]

/-- What a stop raises is what stopped it. -/
theorem stop_fault (st : Stop) (s t : State) (x : Exception) (h : stop st s = .fault (.raised x t)) :
    st = .exc x ∧ t = s.afterException x := by
  cases st with
  | exc y =>
    simp only [stop, raise, Host.Outcome.fault.injEq, Fault.raised.injEq] at h
    obtain ⟨rfl, rfl⟩ := h
    exact ⟨rfl, rfl⟩
  | refuse r => simp [stop] at h

/-- The registers two writes of a form touch: MM[d], or V[d] with the bits above kept or zeroed. -/
theorem exec_next_cases (i : Instr) (s t : State) (h : exec i s = .next t) :
    (∃ d r, MmxReady s ∧ t = ((s.setMm d r).havocX87).retire i.len) ∨
    (∃ hi reg r, XmmReady s ∧ t = (s.writeXmmKeep (xmmNum hi reg) r).retire i.len) ∨
    (∃ l hi reg r, (if l = true then Vex256Ready s else Vex128Ready s) ∧
      t = (s.writeVecZero (vexWidth l) (xmmNum hi reg) r).retire i.len) ∨
    (∃ vl d r, EvexReady s vl ∧ t = (s.writeVecZero (VecLen.bits vl) d r).retire i.len) := by
  have mmx : ∀ {n : Nat} (sub : BitVec n → BitVec n → BitVec n) (e : LegacyEnc), execMmx sub e s = .next t →
      ∃ d r, MmxReady s ∧ t = ((s.setMm d r).havocX87).retire e.len := by
    intro n sub e h
    obtain ⟨x, -, hx⟩ | ⟨-, st, -, hst⟩ | ⟨hr, b, -, ht⟩ := execMmx_cases sub e s
    · rw [hx] at h; cases h
    · rw [hst] at h; exact absurd h (stop_ne_next st s t)
    · rw [ht, Host.Outcome.next.injEq] at h; exact ⟨_, _, hr, h.symm⟩
  have xmm : ∀ {n : Nat} (sub : BitVec n → BitVec n → BitVec n) (e : LegacyEnc), execXmm sub e s = .next t →
      ∃ hi reg r, XmmReady s ∧ t = (s.writeXmmKeep (xmmNum hi reg) r).retire e.len := by
    intro n sub e h
    obtain ⟨x, -, hx⟩ | ⟨-, st, -, hst⟩ | ⟨hr, b, -, ht⟩ := execXmm_cases sub e s
    · rw [hx] at h; cases h
    · rw [hst] at h; exact absurd h (stop_ne_next st s t)
    · rw [ht, Host.Outcome.next.injEq] at h; exact ⟨_, _, _, hr, h.symm⟩
  have vex : ∀ {n : Nat} (sub : BitVec n → BitVec n → BitVec n) (l : Bool) (e : Vex3Enc) (len : Nat),
      execVex sub l e len s = .next t →
      ∃ l hi reg r, (if l = true then Vex256Ready s else Vex128Ready s) ∧
        t = (s.writeVecZero (vexWidth l) (xmmNum hi reg) r).retire len := by
    intro n sub l e len h
    obtain ⟨x, -, hx⟩ | ⟨-, st, -, hst⟩ | ⟨hr, b, -, ht⟩ := execVex_cases sub l e len s
    · rw [hx] at h; cases h
    · rw [hst] at h; exact absurd h (stop_ne_next st s t)
    · rw [ht, Host.Outcome.next.injEq] at h; exact ⟨l, _, _, _, hr, h.symm⟩
  have evex : ∀ {n : Nat} (sub : BitVec n → BitVec n → BitVec n) (vl : VecLen) (e : EvexEnc), execEvex sub vl e s = .next t →
      ∃ vl d r, EvexReady s vl ∧ t = (s.writeVecZero (VecLen.bits vl) d r).retire e.len := by
    intro n sub vl e h
    obtain ⟨x, -, hx⟩ | ⟨-, st, -, hst⟩ | ⟨hr, b, -, ht⟩ := execEvex_cases sub vl e s
    · rw [hx] at h; cases h
    · rw [hst] at h; exact absurd h (stop_ne_next st s t)
    · rw [ht, Host.Outcome.next.injEq] at h; exact ⟨vl, _, _, hr, h.symm⟩
  cases i with
  | psubsbMm e => exact .inl (mmx subSB e h)
  | psubswMm e => exact .inl (mmx subSW e h)
  | psubsbXmm e => exact .inr (.inl (xmm subSB e h))
  | psubswXmm e => exact .inr (.inl (xmm subSW e h))
  | vpsubsbXmmVex3 e => exact .inr (.inr (.inl (vex subSB false e e.len h)))
  | vpsubsbXmmVex2 e => exact .inr (.inr (.inl (vex subSB false (vex2Fields e) e.len h)))
  | vpsubswXmmVex3 e => exact .inr (.inr (.inl (vex subSW false e e.len h)))
  | vpsubswXmmVex2 e => exact .inr (.inr (.inl (vex subSW false (vex2Fields e) e.len h)))
  | vpsubsbYmmVex3 e => exact .inr (.inr (.inl (vex subSB true e e.len h)))
  | vpsubsbYmmVex2 e => exact .inr (.inr (.inl (vex subSB true (vex2Fields e) e.len h)))
  | vpsubswYmmVex3 e => exact .inr (.inr (.inl (vex subSW true e e.len h)))
  | vpsubswYmmVex2 e => exact .inr (.inr (.inl (vex subSW true (vex2Fields e) e.len h)))
  | vpsubsbXmmEvex e => exact .inr (.inr (.inr (evex subSB .vl128 e h)))
  | vpsubsbYmmEvex e => exact .inr (.inr (.inr (evex subSB .vl256 e h)))
  | vpsubsbZmmEvex e => exact .inr (.inr (.inr (evex subSB .vl512 e h)))
  | vpsubswXmmEvex e => exact .inr (.inr (.inr (evex subSW .vl128 e h)))
  | vpsubswYmmEvex e => exact .inr (.inr (.inr (evex subSW .vl256 e h)))
  | vpsubswZmmEvex e => exact .inr (.inr (.inr (evex subSW .vl512 e h)))

/-- A step that answers a next state ran an instruction. -/
theorem step_next_exec (s t : State) (h : step s = .next t) : ∃ i, decode s.fetch.1 = .instr i ∧ exec i s = .next t := by
  unfold step at h
  split at h
  · cases hd : decode s.fetch.1 with
    | instr i => rw [hd] at h; exact ⟨i, rfl, h⟩
    | invalid => rw [hd] at h; cases h
    | refused why => rw [hd] at h; cases h
    | truncated =>
      rw [hd] at h
      simp only [stepDecoded, stepTruncated] at h
      split at h
      · exact absurd h (stop_ne_next _ s t)
      · cases h
  · cases h

end Sys2Proof.Machine
end

