-- ==== Sys2Proof/Laws/Fetch.lean ====
section
/-! SUPPORT. Fetching: bytes that can be fetched are fetched. -/

namespace Sys2Proof.Machine

/-- A fetch long enough begins with the bytes that can be fetched at its address. -/
theorem fetchFrom_covers (s : State) (bs : List Byte) (a n : Nat) (hn : bs.length ≤ n)
    (h : ∀ k (hk : k < bs.length), s.fetchStop (a + k) = none ∧ s.mem.read (a + k) = bs[k]) :
    ∃ rest, (s.fetchFrom a n).1 = bs ++ rest := by
  induction bs generalizing a n with
  | nil => exact ⟨_, rfl⟩
  | cons b bs ih =>
    cases n with
    | zero => simp at hn
    | succ n =>
      have h0 := h 0 (by simp)
      simp only [Nat.add_zero, List.getElem_cons_zero] at h0
      obtain ⟨rest, hr⟩ := ih (a + 1) n (by simpa using hn) (fun k hk => by
        have hk' := h (k + 1) (by simpa using hk)
        rw [show a + 1 + k = a + (k + 1) by omega]
        simpa using hk')
      exact ⟨rest, by simp only [State.fetchFrom, h0.1, h0.2, hr, List.cons_append]⟩

/-- A fetch that runs into a byte it cannot have gives the bytes before it, and why it stopped. -/
theorem fetchFrom_stopped (s : State) (a n k : Nat) (st : Stop) (hk : k < n) (h : ∀ j, j < k → s.fetchStop (a + j) = none)
    (hs : s.fetchStop (a + k) = some st) :
    s.fetchFrom a n = ((List.range k).map (fun j => s.mem.read (a + j)), some st) := by
  induction k generalizing a n with
  | zero =>
    obtain ⟨n, rfl⟩ : ∃ m, n = m + 1 := ⟨n - 1, by omega⟩
    rw [Nat.add_zero] at hs
    simp [State.fetchFrom, hs]
  | succ k ih =>
    obtain ⟨n, rfl⟩ : ∃ m, n = m + 1 := ⟨n - 1, by omega⟩
    have h0 := h 0 (by omega)
    rw [Nat.add_zero] at h0
    have hr := ih (a + 1) n (by omega)
      (fun j hj => by rw [show a + 1 + j = a + (j + 1) by omega]; exact h (j + 1) (by omega))
      (by rw [show a + 1 + k = a + (k + 1) by omega]; exact hs)
    simp only [State.fetchFrom, h0, hr, List.range_succ_eq_map, List.map_cons, List.map_map, Nat.add_zero, Prod.mk.injEq,
      List.cons.injEq, true_and, and_true]
    exact List.map_congr_left fun j _ => by simp only [Function.comp_apply, Nat.succ_eq_add_one]; congr 1; omega

/-- A fetch that nothing stops gives all its bytes. -/
theorem fetchFrom_all (s : State) (a n : Nat) (h : ∀ j, j < n → s.fetchStop (a + j) = none) :
    s.fetchFrom a n = ((List.range n).map (fun j => s.mem.read (a + j)), none) := by
  induction n generalizing a with
  | zero => rfl
  | succ n ih =>
    have h0 := h 0 (by omega)
    rw [Nat.add_zero] at h0
    have hr := ih (a + 1) (fun j hj => by rw [show a + 1 + j = a + (j + 1) by omega]; exact h (j + 1) (by omega))
    simp only [State.fetchFrom, h0, hr, List.range_succ_eq_map, List.map_cons, List.map_map, Nat.add_zero, Prod.mk.injEq,
      List.cons.injEq, true_and, and_true]
    exact List.map_congr_left fun j _ => by simp only [Function.comp_apply, Nat.succ_eq_add_one]; congr 1; omega

/-- Nothing stops a fetch of bytes that can all be fetched. -/
theorem fetchFrom_unstopped (s : State) (a n : Nat) (h : ∀ k, k < n → s.fetchStop (a + k) = none) :
    (s.fetchFrom a n).2 = none ∧ ∀ x ∈ (s.fetchFrom a n).1, ∃ k, k < n ∧ x = s.mem.read (a + k) := by
  induction n generalizing a with
  | zero => simp [State.fetchFrom]
  | succ n ih =>
    have h0 := h 0 (by omega)
    rw [Nat.add_zero] at h0
    obtain ⟨i1, i2⟩ := ih (a + 1) (fun k hk => by rw [show a + 1 + k = a + (k + 1) by omega]; exact h (k + 1) (by omega))
    simp only [State.fetchFrom, h0]
    refine ⟨i1, fun x hx => ?_⟩
    rw [List.mem_cons] at hx
    rcases hx with rfl | hx
    · exact ⟨0, by omega, rfl⟩
    · obtain ⟨k, hk, rfl⟩ := i2 x hx
      exact ⟨k + 1, by omega, by rw [show a + 1 + k = a + (k + 1) by omega]⟩

end Sys2Proof.Machine
end

