-- ==== Sys2Proof/Laws/Memory.lean ====
section
/-! SUPPORT. Memory: every operation keeps the canonical form; a read after a write. -/

namespace Sys2Proof.Machine

/-- A canonical list holds nothing below its bound. -/
theorem read_below (m : Memory) (lo a : Nat) (h : Memory.wfFrom lo m = true) (ha : a < lo) : m.read a = Memory.unlisted := by
  induction m generalizing lo with
  | nil => rfl
  | cons c m ih =>
    obtain ⟨k, b⟩ := c
    simp only [Memory.wfFrom, Bool.and_eq_true, decide_eq_true_eq] at h
    have hk : k ≠ a := by omega
    rw [Memory.read, if_neg hk]
    exact ih (k + 1) h.2 (by omega)

/-- A lower bound may be lowered. -/
theorem wfFrom_mono (m : Memory) (lo lo' : Nat) (h : Memory.wfFrom lo m = true) (hle : lo' ≤ lo) : Memory.wfFrom lo' m = true := by
  cases m with
  | nil => rfl
  | cons c m =>
    obtain ⟨k, b⟩ := c
    simp only [Memory.wfFrom, Bool.and_eq_true, decide_eq_true_eq] at h ⊢
    exact ⟨⟨⟨by omega, h.1.1.2⟩, h.1.2⟩, h.2⟩

theorem erase_wfFrom (m : Memory) (lo a : Nat) (h : Memory.wfFrom lo m = true) : Memory.wfFrom lo (m.erase a) = true := by
  induction m generalizing lo with
  | nil => rfl
  | cons c m ih =>
    obtain ⟨k, b⟩ := c
    simp only [Memory.wfFrom, Bool.and_eq_true, decide_eq_true_eq] at h
    by_cases hk : k = a
    · rw [Memory.erase, if_pos hk]
      exact wfFrom_mono m (k + 1) lo h.2 (by omega)
    · rw [Memory.erase, if_neg hk]
      simp only [Memory.wfFrom, Bool.and_eq_true, decide_eq_true_eq]
      exact ⟨h.1, ih (k + 1) h.2⟩

theorem insert_wfFrom (m : Memory) (lo a : Nat) (x : Byte) (h : Memory.wfFrom lo m = true) (hlo : lo ≤ a) (ha : a < 2 ^ 64)
    (hx : x ≠ Memory.unlisted) : Memory.wfFrom lo (m.insert a x) = true := by
  have hx' : (x != Memory.unlisted) = true := by simpa using hx
  induction m generalizing lo with
  | nil =>
    simp only [Memory.insert, Memory.wfFrom, Bool.and_eq_true, decide_eq_true_eq]
    exact ⟨⟨⟨hlo, ha⟩, hx'⟩, trivial⟩
  | cons c m ih =>
    obtain ⟨k, b⟩ := c
    have h' := h
    simp only [Memory.wfFrom, Bool.and_eq_true, decide_eq_true_eq] at h
    rw [Memory.insert]
    split
    · simp only [Memory.wfFrom, Bool.and_eq_true, decide_eq_true_eq]
      exact ⟨⟨⟨hlo, ha⟩, hx'⟩, ⟨⟨⟨by omega, h.1.1.2⟩, h.1.2⟩, h.2⟩⟩
    · split
      · rename_i h1 h2
        subst h2
        simp only [Memory.wfFrom, Bool.and_eq_true, decide_eq_true_eq]
        exact ⟨⟨⟨hlo, ha⟩, hx'⟩, h.2⟩
      · simp only [Memory.wfFrom, Bool.and_eq_true, decide_eq_true_eq]
        exact ⟨h.1, ih (k + 1) h.2 (by omega)⟩

/-- A write keeps the canonical form. -/
theorem write_wf (m : Memory) (a : Nat) (x : Byte) (h : m.wf = true) (ha : a < 2 ^ 64) : (m.write a x).wf = true := by
  rw [Memory.write]
  split
  · exact erase_wfFrom m 0 a h
  · exact insert_wfFrom m 0 a x h (Nat.zero_le a) ha ‹_›

/-- Loading bytes keeps the canonical form. -/
theorem writeBytes_wf (xs : List Byte) (m : Memory) (a : Word64) (h : m.wf = true) : (m.writeBytes a xs).wf = true := by
  induction xs generalizing m a with
  | nil => exact h
  | cons x xs ih => exact ih (m.write a.toNat x) (a + 1#64) (write_wf m a.toNat x h a.isLt)

theorem read_erase_same (m : Memory) (lo a : Nat) (h : Memory.wfFrom lo m = true) : (m.erase a).read a = Memory.unlisted := by
  induction m generalizing lo with
  | nil => rfl
  | cons c m ih =>
    obtain ⟨k, b⟩ := c
    simp only [Memory.wfFrom, Bool.and_eq_true, decide_eq_true_eq] at h
    by_cases hk : k = a
    · rw [Memory.erase, if_pos hk]
      exact read_below m (k + 1) a h.2 (by omega)
    · rw [Memory.erase, if_neg hk, Memory.read, if_neg hk]
      exact ih (k + 1) h.2

theorem read_erase_other (m : Memory) (a c : Nat) (hac : c ≠ a) : (m.erase a).read c = m.read c := by
  induction m with
  | nil => rfl
  | cons e m ih =>
    obtain ⟨k, b⟩ := e
    by_cases hk : k = a
    · have hkc : k ≠ c := by omega
      rw [Memory.erase, if_pos hk, Memory.read, if_neg hkc]
    · rw [Memory.erase, if_neg hk, Memory.read, Memory.read, ih]

theorem read_insert_same (m : Memory) (a : Nat) (x : Byte) : (m.insert a x).read a = x := by
  induction m with
  | nil => simp [Memory.insert, Memory.read]
  | cons e m ih =>
    obtain ⟨k, b⟩ := e
    rw [Memory.insert]
    split
    · simp [Memory.read]
    · split
      · simp [Memory.read]
      · rename_i h1 h2
        rw [Memory.read, if_neg (fun hk => h2 hk.symm)]
        exact ih

theorem read_insert_other (m : Memory) (a c : Nat) (x : Byte) (hac : c ≠ a) : (m.insert a x).read c = m.read c := by
  induction m with
  | nil => simp [Memory.insert, Memory.read, hac.symm]
  | cons e m ih =>
    obtain ⟨k, b⟩ := e
    rw [Memory.insert]
    split
    · rw [Memory.read, if_neg hac.symm]
    · split
      · rename_i h1 h2
        subst h2
        rw [Memory.read, Memory.read, if_neg hac.symm, if_neg hac.symm]
      · rw [Memory.read, Memory.read, ih]

/-- The byte written is the byte read. -/
theorem read_write_same (m : Memory) (a : Nat) (x : Byte) (h : m.wf = true) : (m.write a x).read a = x := by
  rw [Memory.write]
  split
  · rename_i hx
    rw [hx]
    exact read_erase_same m 0 a h
  · exact read_insert_same m a x

/-- A write leaves every other byte alone. -/
theorem read_write_other (m : Memory) (a c : Nat) (x : Byte) (hac : c ≠ a) : (m.write a x).read c = m.read c := by
  rw [Memory.write]
  split
  · exact read_erase_other m a c hac
  · exact read_insert_other m a c x hac

end Sys2Proof.Machine
end

