-- ==== Sys2Proof/Laws/PerInstr.lean ====
section
/-! SUPPORT. Per-instruction families: one lemma per constructor of `Instr`. -/

namespace Sys2Proof.Laws.EncodedLength

/-- The encoder writes as many bytes as the length rule says (30_encoding.md R86). -/
def Statement (i : Instr) : Prop := (encode i).length = i.len

theorem legacy (opc : Byte) (e : LegacyEnc) : (encodeLegacy opc e).length = e.len := by
  simp only [encodeLegacy, LegacyEnc.len, List.length_append, List.length_map, List.length_cons, modrmBytes_length]
  cases e.rex <;> simp [rexBytes] <;> omega

theorem vex3 (opc : Byte) (l : Bool) (e : Vex3Enc) : (encodeVex3 opc l e).length = e.len := by
  simp only [encodeVex3, Vex3Enc.len, List.length_append, List.length_map, List.length_cons, modrmBytes_length]
  omega

theorem vex2 (opc : Byte) (l : Bool) (e : Vex2Enc) : (encodeVex2 opc l e).length = e.len := by
  simp only [encodeVex2, Vex2Enc.len, List.length_append, List.length_map, List.length_cons, modrmBytes_length]
  omega

theorem evex (opc : Byte) (ll : BitVec 2) (e : EvexEnc) : (encodeEvex opc ll e).length = e.len := by
  simp only [encodeEvex, EvexEnc.len, List.length_append, List.length_map, List.length_cons, modrmBytes_length]
  omega

theorem psubsbMm (e : LegacyEnc) : Statement (.psubsbMm e) := legacy 0xE8#8 e
theorem psubsbXmm (e : LegacyEnc) : Statement (.psubsbXmm e) := legacy 0xE8#8 e
theorem psubswMm (e : LegacyEnc) : Statement (.psubswMm e) := legacy 0xE9#8 e
theorem psubswXmm (e : LegacyEnc) : Statement (.psubswXmm e) := legacy 0xE9#8 e
theorem vpsubsbXmmVex3 (e : Vex3Enc) : Statement (.vpsubsbXmmVex3 e) := vex3 0xE8#8 false e
theorem vpsubsbXmmVex2 (e : Vex2Enc) : Statement (.vpsubsbXmmVex2 e) := vex2 0xE8#8 false e
theorem vpsubswXmmVex3 (e : Vex3Enc) : Statement (.vpsubswXmmVex3 e) := vex3 0xE9#8 false e
theorem vpsubswXmmVex2 (e : Vex2Enc) : Statement (.vpsubswXmmVex2 e) := vex2 0xE9#8 false e
theorem vpsubsbYmmVex3 (e : Vex3Enc) : Statement (.vpsubsbYmmVex3 e) := vex3 0xE8#8 true e
theorem vpsubsbYmmVex2 (e : Vex2Enc) : Statement (.vpsubsbYmmVex2 e) := vex2 0xE8#8 true e
theorem vpsubswYmmVex3 (e : Vex3Enc) : Statement (.vpsubswYmmVex3 e) := vex3 0xE9#8 true e
theorem vpsubswYmmVex2 (e : Vex2Enc) : Statement (.vpsubswYmmVex2 e) := vex2 0xE9#8 true e
theorem vpsubsbXmmEvex (e : EvexEnc) : Statement (.vpsubsbXmmEvex e) := evex 0xE8#8 0#2 e
theorem vpsubsbYmmEvex (e : EvexEnc) : Statement (.vpsubsbYmmEvex e) := evex 0xE8#8 1#2 e
theorem vpsubsbZmmEvex (e : EvexEnc) : Statement (.vpsubsbZmmEvex e) := evex 0xE8#8 2#2 e
theorem vpsubswXmmEvex (e : EvexEnc) : Statement (.vpsubswXmmEvex e) := evex 0xE9#8 0#2 e
theorem vpsubswYmmEvex (e : EvexEnc) : Statement (.vpsubswYmmEvex e) := evex 0xE9#8 1#2 e
theorem vpsubswZmmEvex (e : EvexEnc) : Statement (.vpsubswZmmEvex e) := evex 0xE9#8 2#2 e

end Sys2Proof.Laws.EncodedLength
end

