-- ==== Sys2Proof/Laws/Stops.lean ====
section
/-! SUPPORT. Every outcome of every instruction, said once: it completes, its gate stops it, or its memory operand stops it, and
why. The cases exclude each other. -/

namespace Sys2Proof.Machine

open Sys2Proof.Config

/-- Why a memory operand `r` of `n` bytes stops an instruction: alignment of an XMM legacy form (20_memory.md R46), a non-canonical
byte (R51), the environment's verdict (R50), or alignment checking (60_exceptions.md R148). `xmm` and `mmx` say which family the
instruction is of. -/
def OperandStops (xmm mmx : Bool) (n : Nat) (s : State) (r : MemRef) (st : Stop) : Prop :=
  (xmm = true ∧ r.la.toNat % 16 ≠ 0 ∧ st = .exc .gp) ∨
  ((xmm = true → r.la.toNat % 16 = 0) ∧ s.canonicalRange r.la.toNat n = false ∧ st = .exc (if r.ssRel then .ss else .gp)) ∨
  ((xmm = true → r.la.toNat % 16 = 0) ∧ s.canonicalRange r.la.toNat n = true ∧ s.memFault r.la.toNat n .read = some st) ∨
  (xmm = false ∧ Readable s r.la.toNat n ∧ s.alignmentCheck = true ∧ r.la.toNat % n ≠ 0 ∧
    (mmx = false → freeAlignmentFault s.freeCount = true) ∧ st = .exc .ac)

/-- No reason to stop at the memory operand `r`. -/
def OperandGoes (xmm mmx : Bool) (n : Nat) (s : State) (r : MemRef) : Prop :=
  (xmm = true → r.la.toNat % 16 = 0) ∧ Readable s r.la.toNat n ∧
    (xmm = false → s.alignmentCheck = true → r.la.toNat % n ≠ 0 → mmx = false ∧ freeAlignmentFault s.freeCount = false)

/-- The three ways an instruction can end; `ready` says whether its gate lets it pass, `ref` is its memory operand if it has one. -/
def Outcomes (xmm mmx : Bool) (n : Nat) (s : State) (ready : Prop) (ref : Option MemRef)
    (o : Host.Outcome State Fault Refusal) : Prop :=
  (ready ∧ (∀ r, ref = some r → OperandGoes xmm mmx n s r) ∧ ∃ t, o = .next t) ∨
  (¬ready ∧ ∃ x, o = raise x s ∧ (x = .ud ∨ x = .nm ∨ (x = .mf ∧ mmx = true ∧ s.enabled.x87ExceptionPending = true))) ∨
  (ready ∧ ∃ r st, ref = some r ∧ o = stop st s ∧ OperandStops xmm mmx n s r st)

theorem memRead_stops (w : Nat) (r : MemRef) (s : State) (st : Stop) (xmm mmx : Bool) (h : memRead w r s = .error st)
    (ha : xmm = true → r.la.toNat % 16 = 0) : OperandStops xmm mmx (w / 8) s r st := by
  obtain ⟨hc, hst⟩ | ⟨hc, hm⟩ := memRead_error_cases w r s st h
  · exact .inr (.inl ⟨ha, hc, hst⟩)
  · exact .inr (.inr (.inl ⟨ha, hc, hm⟩))

/-- Why the subtrahend of an MMX form cannot be fetched. -/
theorem mmxSource_error (e : LegacyEnc) (s : State) (st : Stop) (h : mmxSource e s = .error st) :
    ∃ m, e.rm = .mem m ∧ OperandStops false true 8 s (legacyRef e s m) st := by
  unfold mmxSource at h
  cases hrm : e.rm with
  | reg rm => simp [hrm] at h
  | mem m =>
    refine ⟨m, rfl, ?_⟩
    simp only [hrm] at h
    cases hr : memRead 64 (legacyRef e s m) s with
    | error st' =>
      simp only [hr, Except.error.injEq] at h
      subst h
      exact memRead_stops 64 _ s st' false true hr (by simp)
    | ok b =>
      simp only [hr] at h
      split at h
      · rename_i hc
        simp only [Bool.and_eq_true, bne_iff_ne] at hc
        simp only [Except.error.injEq] at h
        exact .inr (.inr (.inr ⟨rfl, ((memRead_ok_iff 64 _ s b).1 hr).1, hc.1, hc.2, by simp, h.symm⟩))
      · cases h

/-- Why the subtrahend of an XMM legacy form cannot be fetched. -/
theorem xmmSource_error (e : LegacyEnc) (s : State) (st : Stop) (h : xmmSource e s = .error st) :
    ∃ m, e.rm = .mem m ∧ OperandStops true false 16 s (legacyRef e s m) st := by
  unfold xmmSource at h
  cases hrm : e.rm with
  | reg rm => simp [hrm] at h
  | mem m =>
    refine ⟨m, rfl, ?_⟩
    simp only [hrm] at h
    split at h
    · rename_i hc
      simp only [bne_iff_ne] at hc
      simp only [Except.error.injEq] at h
      exact .inl ⟨rfl, hc, h.symm⟩
    · rename_i hc
      simp only [bne_iff_ne, ne_eq, Decidable.not_not] at hc
      exact memRead_stops 128 _ s st true false h (fun _ => hc)

/-- Why a memory operand of a VEX or EVEX form cannot be fetched. -/
theorem unalignedRead_error (w : Nat) (r : MemRef) (s : State) (st : Stop) (h : unalignedRead w r s = .error st) :
    OperandStops false false (w / 8) s r st := by
  unfold unalignedRead at h
  cases hr : memRead w r s with
  | error st' =>
    simp only [hr, Except.error.injEq] at h
    subst h
    exact memRead_stops w r s st' false false hr (by simp)
  | ok b =>
    simp only [hr] at h
    split at h
    · rename_i hc
      simp only [Bool.and_eq_true, bne_iff_ne] at hc
      simp only [Except.error.injEq] at h
      exact .inr (.inr (.inr ⟨rfl, ((memRead_ok_iff w _ s b).1 hr).1, hc.1.1, hc.1.2, fun _ => hc.2, h.symm⟩))
    · cases h

theorem vexSource_error (w : Nat) (e : Vex3Enc) (len : Nat) (s : State) (st : Stop) (h : vexSource w e len s = .error st) :
    ∃ m, e.rm = .mem m ∧ OperandStops false false (w / 8) s (vexRef e len s m) st := by
  unfold vexSource at h
  cases hrm : e.rm with
  | reg rm => simp [hrm] at h
  | mem m => exact ⟨m, rfl, unalignedRead_error w _ s st (by simpa [hrm] using h)⟩

theorem evexSource_error (w : Nat) (e : EvexEnc) (s : State) (st : Stop) (h : evexSource w e s = .error st) :
    ∃ m, e.rm = .mem m ∧ OperandStops false false (w / 8) s (evexRef e (w / 8) s m) st := by
  unfold evexSource at h
  cases hrm : e.rm with
  | reg rm => simp [hrm] at h
  | mem m => exact ⟨m, rfl, unalignedRead_error w _ s st (by simpa [hrm] using h)⟩

theorem execMmx_outcomes {n : Nat} (sub : BitVec n → BitVec n → BitVec n) (e : LegacyEnc) (s : State) :
    Outcomes false true 8 s (MmxReady s) (operandOf e.rm (legacyRef e s)) (execMmx sub e s) := by
  obtain ⟨x, hg, hx⟩ | ⟨hr, st, he, hst⟩ | ⟨hr, b, hb, ht⟩ := execMmx_cases sub e s
  · refine .inr (.inl ⟨fun h => ?_, x, hx, ?_⟩)
    · rw [(mmxGate_none_iff s).2 h] at hg; cases hg
    · obtain h | h | h := mmxGate_cases s x hg
      · exact .inl h
      · exact .inr (.inl h)
      · exact .inr (.inr ⟨h.1, rfl, h.2⟩)
  · obtain ⟨m, hm, h⟩ := mmxSource_error e s st he
    exact .inr (.inr ⟨hr, legacyRef e s m, st, by simp [operandOf, hm], hst, h⟩)
  · refine .inl ⟨hr, fun r href => ?_, _, ht⟩
    cases hrm : e.rm with
    | reg rm => simp [operandOf, hrm] at href
    | mem m =>
      simp only [operandOf, hrm, Option.some.injEq] at href
      subst href
      simp only [MmxOperand, hrm] at hb
      exact ⟨by simp, hb.1, fun _ ha hne => absurd (hb.2.2 ha) hne⟩

theorem execXmm_outcomes {n : Nat} (sub : BitVec n → BitVec n → BitVec n) (e : LegacyEnc) (s : State) :
    Outcomes true false 16 s (XmmReady s) (operandOf e.rm (legacyRef e s)) (execXmm sub e s) := by
  obtain ⟨x, hg, hx⟩ | ⟨hr, st, he, hst⟩ | ⟨hr, b, hb, ht⟩ := execXmm_cases sub e s
  · refine .inr (.inl ⟨fun h => ?_, x, hx, (vectorGate_cases _ s x hg).imp_right .inl⟩)
    rw [(xmmGate_none_iff s).2 h] at hg; cases hg
  · obtain ⟨m, hm, h⟩ := xmmSource_error e s st he
    exact .inr (.inr ⟨hr, legacyRef e s m, st, by simp [operandOf, hm], hst, h⟩)
  · refine .inl ⟨hr, fun r href => ?_, _, ht⟩
    cases hrm : e.rm with
    | reg rm => simp [operandOf, hrm] at href
    | mem m =>
      simp only [operandOf, hrm, Option.some.injEq] at href
      subst href
      simp only [XmmOperand, hrm] at hb
      exact ⟨fun _ => hb.1, hb.2.1, by simp⟩

theorem execVex_outcomes {n : Nat} (sub : BitVec n → BitVec n → BitVec n) (l : Bool) (e : Vex3Enc) (len : Nat) (s : State) :
    Outcomes false false (vexWidth l / 8) s (if l then Vex256Ready s else Vex128Ready s) (operandOf e.rm (vexRef e len s))
      (execVex sub l e len s) := by
  obtain ⟨x, hg, hx⟩ | ⟨hr, st, he, hst⟩ | ⟨hr, b, hb, ht⟩ := execVex_cases sub l e len s
  · refine .inr (.inl ⟨fun h => ?_, x, hx, (vectorGate_cases _ s x hg).imp_right .inl⟩)
    rw [(vexGate_none_iff l s).2 h] at hg; cases hg
  · obtain ⟨m, hm, h⟩ := vexSource_error _ e len s st he
    exact .inr (.inr ⟨hr, vexRef e len s m, st, by simp [operandOf, hm], hst, h⟩)
  · refine .inl ⟨hr, fun r href => ?_, _, ht⟩
    cases hrm : e.rm with
    | reg rm => simp [operandOf, hrm] at href
    | mem m =>
      simp only [operandOf, hrm, Option.some.injEq] at href
      subst href
      simp only [VexOperand, hrm] at hb
      exact ⟨by simp, hb.1, fun _ ha hne => ⟨rfl, hb.2.2 ha hne⟩⟩

theorem execEvex_outcomes {n : Nat} (sub : BitVec n → BitVec n → BitVec n) (vl : VecLen) (e : EvexEnc) (s : State) :
    Outcomes false false (vl.bits / 8) s (EvexReady s vl) (operandOf e.rm (evexRef e (vl.bits / 8) s)) (execEvex sub vl e s) := by
  obtain ⟨x, hg, hx⟩ | ⟨hr, st, he, hst⟩ | ⟨hr, b, hb, ht⟩ := execEvex_cases sub vl e s
  · refine .inr (.inl ⟨fun h => ?_, x, hx, (vectorGate_cases _ s x hg).imp_right .inl⟩)
    rw [(evexGate_none_iff vl s).2 h] at hg; cases hg
  · obtain ⟨m, hm, h⟩ := evexSource_error _ e s st he
    exact .inr (.inr ⟨hr, evexRef e (vl.bits / 8) s m, st, by simp [operandOf, hm], hst, h⟩)
  · refine .inl ⟨hr, fun r href => ?_, _, ht⟩
    cases hrm : e.rm with
    | reg rm => simp [operandOf, hrm] at href
    | mem m =>
      simp only [operandOf, hrm, Option.some.injEq] at href
      subst href
      simp only [EvexOperand, hrm] at hb
      exact ⟨by simp, hb.1, fun _ ha hne => ⟨rfl, hb.2.2 ha hne⟩⟩

/-- Every outcome of every instruction. -/
theorem exec_outcomes (i : Instr) (s : State) :
    Outcomes (isXmmLegacyForm i) (isMmxForm i) (operandBytes i) s (Ready i s) (operandRef i s) (exec i s) := by
  cases i with
  | psubsbMm e => exact execMmx_outcomes subSB e s
  | psubswMm e => exact execMmx_outcomes subSW e s
  | psubsbXmm e => exact execXmm_outcomes subSB e s
  | psubswXmm e => exact execXmm_outcomes subSW e s
  | vpsubsbXmmVex3 e => exact execVex_outcomes subSB false e e.len s
  | vpsubsbXmmVex2 e => exact execVex_outcomes subSB false (vex2Fields e) e.len s
  | vpsubswXmmVex3 e => exact execVex_outcomes subSW false e e.len s
  | vpsubswXmmVex2 e => exact execVex_outcomes subSW false (vex2Fields e) e.len s
  | vpsubsbYmmVex3 e => exact execVex_outcomes subSB true e e.len s
  | vpsubsbYmmVex2 e => exact execVex_outcomes subSB true (vex2Fields e) e.len s
  | vpsubswYmmVex3 e => exact execVex_outcomes subSW true e e.len s
  | vpsubswYmmVex2 e => exact execVex_outcomes subSW true (vex2Fields e) e.len s
  | vpsubsbXmmEvex e => exact execEvex_outcomes subSB .vl128 e s
  | vpsubsbYmmEvex e => exact execEvex_outcomes subSB .vl256 e s
  | vpsubsbZmmEvex e => exact execEvex_outcomes subSB .vl512 e s
  | vpsubswXmmEvex e => exact execEvex_outcomes subSW .vl128 e s
  | vpsubswYmmEvex e => exact execEvex_outcomes subSW .vl256 e s
  | vpsubswZmmEvex e => exact execEvex_outcomes subSW .vl512 e s

/-- What an instruction's exception is due to, and the state it leaves. -/
theorem exec_raised_cases (i : Instr) (s t : State) (x : Exception) (h : exec i s = .fault (.raised x t)) :
    t = s.afterException x ∧
      ((x = .ud ∨ x = .nm ∨ (x = .mf ∧ isMmxForm i = true ∧ s.enabled.x87ExceptionPending = true)) ∨
        ∃ r, operandRef i s = some r ∧ OperandStops (isXmmLegacyForm i) (isMmxForm i) (operandBytes i) s r (.exc x)) := by
  obtain ⟨-, -, u, hu⟩ | ⟨-, y, ho, hy⟩ | ⟨-, r, st, href, ho, hs⟩ := exec_outcomes i s
  · rw [hu] at h; cases h
  · rw [ho, raise, Host.Outcome.fault.injEq, Fault.raised.injEq] at h
    obtain ⟨rfl, rfl⟩ := h
    exact ⟨rfl, .inl hy⟩
  · rw [ho] at h
    obtain ⟨rfl, rfl⟩ := stop_fault _ _ _ _ h
    exact ⟨rfl, .inr ⟨r, href, hs⟩⟩

end Sys2Proof.Machine
end

