-- ==== Sys2Proof/Tests/Slice0.lean ====
section
/-! SUPPORT. Tests. Expected results come from spec/: `T<n>` is a vector of 95_test_vectors.md section 4, "section 2" and
"section 3" are the tables of that file; where a test is from neither, the rule it is worked out from is named. The witnesses show
that the hypotheses of the statements in Certificates/Slice0/Obligations.lean can be met, clause by clause. -/

namespace Sys2Proof.Tests

set_option Elab.async false

open Sys2Proof.Machine Sys2Proof.Config

/-! ### Helpers -/

/-- Bytes at pc. -/
def load (bytes : List Byte) (s : State) : State := { s with mem := s.mem.writeBytes s.pc bytes }

/-- Bytes at an address. -/
def poke (a : Word64) (bytes : List Byte) (s : State) : State := { s with mem := s.mem.writeBytes a bytes }

def setGpr (i : Fin 16) (x : Word64) (s : State) : State := { s with gpr := s.gpr.set i x }
def setK (i : Fin 8) (x : Word64) (s : State) : State := { s with k := s.k.set i x }

def nextOf : Host.Outcome State Fault Refusal → Option State
  | .next t => some t
  | .fault _ => none
  | .refused _ => none

def faultOf : Host.Outcome State Fault Refusal → Option Exception
  | .next _ => none
  | .fault (.raised x _) => some x
  | .refused _ => none

/-- pc after the fault, to see that it has not moved. -/
def faultPc : Host.Outcome State Fault Refusal → Option Word64
  | .next _ => none
  | .fault (.raised _ t) => some t.pc
  | .refused _ => none

def refusalOf : Host.Outcome State Fault Refusal → Option Refusal
  | .next _ => none
  | .fault _ => none
  | .refused r => some r

/-- One step over these bytes at pc. -/
def run (bytes : List Byte) (s : State) : Host.Outcome State Fault Refusal := step (load bytes s)

/-- Read something of the next state. -/
def after {α : Type} (bytes : List Byte) (s : State) (f : State → α) : Option α := (nextOf (run bytes s)).map f

/-- CR0.AM, EFLAGS.AC and CPL = 3. -/
def checking (s : State) : State :=
  { s with enabled := { s.enabled with cr0Am := true }, rflags := s.rflags ||| 0x40000#64, cpl := 3#2 }

/-- Register operands with no prefix in each encoding. -/
def legacyReg (pfx : List Pfx) (reg rm : BitVec 3) : LegacyEnc := { pfx := pfx, rex := none, reg := reg, rm := .reg rm }
def vex3Of (vvvv : BitVec 4) (reg : BitVec 3) (rm : RegMem) : Vex3Enc :=
  { pfx := [], r := false, x := false, b := false, w := false, vvvv := vvvv, reg := reg, rm := rm }
def vex2Of (vvvv : BitVec 4) (reg : BitVec 3) (rm : RegMem) : Vex2Enc :=
  { pfx := [], r := false, vvvv := vvvv, reg := reg, rm := rm }
def evexOf (vvvv : BitVec 4) (z : Bool) (aaa reg : BitVec 3) (rm : RegMem) : EvexEnc :=
  { pfx := [], r := false, x := false, b := false, rHi := false, w := false, vvvv := vvvv, z := z, vHi := false, aaa := aaa,
    reg := reg, rm := rm }

/-! ### WellFormed: an ill-formed term for each check -/

theorem test_wf_refuses_repeated_override :
    (Instr.psubsbMm { pfx := [.segFs, .segFs], rex := none, reg := 0, rm := .reg 1 }).wf = false := by decide
theorem test_wf_refuses_both_overrides :
    (Instr.psubsbXmm { pfx := [.opSize, .segFs, .segGs], rex := none, reg := 0, rm := .reg 1 }).wf = false := by decide
theorem test_wf_refuses_repeated_address_size :
    (Instr.vpsubsbXmmVex2 { pfx := [.addrSize, .addrSize], r := false, vvvv := 2, reg := 1, rm := .reg 3 }).wf = false := by decide
theorem test_wf_refuses_66_on_mmx : (Instr.psubswMm (legacyReg [.opSize] 0 1)).wf = false := by decide
theorem test_wf_refuses_xmm_without_66 : (Instr.psubswXmm (legacyReg [] 0 1)).wf = false := by decide
theorem test_wf_refuses_66_on_vex3 : (Instr.vpsubswYmmVex3 { vex3Of 2 1 (.reg 3) with pfx := [.opSize] }).wf = false := by decide
theorem test_wf_refuses_66_on_vex2 : (Instr.vpsubswYmmVex2 { vex2Of 2 1 (.reg 3) with pfx := [.opSize] }).wf = false := by decide
theorem test_wf_refuses_66_on_evex :
    (Instr.vpsubswZmmEvex { evexOf 2 false 0 1 (.reg 3) with pfx := [.opSize] }).wf = false := by decide
theorem test_wf_refuses_rm_100_without_sib : (Instr.vpsubsbXmmVex3 (vex3Of 2 1 (.mem (.indirect 4 (.d8 0))))).wf = false := by decide
theorem test_wf_refuses_rm_101_without_displacement :
    (Instr.vpsubsbYmmVex3 (vex3Of 2 1 (.mem (.indirect 5 .absent)))).wf = false := by decide
theorem test_wf_refuses_base_101_without_displacement :
    (Instr.vpsubsbYmmVex2 (vex2Of 2 1 (.mem (.sib 0 0 5 .absent)))).wf = false := by decide
theorem test_wf_refuses_rex_r_on_mmx :
    (Instr.psubsbMm { legacyReg [] 0 1 with rex := some { w := false, r := true, x := false, b := false } }).wf = false := by decide
theorem test_wf_refuses_rex_b_on_mmx_register :
    (Instr.psubsbMm { legacyReg [] 0 1 with rex := some { w := false, r := false, x := false, b := true } }).wf = false := by decide
theorem test_wf_admits_rex_b_on_mmx_memory :
    (Instr.psubsbMm { pfx := [], rex := some { w := false, r := false, x := true, b := true }, reg := 0,
                      rm := .mem (.indirect 1 .absent) }).wf = true := by decide
theorem test_wf_refuses_zeroing_without_mask : (Instr.vpsubsbXmmEvex (evexOf 2 true 0 1 (.reg 3))).wf = false := by decide
theorem test_wf_admits_zeroing_with_mask : (Instr.vpsubsbYmmEvex (evexOf 2 true 1 1 (.reg 3))).wf = true := by decide

/-! ### Decoding (section 2) -/

theorem test_decode_psubsb_mm : decode [0x0F#8, 0xE8#8, 0xC1#8] = .instr (.psubsbMm (legacyReg [] 0 1)) ∧
    decode [0x0F#8, 0xE8#8, 0x18#8] = .instr (.psubsbMm { legacyReg [] 3 0 with rm := .mem (.indirect 0 .absent) }) := by decide
theorem test_decode_psubsw_mm : decode [0x0F#8, 0xE9#8, 0xD3#8] = .instr (.psubswMm (legacyReg [] 2 3)) ∧
    decode [0x0F#8, 0xE9#8, 0x7B#8, 0x08#8] = .instr (.psubswMm { legacyReg [] 7 0 with rm := .mem (.indirect 3 (.d8 8)) }) := by
  decide
theorem test_decode_psubsb_xmm : decode [0x66#8, 0x0F#8, 0xE8#8, 0xC1#8] = .instr (.psubsbXmm (legacyReg [.opSize] 0 1)) ∧
    decode [0x66#8, 0x45#8, 0x0F#8, 0xE8#8, 0xC1#8] =
      .instr (.psubsbXmm { legacyReg [.opSize] 0 1 with rex := some { w := false, r := true, x := false, b := true } }) := by decide
theorem test_decode_prefixed_psubsb_xmm :
    decode [0x64#8, 0x66#8, 0x0F#8, 0xE8#8, 0x00#8] =
      .instr (.psubsbXmm { legacyReg [.segFs, .opSize] 0 0 with rm := .mem (.indirect 0 .absent) }) ∧
    decode [0x67#8, 0x66#8, 0x0F#8, 0xE8#8, 0x00#8] =
      .instr (.psubsbXmm { legacyReg [.addrSize, .opSize] 0 0 with rm := .mem (.indirect 0 .absent) }) := by decide
theorem test_decode_psubsw_xmm :
    decode [0x66#8, 0x0F#8, 0xE9#8, 0x16#8] =
      .instr (.psubswXmm { legacyReg [.opSize] 2 0 with rm := .mem (.indirect 6 .absent) }) ∧
    decode [0x66#8, 0x44#8, 0x0F#8, 0xE9#8, 0x7C#8, 0x8F#8, 0x10#8] =
      .instr (.psubswXmm { pfx := [.opSize], rex := some { w := false, r := true, x := false, b := false }, reg := 7,
                           rm := .mem (.sib 2 1 7 (.d8 0x10)) }) := by decide
theorem test_decode_vpsubsb_xmm_vex2 : decode [0xC5#8, 0xE9#8, 0xE8#8, 0xCB#8] = .instr (.vpsubsbXmmVex2 (vex2Of 2 1 (.reg 3))) := by
  decide
theorem test_decode_vpsubsb_xmm_vex3 :
    decode [0xC4#8, 0xC1#8, 0x69#8, 0xE8#8, 0xCB#8] = .instr (.vpsubsbXmmVex3 { vex3Of 2 1 (.reg 3) with b := true }) ∧
    decode [0xC4#8, 0xE1#8, 0xE9#8, 0xE8#8, 0xCB#8] = .instr (.vpsubsbXmmVex3 { vex3Of 2 1 (.reg 3) with w := true }) := by decide
theorem test_decode_vpsubsw_xmm_vex2 : decode [0xC5#8, 0xE9#8, 0xE9#8, 0xCB#8] = .instr (.vpsubswXmmVex2 (vex2Of 2 1 (.reg 3))) ∧
    decode [0xC5#8, 0xF9#8, 0xE9#8, 0x05#8, 0x00#8, 0x00#8, 0x00#8, 0x00#8] =
      .instr (.vpsubswXmmVex2 (vex2Of 0 0 (.mem (.ripRel 0)))) := by decide
/-- The three-byte spelling of `C5 E9 E9 CB` (30_encoding.md R73). -/
theorem test_decode_vpsubsw_xmm_vex3 :
    decode [0xC4#8, 0xE1#8, 0x69#8, 0xE9#8, 0xCB#8] = .instr (.vpsubswXmmVex3 (vex3Of 2 1 (.reg 3))) := by decide
theorem test_decode_vpsubsb_ymm_vex2 : decode [0xC5#8, 0xED#8, 0xE8#8, 0xCB#8] = .instr (.vpsubsbYmmVex2 (vex2Of 2 1 (.reg 3))) ∧
    decode [0xC5#8, 0xD5#8, 0xE8#8, 0xE6#8] = .instr (.vpsubsbYmmVex2 (vex2Of 5 4 (.reg 6))) := by decide
/-- The three-byte spelling of `C5 D5 E8 E6` (30_encoding.md R73). -/
theorem test_decode_vpsubsb_ymm_vex3 :
    decode [0xC4#8, 0xE1#8, 0x55#8, 0xE8#8, 0xE6#8] = .instr (.vpsubsbYmmVex3 (vex3Of 5 4 (.reg 6))) := by decide
theorem test_decode_vpsubsw_ymm_vex2 :
    decode [0xC5#8, 0xED#8, 0xE9#8, 0x08#8] = .instr (.vpsubswYmmVex2 (vex2Of 2 1 (.mem (.indirect 0 .absent)))) ∧
    decode [0xC5#8, 0x0D#8, 0xE9#8, 0xCB#8] = .instr (.vpsubswYmmVex2 { vex2Of 14 1 (.reg 3) with r := true }) := by decide
/-- The three-byte spelling of `C5 0D E9 CB`, vvvv = 14 and R = 1 (30_encoding.md R72, R73). -/
theorem test_decode_vpsubsw_ymm_vex3 :
    decode [0xC4#8, 0x61#8, 0x0D#8, 0xE9#8, 0xCB#8] = .instr (.vpsubswYmmVex3 { vex3Of 14 1 (.reg 3) with r := true }) := by decide
theorem test_decode_vpsubsb_xmm_evex :
    decode [0x62#8, 0xF1#8, 0x6D#8, 0x09#8, 0xE8#8, 0xCB#8] = .instr (.vpsubsbXmmEvex (evexOf 2 false 1 1 (.reg 3))) ∧
    decode [0x62#8, 0xA1#8, 0x6D#8, 0x00#8, 0xE8#8, 0xCB#8] =
      .instr (.vpsubsbXmmEvex { evexOf 2 false 0 1 (.reg 3) with x := true, rHi := true, vHi := true }) ∧
    decode [0x62#8, 0xF1#8, 0x75#8, 0x07#8, 0xE8#8, 0x4A#8, 0x02#8] =
      .instr (.vpsubsbXmmEvex { evexOf 1 false 7 1 (.mem (.indirect 2 (.d8 2))) with vHi := true }) := by decide
theorem test_decode_vpsubsb_ymm_evex :
    decode [0x62#8, 0xF1#8, 0x6D#8, 0xA9#8, 0xE8#8, 0xCB#8] = .instr (.vpsubsbYmmEvex (evexOf 2 true 1 1 (.reg 3))) := by decide
theorem test_decode_vpsubsb_zmm_evex :
    decode [0x62#8, 0xF1#8, 0x6D#8, 0x48#8, 0xE8#8, 0xCB#8] = .instr (.vpsubsbZmmEvex (evexOf 2 false 0 1 (.reg 3))) ∧
    decode [0x62#8, 0xF1#8, 0x6D#8, 0xC9#8, 0xE8#8, 0xCB#8] = .instr (.vpsubsbZmmEvex (evexOf 2 true 1 1 (.reg 3))) ∧
    decode [0x62#8, 0xF1#8, 0xED#8, 0x48#8, 0xE8#8, 0xCB#8] =
      .instr (.vpsubsbZmmEvex { evexOf 2 false 0 1 (.reg 3) with w := true }) := by decide
theorem test_decode_vpsubsw_xmm_evex :
    decode [0x62#8, 0xF1#8, 0x6D#8, 0x89#8, 0xE9#8, 0xCB#8] = .instr (.vpsubswXmmEvex (evexOf 2 true 1 1 (.reg 3))) := by decide
theorem test_decode_vpsubsw_ymm_evex :
    decode [0x62#8, 0xF1#8, 0x6D#8, 0x29#8, 0xE9#8, 0xCB#8] = .instr (.vpsubswYmmEvex (evexOf 2 false 1 1 (.reg 3))) ∧
    decode [0x62#8, 0x91#8, 0x6D#8, 0x2A#8, 0xE9#8, 0xCE#8] =
      .instr (.vpsubswYmmEvex { evexOf 2 false 2 1 (.reg 6) with x := true, b := true }) := by decide
theorem test_decode_vpsubsw_zmm_evex :
    decode [0x62#8, 0x61#8, 0x6D#8, 0xC5#8, 0xE9#8, 0x48#8, 0x01#8] =
      .instr (.vpsubswZmmEvex { evexOf 2 true 5 1 (.mem (.indirect 0 (.d8 1))) with r := true, rHi := true, vHi := true }) ∧
    decode [0x62#8, 0x61#8, 0x6D#8, 0x45#8, 0xE9#8, 0x88#8, 0x44#8, 0x00#8, 0x00#8, 0x00#8] =
      .instr (.vpsubswZmmEvex { evexOf 2 false 5 1 (.mem (.indirect 0 (.d32 0x44))) with r := true, rHi := true, vHi := true }) := by
  decide

theorem test_decode_invalid_legacy : decode [0xF3#8, 0x0F#8, 0xE8#8, 0xC1#8] = .invalid ∧
    decode [0xF2#8, 0x0F#8, 0xE9#8, 0xC1#8] = .invalid ∧ decode [0xF0#8, 0x0F#8, 0xE8#8, 0x00#8] = .invalid := by decide
theorem test_decode_invalid_vex : decode [0x66#8, 0xC5#8, 0xE9#8, 0xE8#8, 0xCB#8] = .invalid ∧
    decode [0x48#8, 0xC5#8, 0xE9#8, 0xE8#8, 0xCB#8] = .invalid := by decide
theorem test_decode_invalid_evex : decode [0x62#8, 0xF1#8, 0x6D#8, 0x68#8, 0xE8#8, 0xCB#8] = .invalid ∧
    decode [0x62#8, 0xF1#8, 0x6D#8, 0x18#8, 0xE8#8, 0x08#8] = .invalid ∧
    decode [0x62#8, 0xF1#8, 0x6D#8, 0x58#8, 0xE8#8, 0xCB#8] = .invalid ∧
    decode [0x62#8, 0xF1#8, 0x6D#8, 0x88#8, 0xE8#8, 0xCB#8] = .invalid ∧
    decode [0x62#8, 0xF5#8, 0x6D#8, 0x48#8, 0xE8#8, 0xCB#8] = .invalid ∧
    decode [0x62#8, 0xF1#8, 0x69#8, 0x48#8, 0xE8#8, 0xCB#8] = .invalid := by decide
theorem test_decode_refused : decode [0x66#8, 0x66#8, 0x0F#8, 0xE8#8, 0xC1#8] = .refused .repeatedPrefix ∧
    decode [0x2E#8, 0x66#8, 0x0F#8, 0xE8#8, 0x00#8] = .refused .nullSegment ∧
    decode [0x41#8, 0x0F#8, 0xE8#8, 0xC1#8] = .refused .rexOnMmx := by decide
/-- 30_encoding.md R65, R83: a prefix after REX, another opcode, another `pp`. -/
theorem test_decode_refused_neighbours : decode [0x44#8, 0x66#8, 0x0F#8, 0xE8#8, 0xC1#8] = .refused .prefixAfterRex ∧
    decode [0x0F#8, 0xEA#8, 0xC1#8] = .refused .otherOpcode ∧ decode [0xC5#8, 0xE8#8, 0xE8#8, 0xCB#8] = .refused .otherMap ∧
    decode [0x62#8, 0xF2#8, 0x6D#8, 0x48#8, 0xE8#8, 0xCB#8] = .refused .otherMap := by decide
/-- 30_encoding.md R67: SIB without base; SIB with base 101b and a displacement is no such form. -/
theorem test_decode_sib_without_base :
    decode [0x0F#8, 0xE8#8, 0x04#8, 0x25#8, 0x78#8, 0x56#8, 0x34#8, 0x12#8] =
      .instr (.psubsbMm { legacyReg [] 0 0 with rm := .mem (.sibNoBase 0 4 0x12345678) }) ∧
    decode [0x0F#8, 0xE8#8, 0x44#8, 0x65#8, 0xFF#8] =
      .instr (.psubsbMm { legacyReg [] 0 0 with rm := .mem (.sib 1 4 5 (.d8 0xFF)) }) := by decide
theorem test_decode_truncated : decode [0x66#8, 0x0F#8, 0xE8#8, 0x43#8] = .truncated ∧ decode [0x0F#8, 0xE8#8] = .truncated := by
  decide

/-- The opcode table's words, operand bits zero: each is its row's mnemonic. -/
theorem test_table_words :
    decodeTableWord 16 0xE80F = some (.psubsbMm { legacyReg [] 0 0 with rm := .mem (.indirect 0 .absent) }) ∧
    decodeTableWord 16 0xE90F = some (.psubswMm { legacyReg [] 0 0 with rm := .mem (.indirect 0 .absent) }) ∧
    decodeTableWord 32 0xE80101C4 =
      some (.vpsubsbXmmVex3 { vex3Of 15 0 (.mem (.indirect 0 .absent)) with r := true, x := true, b := true }) ∧
    decodeTableWord 24 0xE905C5 = some (.vpsubswYmmVex2 { vex2Of 15 0 (.mem (.indirect 0 .absent)) with r := true }) ∧
    decodeTableWord 40 0xE940050162 =
      some (.vpsubswZmmEvex { evexOf 15 false 0 0 (.mem (.indirect 0 .absent)) with
        r := true, x := true, b := true, rHi := true, vHi := true }) := by decide

/-! ### Lane functions (section 3) -/

theorem test_subSB_vectors : subSB 0x7F 0xFF = 0x7F ∧ subSB 0x7E 0xFF = 0x7F ∧ subSB 0x80 0x01 = 0x80 ∧ subSB 0x81 0x02 = 0x80 ∧
    subSB 0x80 0x80 = 0 ∧ subSB 0x7F 0x80 = 0x7F ∧ subSB 0 0x80 = 0x7F ∧ subSB 0 0x7F = 0x81 ∧ subSB 0xFF 0x7F = 0x80 ∧
    subSB 1 2 = 0xFF ∧ subSB 0x50 0xD0 = 0x7F ∧ subSB 0xB0 0x40 = 0x80 := by decide
theorem test_subSW_vectors : subSW 0x7FFF 0xFFFF = 0x7FFF ∧ subSW 0x7FFE 0xFFFF = 0x7FFF ∧ subSW 0x8000 1 = 0x8000 ∧
    subSW 0x8001 2 = 0x8000 ∧ subSW 0x8000 0x8000 = 0 ∧ subSW 0x7FFF 0x8000 = 0x7FFF ∧ subSW 0 0x8000 = 0x7FFF ∧
    subSW 0xFFFF 0x7FFF = 0x8000 ∧ subSW 0x1234 0x234 = 0x1000 ∧ subSW 0xFF 0x100 = 0xFFFF ∧ subSW 0x80 0xFF80 = 0x100 := by decide

/-! ### One step of each instruction (section 4) -/

/-- `V[2]` and `V[3]` of T4 and T6. -/
def bytes128 (i j : BitVec 5) : State :=
  (State.reset.setV i 0x7F80000150B0FF7E00010203F0E0D0C0#512).setV j 0xFF018002D0407FFF8001FF0510203040#512

/-- The words of T5. -/
def words128 (i j : BitVec 5) : State :=
  (State.reset.setV i 0x7FFF80000000C000123400FF00808001#512).setV j 0xFFFF00018000400102340100FF800002#512

/-- The bytes of T8. -/
def bytes256 (i j : BitVec 5) : State :=
  (State.reset.setV i 0x7F7F7F7F8080808000000000000000000102030405060708FFFEFDFCFBFAF9F8#512).setV j
    0xFF01807F017F80FF807F01FF0010203008070605040302010102030405060708#512

/-- The words of T9. -/
def words256 (i j : BitVec 5) : State :=
  (State.reset.setV i 0x7FFF7FFF8000800000000000000000000001000200030004FFFFFFFEFFFDFFFC#512).setV j
    0xFFFF80007FFF000180007FFF0001FFFF00040003000200010001000200030004#512

/-- A vector register with the same bits in every slice. -/
def fill {e : Nat} (x : BitVec e) : VecWord := pack 512 (fun _ => x)

/-- T1: the difference, and pc. -/
theorem test_T1_psubsb_mm :
    after [0x0F#8, 0xE8#8, 0xC1#8] ((State.reset.setMm 0 0x7F8000017F80FF10#64).setMm 1 0xFF01800180007F20#64)
      (fun t => (t.getMm 0, t.pc)) = some (0x7F807F007F8080F0#64, 0x1003#64) := by decide +kernel
/-- T24: an 8-bit displacement, little-endian bytes. -/
theorem test_T24_psubsb_mm_memory :
    after [0x0F#8, 0xE8#8, 0x43#8, 0x08#8]
      (poke 0x2008#64 [0x01#8, 0x02#8, 0x03#8, 0x04#8, 0x80#8, 0x7F#8, 0xFF#8, 0x00#8]
        (setGpr 3 0x2000#64 (State.reset.setMm 0 0x7FFF80FE9301007F#64)))
      (fun t => t.getMm 0) = some 0x7F00807E8FFEFE7E#64 := by decide +kernel
/-- T2. -/
theorem test_T2_psubsw_mm :
    after [0x0F#8, 0xE9#8, 0xD3#8] ((State.reset.setMm 2 0x7FFF800000011234#64).setMm 3 0xFFFF000180000234#64)
      (fun t => t.getMm 2) = some 0x7FFF80007FFF1000#64 := by decide +kernel
/-- T23. -/
theorem test_T23_psubsw_mm_memory :
    after [0x0F#8, 0xE9#8, 0x03#8]
      (poke 0x2000#64 [0x00#8, 0x80#8, 0xFF#8, 0x7F#8, 0x01#8, 0x00#8, 0x00#8, 0x80#8]
        (setGpr 3 0x2000#64 (State.reset.setMm 0 0x7F8180FF1300807F#64)))
      (fun t => t.getMm 0) = some 0x7FFF80FE9301007F#64 := by decide +kernel
/-- T4, with ones above bit 127 of the destination: they stay. -/
theorem test_T4_psubsb_xmm :
    after [0x66#8, 0x0F#8, 0xE8#8, 0xC1#8]
      ((bytes128 0 1).setV 0 (BitVec.allOnes 384 ++ 0x7F80000150B0FF7E00010203F0E0D0C0#128)) (fun t => t.getV 0) =
      some (BitVec.allOnes 384 ++ 0x7F807FFF7F80807F7F0003FEE0C0A080#128) := by decide +kernel
/-- T5. -/
theorem test_T5_psubsw_xmm :
    after [0x66#8, 0x0F#8, 0xE9#8, 0xD3#8] (words128 2 3) (fun t => t.getV 2) =
      some 0x7FFF80007FFF80001000FFFF01008000#512 := by decide +kernel
/-- T25: REX.R, an aligned memory operand. -/
theorem test_T25_psubsw_xmm_memory :
    after [0x66#8, 0x44#8, 0x0F#8, 0xE9#8, 0x07#8]
      (poke 0x3000#64 [0x01#8, 0x00#8, 0xFF#8, 0xFF#8, 0x00#8, 0x80#8, 0x34#8, 0x12#8, 0xFF#8, 0xFF#8, 0x01#8, 0x00#8, 0x01#8, 0x00#8,
          0xFF#8, 0xFF#8] (setGpr 7 0x3000#64 (State.reset.setV 8 0x7FFF80000001FFFF0000123480007FFF#512)))
      (fun t => t.getV 8) = some 0x7FFF800000000000EDCC7FFF80017FFE#512 := by decide +kernel
/-- T6, with ones in the destination before: the upper bits are zero after. -/
theorem test_T6_vpsubsb_xmm_vex2 :
    after [0xC5#8, 0xE9#8, 0xE8#8, 0xCB#8] ((bytes128 2 3).setV 1 (BitVec.allOnes 512)) (fun t => t.getV 1) =
      some 0x7F807FFF7F80807F7F0003FEE0C0A080#512 := by decide +kernel
/-- The inputs of T6 with the subtrahend in register 11 (VEX.B). -/
theorem test_T6_vpsubsb_xmm_vex3 :
    after [0xC4#8, 0xC1#8, 0x69#8, 0xE8#8, 0xCB#8] ((bytes128 2 11).setV 1 (BitVec.allOnes 512)) (fun t => (t.getV 1, t.pc)) =
      some (0x7F807FFF7F80807F7F0003FEE0C0A080#512, 0x1005#64) := by decide +kernel
/-- T7. -/
theorem test_T7_vpsubsw_xmm_vex2 :
    after [0xC5#8, 0xE9#8, 0xE9#8, 0xCB#8] ((words128 2 3).setV 1 (BitVec.allOnes 512)) (fun t => t.getV 1) =
      some 0x7FFF80007FFF80001000FFFF01008000#512 := by decide +kernel
/-- T7 in the three-byte spelling (30_encoding.md R73). -/
theorem test_T7_vpsubsw_xmm_vex3 :
    after [0xC4#8, 0xE1#8, 0x69#8, 0xE9#8, 0xCB#8] ((words128 2 3).setV 1 (BitVec.allOnes 512)) (fun t => t.getV 1) =
      some 0x7FFF80007FFF80001000FFFF01008000#512 := by decide +kernel
/-- T8. -/
theorem test_T8_vpsubsb_ymm_vex2 :
    after [0xC5#8, 0xD5#8, 0xE8#8, 0xE6#8] ((bytes256 5 6).setV 4 (BitVec.allOnes 512)) (fun t => t.getV 4) =
      some 0x7F7E7F00808000817F81FF0100F0E0D0F9FBFDFF01030507FEFCFAF8F6F4F2F0#512 := by decide +kernel
/-- T8 in the three-byte spelling. -/
theorem test_T8_vpsubsb_ymm_vex3 :
    after [0xC4#8, 0xE1#8, 0x55#8, 0xE8#8, 0xE6#8] ((bytes256 5 6).setV 4 (BitVec.allOnes 512)) (fun t => t.getV 4) =
      some 0x7F7E7F00808000817F81FF0100F0E0D0F9FBFDFF01030507FEFCFAF8F6F4F2F0#512 := by decide +kernel
/-- T9. -/
theorem test_T9_vpsubsw_ymm_vex2 :
    after [0xC5#8, 0xD5#8, 0xE9#8, 0xE6#8] ((words256 5 6).setV 4 (BitVec.allOnes 512)) (fun t => t.getV 4) =
      some 0x7FFF7FFF800080007FFF8001FFFF0001FFFDFFFF00010003FFFEFFFCFFFAFFF8#512 := by decide +kernel
/-- T9 in the three-byte spelling. -/
theorem test_T9_vpsubsw_ymm_vex3 :
    after [0xC4#8, 0xE1#8, 0x55#8, 0xE9#8, 0xE6#8] ((words256 5 6).setV 4 (BitVec.allOnes 512)) (fun t => t.getV 4) =
      some 0x7FFF7FFF800080007FFF8001FFFF0001FFFDFFFF00010003FFFEFFFCFFFAFFF8#512 := by decide +kernel
/-- T12: merging. -/
theorem test_T12_vpsubsb_xmm_evex :
    after [0x62#8, 0xF1#8, 0x6D#8, 0x09#8, 0xE8#8, 0xCB#8]
      (setK 1 0xA5A5#64 ((bytes128 2 3).setV 1 (BitVec.allOnes 384 ++ 0x11111111111111112222222222222222#128))) (fun t => t.getV 1) =
      some 0x7F117F111180117F7F22032222C02280#512 := by decide +kernel
/-- T13: mask bits above 15 are not looked at. -/
theorem test_T13_vpsubsb_xmm_evex_mask_width :
    after [0x62#8, 0xF1#8, 0x6D#8, 0x09#8, 0xE8#8, 0xCB#8]
      (setK 1 0xFFFFFFFFFFFF0000#64 ((bytes128 2 3).setV 1 0x11111111111111112222222222222222#512)) (fun t => t.getV 1) =
      some 0x11111111111111112222222222222222#512 := by decide +kernel
/-- T15: zeroing. -/
theorem test_T15_vpsubsb_ymm_evex :
    after [0x62#8, 0xF1#8, 0x6D#8, 0xA9#8, 0xE8#8, 0xCB#8] (setK 1 0xF000000F#64 ((bytes256 2 3).setV 1 (BitVec.allOnes 512)))
      (fun t => t.getV 1) = some 0x7F7E7F00000000000000000000000000000000000000000000000000F6F4F2F0#512 := by decide +kernel
/-- T17: 64 mask bits. -/
theorem test_T17_vpsubsb_zmm_evex :
    after [0x62#8, 0xF1#8, 0x6D#8, 0x49#8, 0xE8#8, 0xCB#8]
      (setK 1 0xFFFFFFFF#64 (((State.reset.setV 1 (fill 0x55#8)).setV 2 (fill 0x80#8)).setV 3 (fill 0x01#8)))
      (fun t => t.getV 1) = some ((fill 0x55#8).extractLsb' 0 256 ++ (fill 0x80#8).extractLsb' 0 256) := by decide +kernel
/-- T18: one mask bit a word, zeroing. -/
theorem test_T18_vpsubsw_xmm_evex :
    after [0x62#8, 0xF1#8, 0x6D#8, 0x89#8, 0xE9#8, 0xCB#8] (setK 1 0x5A#64 (words128 2 3)) (fun t => t.getV 1) =
      some 0x00008000000080001000000001000000#512 := by decide +kernel
/-- T19: merging. -/
theorem test_T19_vpsubsw_xmm_evex :
    after [0x62#8, 0xF1#8, 0x6D#8, 0x09#8, 0xE9#8, 0xCB#8]
      (setK 1 0x5A#64 ((words128 2 3).setV 1 0xAAAAAAAAAAAAAAAABBBBBBBBBBBBBBBB#512)) (fun t => t.getV 1) =
      some 0xAAAA8000AAAA80001000BBBB0100BBBB#512 := by decide +kernel
/-- T20. -/
theorem test_T20_vpsubsw_ymm_evex :
    after [0x62#8, 0xF1#8, 0x6D#8, 0x29#8, 0xE9#8, 0xCB#8] (setK 1 0x0FF0#64 ((words256 2 3).setV 1 (fill 0xC3#8))) (fun t => t.getV 1) =
      some 0xC3C3C3C3C3C3C3C37FFF8001FFFF0001FFFDFFFF00010003C3C3C3C3C3C3C3C3#512 := by decide +kernel
/-- T21. -/
theorem test_T21_vpsubsw_zmm_evex :
    after [0x62#8, 0xF1#8, 0x6D#8, 0xC9#8, 0xE9#8, 0xCB#8]
      (setK 1 0x80000001#64 ((State.reset.setV 2 (fill 0x8000#16)).setV 3 (fill 0x0001#16))) (fun t => t.getV 1) =
      some (0x8000#16 ++ 0#480 ++ 0x8000#16) := by decide +kernel
/-- Program 3, second instruction: registers 25 and 18, disp8 times 64 (memory at 4040H, first word F000H, the rest zero here). -/
theorem test_T28_vpsubsw_zmm_evex_memory :
    after [0x62#8, 0x61#8, 0x6D#8, 0xC5#8, 0xE9#8, 0x48#8, 0x01#8]
      (poke 0x4040#64 [0x00#8, 0xF0#8] (setGpr 0 0x4000#64 (setK 5 0x123400FF0F0F#64 (State.reset.setV 18 (fill 0x7000#16)))))
      (fun t => (lane 16 (t.getV 25) 0, lane 16 (t.getV 25) 1, lane 16 (t.getV 25) 4, t.pc)) =
      some (0x7FFF#16, 0x7000#16, 0#16, 0x1007#64) := by decide +kernel
/-- T27: no alignment fault for VEX; 20_memory.md R46. -/
theorem test_T27_vpsubsw_xmm_vex2_unaligned :
    after [0xC5#8, 0xE9#8, 0xE9#8, 0x4B#8, 0x08#8] (setGpr 3 0x2000#64 (words128 2 3)) (fun t => t.getV 1) =
      some 0x7FFF80000000C000123400FF00808001#512 := by decide +kernel
/-- 30_encoding.md R67: scale, index, base, a negative displacement, the FS base, and 32-bit address size, in one address. -/
theorem test_effective_address :
    (memRef ({ setGpr 3 0xFFFFFFFF00000010#64 (setGpr 9 0x20#64 State.reset) with fsBase := 0x5000#64 }) [.segFs, .addrSize] true false
      1 8 (.sib 2 1 3 (.d8 0xF0#8))).la = 0x5080#64 := by decide +kernel

/-! ### Faults (T26, T29 to T41) -/

def withEnabled (f : Enabled → Enabled) : State := { State.reset with enabled := f State.reset.enabled }

theorem test_T26_misaligned_legacy_operand :
    (faultOf (run [0x66#8, 0x0F#8, 0xE9#8, 0x43#8, 0x08#8] (setGpr 3 0x2000#64 State.reset)),
      faultPc (run [0x66#8, 0x0F#8, 0xE9#8, 0x43#8, 0x08#8] (setGpr 3 0x2000#64 State.reset))) = (some .gp, some 0x1000#64) := by
  decide +kernel
theorem test_T29_em : faultOf (run [0x0F#8, 0xE8#8, 0xC1#8] (withEnabled fun e => { e with cr0Em := true })) = some .ud := by decide +kernel
theorem test_T30_ts : faultOf (run [0x0F#8, 0xE8#8, 0xC1#8] (withEnabled fun e => { e with cr0Ts := true })) = some .nm := by decide +kernel
theorem test_T31_mf : faultOf (run [0x0F#8, 0xE8#8, 0xC1#8] (withEnabled fun e => { e with x87ExceptionPending := true })) = some .mf := by
  decide +kernel
theorem test_T32_nm_before_mf :
    faultOf (run [0x0F#8, 0xE8#8, 0xC1#8] (withEnabled fun e => { e with cr0Ts := true, x87ExceptionPending := true })) = some .nm := by
  decide +kernel
theorem test_T33_osfxsr : faultOf (run [0x66#8, 0x0F#8, 0xE8#8, 0xC1#8] (withEnabled fun e => { e with cr4Osfxsr := false })) = some .ud := by
  decide +kernel
theorem test_T34_no_mf_on_xmm :
    (nextOf (run [0x66#8, 0x0F#8, 0xE8#8, 0xC1#8] (withEnabled fun e => { e with x87ExceptionPending := true }))).isSome = true := by
  decide +kernel
theorem test_T35_xcr0_avx : faultOf (run [0xC5#8, 0xE9#8, 0xE8#8, 0xCB#8] (withEnabled fun e => { e with xcr0Avx := false })) = some .ud := by
  decide +kernel
theorem test_T36_avx2 :
    faultOf (run [0xC5#8, 0xED#8, 0xE8#8, 0xCB#8] { State.reset with features := { State.reset.features with avx2 := false } }) =
      some .ud := by decide +kernel
theorem test_T37_avx512vl :
    faultOf (run [0x62#8, 0xF1#8, 0x6D#8, 0x08#8, 0xE8#8, 0xCB#8]
      { State.reset with features := { State.reset.features with avx512vl := false } }) = some .ud := by decide +kernel
theorem test_T38_zmm_without_avx512vl :
    (nextOf (run [0x62#8, 0xF1#8, 0x6D#8, 0x48#8, 0xE8#8, 0xCB#8]
      { State.reset with features := { State.reset.features with avx512vl := false } })).isSome = true := by decide +kernel
theorem test_T39_xcr0_zmm :
    faultOf (run [0x62#8, 0xF1#8, 0x6D#8, 0x48#8, 0xE8#8, 0xCB#8] (withEnabled fun e => { e with xcr0Hi16Zmm := false })) = some .ud := by
  decide +kernel
/-- T40: no fault suppression; the error code of 60_exceptions.md R143 and CR2. -/
theorem test_T40_page_fault :
    faultOf (run [0x62#8, 0xF1#8, 0x6D#8, 0x49#8, 0xE8#8, 0x08#8]
      (setGpr 0 0x4000#64 { State.reset with
        faultRules := [{ kind := .read, extent := .touching 0x4000#64 0x4FFF#64, verdict := .pf 0#32 }] })) =
      some (.pf 0#32 0x4000#64) := by decide +kernel
theorem test_T41_alignment_check :
    faultOf (run [0x0F#8, 0xE8#8, 0x00#8] (setGpr 0 0x2004#64 (checking State.reset))) = some .ac := by decide +kernel
/-- 20_memory.md R51: the last byte of the operand is not canonical; RBP makes it #SS(0). -/
theorem test_non_canonical_operand :
    faultOf (run [0x0F#8, 0xE8#8, 0x00#8] (setGpr 0 0x7FFFFFFFFFF9#64 State.reset)) = some .gp ∧
    faultOf (run [0x0F#8, 0xE8#8, 0x45#8, 0x00#8] (setGpr 5 0x7FFFFFFFFFF9#64 State.reset)) = some .ss ∧
    (nextOf (run [0x0F#8, 0xE8#8, 0x00#8] (setGpr 0 0x7FFFFFFFFFF8#64 State.reset))).isSome = true := by decide +kernel
/-- A 16-byte read that starts at 4000H is not allowed; every other access is. -/
def sized : State := { State.reset with
  faultRules := [{ kind := .read, extent := .starting 0x4000#64 0x4000#64 16, verdict := .pf 0#32 }] }

/-- 20_memory.md R49: a device window is refused; 10_state.md R27, R86: a fetch past the canonical range, and 15 prefixes. -/
theorem test_device_refused :
    refusalOf (run [0x0F#8, 0xE8#8, 0x00#8] (setGpr 0 0x4000#64 { State.reset with
      faultRules := [{ kind := .read, extent := .touching 0x4007#64 0x4007#64, verdict := .device }] })) = some .deviceMemory := by
  decide +kernel
theorem test_fetch_limits :
    faultOf (run [0x0F#8, 0xE8#8] { State.reset with pc := 0x7FFFFFFFFFFE#64 }) = some .gp ∧
    faultOf (run (List.replicate 15 0x67#8) State.reset) = some .gp ∧
    faultOf (run (List.replicate 14 0x67#8 ++ [0x0F#8]) State.reset) = some .gp := by decide +kernel
/-- 00_scope.md R7: a verdict that depends on the size of the access alone; 16 bytes at 4000H fault, 8 bytes there and 16 bytes at
4010H do not. -/
theorem test_verdict_by_size :
    faultOf (run [0x66#8, 0x0F#8, 0xE8#8, 0x00#8] (setGpr 0 0x4000#64 sized)) = some (.pf 0#32 0x4000#64) ∧
    (nextOf (run [0x0F#8, 0xE8#8, 0x00#8] (setGpr 0 0x4000#64 sized))).isSome = true ∧
    (nextOf (run [0x66#8, 0x0F#8, 0xE8#8, 0x00#8] (setGpr 0 0x4010#64 sized))).isSome = true := by decide +kernel
/-- 30_encoding.md R67, 10_state.md R26: with 67 the sum wraps at 32 bits, and the FS base is added after that. -/
theorem test_address_size_with_segment :
    (memRef (setGpr 0 0xFFFFFFFF#64 { State.reset with fsBase := 0x700000000#64 }) [.segFs, .addrSize] false false 1 5
      (.indirect 0 (.d8 0x11#8))).la = 0x700000010#64 := by decide +kernel
/-- 00_scope.md R6. -/
theorem test_other_mode : refusalOf (step { State.reset with mode := .virtual8086 }) = some (.otherMode .virtual8086) := by decide +kernel
/-- Memory at reset is 00 bytes, which are no instruction of the spec (log 5, log 6). -/
theorem test_reset_runs_nothing : refusalOf (step State.reset) = some (.bytes .otherOpcode) := by decide +kernel
theorem test_withFetchWord :
    (nextOf (step (State.reset.withFetchWord 16 0xE80F))).isSome = true ∧
    (nextOf (step (State.reset.withFetchWord 24 0xE805C5))).isSome = true ∧
    (nextOf (step (State.reset.withFetchWord 32 0xE90105C4))).isSome = false ∧
    (nextOf (step (State.reset.withFetchWord 32 0xE90501C4))).isSome = true ∧
    (nextOf (step (State.reset.withFetchWord 40 0xE940050162))).isSome = true := by decide +kernel

/-! ### Witnesses: the hypotheses of the obligations can be met

Free Booleans are opaque, so of the two clauses of `Obligations.UnalignedVectorOperandEitherWay` one applies in the witness's state
and none can say which. -/

theorem test_witness_saturation : ((127 : Int) < 128 ∧ satS8 128 = 0x7F) ∧ ((-129 : Int) < -128 ∧ satS8 (-129) = 0x80) ∧
    satS8 127 = 0x7F ∧ satS8 (-128) = 0x80 ∧ satS16 32768 = 0x7FFF ∧ satS16 (-32769) = 0x8000 ∧ satS16 32767 = 0x7FFF ∧
    satS16 (-32768) = 0x8000 := by decide
theorem test_witness_lane_saturates : subSB 0x7F 0xFF ≠ 0x7F - 0xFF ∧ subSB 0x80 1 ≠ 0x80 - 1 ∧ subSW 0x7FFF 0xFFFF ≠ 0x7FFF - 0xFFFF ∧
    subSW 0x8000 1 ≠ 0x8000 - 1 := by decide
theorem test_witness_lane_laws : (0x7F : BitVec 8) ≠ 0x80 ∧ (0x7FFF : BitVec 16) ≠ 0x8000 ∧
    (0x80 : BitVec 8).toInt ≤ (0x7F : BitVec 8).toInt ∧ (0x8000 : BitVec 16).toInt ≤ (0x7FFF : BitVec 16).toInt := by decide

theorem ready_mmx : MmxReady State.reset := ⟨rfl, rfl, rfl, rfl⟩
theorem ready_xmm : XmmReady State.reset := ⟨rfl, rfl, rfl, rfl⟩
theorem ready_avx : AvxReady State.reset := ⟨rfl, rfl, rfl, rfl⟩
theorem ready_vex128 : Vex128Ready State.reset := ⟨rfl, ready_avx⟩
theorem ready_vex256 : Vex256Ready State.reset := ⟨rfl, ready_avx⟩
theorem ready_evex (vl : VecLen) : EvexReady State.reset vl := ⟨⟨rfl, ready_avx, rfl, rfl, rfl⟩, fun _ => rfl⟩

/-- Every vector register is zero in the state after reset (log 3). -/
theorem reset_readVec (w : Nat) (i : BitVec 5) : 0#w = State.reset.readVec w i := by
  simp [State.readVec, State.getV, State.reset]

/-- `[rax]`, at address 0 in the state after reset, and `[rax+1]`. -/
def atRax : RegMem := .mem (.indirect 0 .absent)
def atRax1 : RegMem := .mem (.indirect 0 (.d8 1))

theorem test_witness_mmx_result_register : MmxReady State.reset ∧ MmxOperand (legacyReg [] 0 1) State.reset 0#64 := ⟨ready_mmx, rfl⟩
/-- An unaligned operand, alignment checking off. -/
theorem test_witness_mmx_result_memory : MmxReady State.reset ∧ MmxOperand { legacyReg [] 0 0 with rm := atRax1 } State.reset 0#64 :=
  ⟨ready_mmx, (mmxSource_ok_iff _ _ _).1 rfl⟩
theorem test_witness_xmm_result_register : XmmReady State.reset ∧ XmmOperand (legacyReg [.opSize] 0 1) State.reset 0#128 ∧
    (0#5 = xmmNum (rexR (legacyReg [.opSize] 0 1).rex) (legacyReg [.opSize] 0 1).reg) := ⟨ready_xmm, reset_readVec _ _, rfl⟩
theorem test_witness_xmm_result_memory : XmmReady State.reset ∧
    XmmOperand { legacyReg [.opSize] 0 0 with rm := atRax } State.reset 0#128 := ⟨ready_xmm, (xmmSource_ok_iff _ _ _).1 rfl⟩
theorem test_witness_vex128_result_register : Vex128Ready State.reset ∧ VexOperand (vex3Of 2 1 (.reg 3)) 5 State.reset 0#128 ∧
    VexOperand (vex2Fields (vex2Of 2 1 (.reg 3))) 4 State.reset 0#128 ∧ (1#5 = xmmNum false 1) := ⟨ready_vex128, reset_readVec _ _, reset_readVec _ _, rfl⟩
theorem test_witness_vex128_result_memory : Vex128Ready State.reset ∧ VexOperand (vex3Of 2 1 atRax1) 6 State.reset 0#128 ∧
    VexOperand (vex2Fields (vex2Of 2 1 atRax1)) 5 State.reset 0#128 :=
  ⟨ready_vex128, (vexSource_ok_iff 128 rfl _ _ _ _).1 rfl, (vexSource_ok_iff 128 rfl _ _ _ _).1 rfl⟩
theorem test_witness_vex256_result_register : Vex256Ready State.reset ∧ VexOperand (vex3Of 2 1 (.reg 3)) 5 State.reset 0#256 ∧
    VexOperand (vex2Fields (vex2Of 2 1 (.reg 3))) 4 State.reset 0#256 := ⟨ready_vex256, reset_readVec _ _, reset_readVec _ _⟩
theorem test_witness_vex256_result_memory : Vex256Ready State.reset ∧ VexOperand (vex3Of 2 1 atRax1) 6 State.reset 0#256 ∧
    VexOperand (vex2Fields (vex2Of 2 1 atRax1)) 5 State.reset 0#256 :=
  ⟨ready_vex256, (vexSource_ok_iff 256 rfl _ _ _ _).1 rfl, (vexSource_ok_iff 256 rfl _ _ _ _).1 rfl⟩
theorem test_witness_evex_result_register : EvexReady State.reset .vl128 ∧ EvexReady State.reset .vl256 ∧ EvexReady State.reset .vl512 ∧
    EvexOperand (evexOf 2 false 0 1 (.reg 3)) State.reset 0#128 ∧ EvexOperand (evexOf 2 false 0 1 (.reg 3)) State.reset 0#256 ∧
    EvexOperand (evexOf 2 false 0 1 (.reg 3)) State.reset 0#512 ∧ (17#5 = zmmNum true false 1) :=
  ⟨ready_evex _, ready_evex _, ready_evex _, reset_readVec _ _, reset_readVec _ _, reset_readVec _ _, rfl⟩
/-- A masked form, its disp8 scaled. -/
theorem test_witness_evex_result_memory : EvexOperand (evexOf 2 true 1 1 atRax1) State.reset 0#128 ∧
    EvexOperand (evexOf 2 true 1 1 atRax1) State.reset 0#256 ∧ EvexOperand (evexOf 2 false 7 1 atRax1) State.reset 0#512 :=
  ⟨(evexSource_ok_iff 128 rfl _ _ _).1 rfl, (evexSource_ok_iff 256 rfl _ _ _).1 rfl, (evexSource_ok_iff 512 rfl _ _ _).1 rfl⟩
/-- The three cases of a mask bit. -/
theorem test_witness_mask_bits : ((setK 1 1#64 State.reset).getK 1).getLsbD 0 = true ∧
    ((setK 1 1#64 State.reset).getK 1).getLsbD 1 = false ∧ (evexOf 2 true 1 1 (.reg 3)).z = true ∧
    (evexOf 2 false 1 1 (.reg 3)).z = false ∧ (1#3 ≠ 0#3) := by decide

/-- One state for each clause of the MMX gate. -/
theorem test_witness_mmx_gate :
    (withEnabled fun e => { e with cr0Em := true }).enabled.cr0Em = true ∧
    ((withEnabled fun e => { e with cr0Ts := true }).features.mmx = true ∧ (withEnabled fun e => { e with cr0Ts := true }).enabled.cr0Em = false ∧
      (withEnabled fun e => { e with cr0Ts := true }).enabled.cr0Ts = true) ∧
    ((withEnabled fun e => { e with x87ExceptionPending := true }).features.mmx = true ∧
      (withEnabled fun e => { e with x87ExceptionPending := true }).enabled.cr0Em = false ∧
      (withEnabled fun e => { e with x87ExceptionPending := true }).enabled.cr0Ts = false ∧
      (withEnabled fun e => { e with x87ExceptionPending := true }).enabled.x87ExceptionPending = true) ∧
    (Instr.psubsbMm (legacyReg [] 0 1) ∈ [Instr.psubsbMm (legacyReg [] 0 1), Instr.psubswMm (legacyReg [] 0 1)]) := by decide
theorem test_witness_xmm_gate :
    (withEnabled fun e => { e with cr4Osfxsr := false }).enabled.cr4Osfxsr = false ∧
    ((withEnabled fun e => { e with cr0Ts := true }).features.sse2 = true ∧ (withEnabled fun e => { e with cr0Ts := true }).enabled.cr0Em = false ∧
      (withEnabled fun e => { e with cr0Ts := true }).enabled.cr4Osfxsr = true ∧
      (withEnabled fun e => { e with cr0Ts := true }).enabled.cr0Ts = true) := by decide
/-- The VEX and EVEX gates: a feature absent, an enabling bit off, and CR0.TS with all of them on. -/
theorem test_witness_vex_gate :
    ({ State.reset with features := { State.reset.features with avx2 := false } } : State).features.avx2 = false ∧
    (withEnabled fun e => { e with xcr0Avx := false }).enabled.xcr0Avx = false ∧
    (withEnabled fun e => { e with xcr0Opmask := false }).enabled.xcr0Opmask = false ∧
    ((withEnabled fun e => { e with cr0Ts := true }).features = State.reset.features ∧
      (withEnabled fun e => { e with cr0Ts := true }).enabled = { State.reset.enabled with cr0Ts := true }) := by decide

theorem test_witness_misaligned_xmm : XmmReady State.reset ∧
    (legacyRef { legacyReg [.opSize] 0 0 with rm := atRax1 } State.reset (.indirect 0 (.d8 1))).la.toNat % 16 ≠ 0 :=
  ⟨ready_xmm, by decide +kernel⟩
theorem test_witness_mmx_alignment_check : MmxReady (checking State.reset) ∧
    Readable (checking State.reset) (legacyRef { legacyReg [] 0 0 with rm := atRax1 } (checking State.reset) (.indirect 0 (.d8 1))).la.toNat 8 ∧
    (checking State.reset).enabled.cr0Am = true ∧ (checking State.reset).rflags.getLsbD 18 = true ∧ (checking State.reset).cpl = 3#2 ∧
    (legacyRef { legacyReg [] 0 0 with rm := atRax1 } (checking State.reset) (.indirect 0 (.d8 1))).la.toNat % 8 ≠ 0 :=
  ⟨⟨rfl, rfl, rfl, rfl⟩, ⟨rfl, rfl⟩, rfl, rfl, rfl, by decide +kernel⟩
theorem test_witness_unaligned_vector : isVexOrEvexForm (.vpsubswYmmVex2 (vex2Of 2 1 atRax1)) = true ∧
    Ready (.vpsubswYmmVex2 (vex2Of 2 1 atRax1)) (checking State.reset) ∧
    operandRef (.vpsubswYmmVex2 (vex2Of 2 1 atRax1)) (checking State.reset) = some { la := 1#64, ssRel := false } ∧
    Readable (checking State.reset) 1 32 ∧ (checking State.reset).alignmentCheck = true ∧ (1 % 32 ≠ 0) :=
  ⟨rfl, ⟨rfl, rfl, rfl, rfl, rfl⟩, by decide +kernel, ⟨rfl, rfl⟩, by decide, by decide⟩
/-- #GP(0) through RAX, #SS(0) through RBP; an XMM legacy operand that is aligned. -/
theorem test_witness_non_canonical :
    (Ready (.psubsbMm { legacyReg [] 0 0 with rm := atRax }) (setGpr 0 0x7FFFFFFFFFF9#64 State.reset) ∧
      operandRef (.psubsbMm { legacyReg [] 0 0 with rm := atRax }) (setGpr 0 0x7FFFFFFFFFF9#64 State.reset) =
        some { la := 0x7FFFFFFFFFF9#64, ssRel := false } ∧
      (setGpr 0 0x7FFFFFFFFFF9#64 State.reset).canonicalRange 0x7FFFFFFFFFF9 8 = false) ∧
    (Ready (.psubsbXmm { legacyReg [.opSize] 0 0 with rm := .mem (.indirect 5 (.d8 0)) }) (setGpr 5 0x800000000000#64 State.reset) ∧
      operandRef (.psubsbXmm { legacyReg [.opSize] 0 0 with rm := .mem (.indirect 5 (.d8 0)) }) (setGpr 5 0x800000000000#64 State.reset) =
        some { la := 0x800000000000#64, ssRel := true } ∧
      0x800000000000 % 16 = 0 ∧ (setGpr 5 0x800000000000#64 State.reset).canonicalRange 0x800000000000 16 = false) :=
  ⟨⟨⟨rfl, rfl, rfl, rfl⟩, by decide +kernel, by decide +kernel⟩, ⟨rfl, rfl, rfl, rfl⟩, by decide +kernel, by decide, by decide +kernel⟩

/-- A state in which a read of the first 4096 bytes gets this verdict. -/
def guarded (v : Verdict) : State := { State.reset with faultRules := [{ kind := .read, extent := .touching 0#64 0xFFF#64, verdict := v }] }

/-- Each verdict, on a form whose mask is all zeros (K[1] = 0). -/
theorem test_witness_verdicts : Ready (.vpsubsbZmmEvex (evexOf 2 false 1 1 atRax)) (guarded .gp) ∧
    operandRef (.vpsubsbZmmEvex (evexOf 2 false 1 1 atRax)) (guarded .gp) = some { la := 0#64, ssRel := false } ∧
    (guarded .gp).canonicalRange 0 64 = true ∧ (guarded .gp).memFault 0 64 .read = some (.exc .gp) ∧
    (guarded .ss).memFault 0 64 .read = some (.exc .ss) ∧ (guarded (.pf 3#32)).memFault 0 64 .read = some (.exc (.pf 1#32 0#64)) ∧
    (guarded .device).memFault 0 64 .read = some (.refuse .deviceMemory) :=
  ⟨⟨⟨rfl, ⟨rfl, rfl, rfl, rfl⟩, rfl, rfl, rfl⟩, fun _ => rfl⟩, by decide +kernel, by decide +kernel, by decide +kernel,
    by decide +kernel, by decide +kernel, by decide +kernel⟩
theorem test_witness_page_fault : exec (.psubsbMm { legacyReg [] 0 0 with rm := atRax }) (guarded (.pf 0#32)) =
    .fault (.raised (.pf 0#32 0#64) (guarded (.pf 0#32))) := by rfl
/-- #MF, #AC(0), and #UD on a register operand; a whole step that faults. -/
theorem test_witness_exceptions :
    (∃ t, exec (.psubsbMm (legacyReg [] 0 1)) (withEnabled fun e => { e with x87ExceptionPending := true }) = .fault (.raised .mf t)) ∧
    (∃ t, exec (.psubsbMm { legacyReg [] 0 0 with rm := atRax1 }) (checking State.reset) = .fault (.raised .ac t)) ∧
    (∃ t, exec (.psubsbXmm (legacyReg [.opSize] 0 1)) (withEnabled fun e => { e with cr0Em := true }) = .fault (.raised .ud t)) ∧
    (∃ t, step (load [0x0F#8, 0xE8#8, 0xC1#8] (withEnabled fun e => { e with cr0Ts := true })) = .fault (.raised .nm t)) :=
  ⟨⟨_, rfl⟩, ⟨_, rfl⟩, ⟨_, rfl⟩, ⟨_, rfl⟩⟩

theorem test_witness_exec_next : ∃ t, exec (.psubsbMm (legacyReg [] 0 1)) State.reset = .next t := ⟨_, rfl⟩
theorem test_witness_pc_in_range : State.reset.pc.toNat + (Instr.psubsbMm (legacyReg [] 0 1)).len < 2 ^ 64 := by decide +kernel
theorem test_witness_step_next : (load [0x0F#8, 0xE8#8, 0xC1#8] State.reset).Inv ∧
    ∃ t, step (load [0x0F#8, 0xE8#8, 0xC1#8] State.reset) = .next t := ⟨by decide +kernel, _, rfl⟩
/-- A run of one instruction to its end address. -/
theorem test_witness_run : ({ load [0x66#8, 0x0F#8, 0xE8#8, 0xC1#8] State.reset with endAddr := some 0x1004#64 } : State).Inv ∧
    ∃ t, runToEnd 2 { load [0x66#8, 0x0F#8, 0xE8#8, 0xC1#8] State.reset with endAddr := some 0x1004#64 } = .ended t :=
  ⟨by decide +kernel, _, rfl⟩
theorem test_witness_run_going_on : ∃ t, runToEnd 0 State.reset = .running t := ⟨_, rfl⟩
/-- pc two bytes below the top of the lower canonical half. -/
def atTop : State := { State.reset with pc := 0x7FFFFFFFFFFE#64 }
/-- A device window from the third instruction byte on. -/
def codeDevice : State := { State.reset with
  faultRules := [{ kind := .fetch, extent := .touching 0x1002#64 0x1FFF#64, verdict := .device }] }
/-- Fourteen prefixes and the first byte of an opcode: fifteen bytes without an instruction. -/
def overLong : List Byte := List.replicate 14 0x67#8 ++ [0x0F#8]

theorem test_witness_step_decodes : (load [0x0F#8, 0xE8#8, 0xC1#8] State.reset).mode = .long64 ∧
    decode (load [0x0F#8, 0xE8#8, 0xC1#8] State.reset).fetch.1 = .instr (.psubsbMm (legacyReg [] 0 1)) ∧
    decode (load [0xF3#8, 0x0F#8, 0xE8#8, 0xC1#8] State.reset).fetch.1 = .invalid ∧
    decode (load [0x0F#8, 0x05#8] State.reset).fetch.1 = .refused .otherOpcode := by decide +kernel
/-- Bytes that end too early: at a non-canonical byte, at a device window, and with nothing in the way. -/
theorem test_witness_step_truncated :
    (decode (load [0x0F#8, 0xE8#8] atTop).fetch.1 = .truncated ∧ (load [0x0F#8, 0xE8#8] atTop).fetch.2 = some (.exc .gp)) ∧
    (decode (load [0x0F#8, 0xE8#8] codeDevice).fetch.1 = .truncated ∧
      (load [0x0F#8, 0xE8#8] codeDevice).fetch.2 = some (.refuse .deviceMemory)) ∧
    (decode (load overLong State.reset).fetch.1 = .truncated ∧ (load overLong State.reset).fetch.2 = none) := by decide +kernel
theorem test_witness_other_mode : ({ State.reset with mode := .compatibility } : State).mode ≠ .long64 := by decide
theorem test_witness_encoded_bytes : (Instr.psubsbMm (legacyReg [] 0 1)).wf = true ∧
    (load [0x0F#8, 0xE8#8, 0xC1#8] State.reset).mode = .long64 ∧ encode (.psubsbMm (legacyReg [] 0 1)) = [0x0F#8, 0xE8#8, 0xC1#8] ∧
    ∀ k, k < 3 → (load [0x0F#8, 0xE8#8, 0xC1#8] State.reset).fetchStop (0x1000 + k) = none ∧
      some ((load [0x0F#8, 0xE8#8, 0xC1#8] State.reset).mem.read (0x1000 + k)) = ([0x0F#8, 0xE8#8, 0xC1#8] : List Byte)[k]? := by
  decide +kernel
theorem test_witness_fetch_limits : ({ State.reset with pc := 0x800000000000#64 } : State).canonicalRange 0x800000000000 1 = false ∧
    ∀ k, k < 15 → (load (List.replicate 15 0x67#8) State.reset).fetchStop (0x1000 + k) = none ∧
      isPrefixByte ((load (List.replicate 15 0x67#8) State.reset).mem.read (0x1000 + k)) = true := by decide +kernel
/-- The first byte that cannot be fetched is the third: not canonical, or in a device window; and fifteen bytes that all can. -/
theorem test_witness_fetch_stops :
    ((∀ j, j < 2 → (load [0x0F#8, 0xE8#8] atTop).fetchStop (0x7FFFFFFFFFFE + j) = none) ∧
      (load [0x0F#8, 0xE8#8] atTop).fetchStop (0x7FFFFFFFFFFE + 2) = some (.exc .gp) ∧
      (load [0x0F#8, 0xE8#8] atTop).canonicalRange (0x7FFFFFFFFFFE + 2) 1 = false) ∧
    ((∀ j, j < 2 → (load [0x0F#8, 0xE8#8] codeDevice).fetchStop (0x1000 + j) = none) ∧
      (load [0x0F#8, 0xE8#8] codeDevice).fetchStop (0x1000 + 2) = some (.refuse .deviceMemory)) ∧
    (∀ k, k < 15 → (load overLong State.reset).fetchStop (0x1000 + k) = none) := by decide +kernel
/-- A table and a function that agree, one for each verdict and one for none. -/
theorem test_witness_verdict_function : 16 ∈ [8, 16] ∧
    (∃ f : Word64 → Nat → AccessKind → Option Verdict, f 1#64 16 .read = some .gp ∧ f 2#64 16 .read = some .ss ∧
      f 3#64 16 .read = some (.pf 0#32) ∧ f 4#64 16 .fetch = some .device ∧ f 0#64 16 .read = none) :=
  ⟨by decide, fun a _ _ => if a = 1#64 then some .gp else if a = 2#64 then some .ss else if a = 3#64 then some (.pf 0#32)
    else if a = 4#64 then some .device else none, rfl, rfl, rfl, rfl, rfl⟩
/-- Each EVEX field at a reserved value: the bytes of section 2. -/
theorem test_witness_evex_reserved : (0xF5#8 : Byte).extractLsb' 2 2 ≠ 0#2 ∧ (0xF5#8 : Byte).extractLsb' 0 2 = 1#2 ∧
    (0x69#8 : Byte).getLsbD 2 = false ∧ (0x69#8 : Byte).extractLsb' 0 2 = 1#2 ∧ (0x68#8 : Byte).extractLsb' 5 2 = 3#2 ∧
    (0x18#8 : Byte).getLsbD 4 = true ∧ (0x88#8 : Byte).getLsbD 7 = true ∧ (0x88#8 : Byte).extractLsb' 0 3 = 0#3 ∧
    (RegMem.reg 3).wf = true := by decide
theorem test_witness_prefixes : (Instr.psubsbXmm (legacyReg [.segGs, .opSize] 0 1)).wf = true ∧
    Pfx.segFs.group = Pfx.segGs.group ∧ Pfx.segGs ∈ instrPfx (.psubsbXmm (legacyReg [.segGs, .opSize] 0 1)) ∧
    (Instr.vpsubsbXmmVex2 (vex2Of 2 1 (.reg 3))).wf = true ∧ isVexOrEvexForm (.vpsubsbXmmVex2 (vex2Of 2 1 (.reg 3))) = true ∧
    (0x4F#8 : Byte).extractLsb' 4 4 = 4#4 := by decide
theorem test_witness_rex_on_mmx : pfxNoOpSize [.segFs] = true ∧ (RegMem.reg 1).wf = true ∧ (RegMem.reg 1).isReg = true ∧
    atRax.wf = true := by decide
/-- The functions of the address statements exist: the model's own, at a scale of 16. -/
theorem test_witness_address_terms : ([.segGs] : List Pfx).contains .addrSize = false ∧ pfxDistinct [.segGs] = true ∧
    dispTerm 16 .absent = 0#64 ∧ (∀ d, dispTerm 16 (.d8 d) = d.signExtend 64 * BitVec.ofNat 64 16) ∧
    (∀ d, dispTerm 16 (.d32 d) = d.signExtend 64) ∧ ([.addrSize] : List Pfx).contains .addrSize = true :=
  ⟨by decide, by decide, rfl, fun _ => rfl, fun _ => rfl, by decide⟩
/-- The same for 32-bit addresses, and a base for each override. -/
theorem test_witness_address_terms_32 : ([.segFs, .addrSize] : List Pfx).contains .addrSize = true ∧
    (if ([.segFs, .addrSize] : List Pfx).contains .segFs then State.reset.fsBase else 0#64) = 0#64 ∧
    ∃ (low : BitVec 4 → BitVec 32) (disp : Disp → BitVec 32) (index : BitVec 2 → BitVec 3 → BitVec 32),
      (∀ i, low i = (State.reset.getGpr i).setWidth 32) ∧ disp .absent = 0#32 ∧
      (∀ d, disp (.d8 d) = d.signExtend 32 * BitVec.ofNat 32 16) ∧ (∀ d, disp (.d32 d) = d) ∧
      (∀ ss iii, index ss iii = if BitVec.ofBool true ++ iii = 4#4 then 0#32 else
        low (BitVec.ofBool true ++ iii) * BitVec.ofNat 32 (2 ^ ss.toNat)) :=
  ⟨by decide, rfl, fun i => (State.reset.getGpr i).setWidth 32,
    fun d => Disp.casesOn d 0#32 (fun b => b.signExtend 32 * BitVec.ofNat 32 16) id,
    fun ss iii => if BitVec.ofBool true ++ iii = 4#4 then 0#32 else
      (State.reset.getGpr (BitVec.ofBool true ++ iii)).setWidth 32 * BitVec.ofNat 32 (2 ^ ss.toNat),
    fun _ => rfl, rfl, fun _ => rfl, fun _ => rfl, fun _ _ => rfl⟩
theorem test_witness_families_agree : (evexOf 2 false 0 1 (.reg 3)).aaa = 0#3 ∧ (evexOf 2 false 0 1 (.reg 3)).rHi = false ∧
    EvexOperand (evexOf 2 false 0 1 (.reg 3)) State.reset 0#128 ∧ VexOperand (vex3Of 2 1 (.reg 3)) 5 State.reset 0#128 ∧
    XmmOperand (legacyReg [.opSize] 1 3) State.reset 0#128 ∧ xmmNum false 1 = vvvvNum 1 :=
  ⟨rfl, rfl, reset_readVec _ _, reset_readVec _ _, reset_readVec _ _, rfl⟩
theorem test_witness_self_operand : (legacyReg [] 1 1).rm = .reg (legacyReg [] 1 1).reg ∧
    xmmNum (rexB (legacyReg [.opSize] 1 1).rex) 1 = xmmNum (rexR (legacyReg [.opSize] 1 1).rex) 1 := ⟨rfl, rfl⟩
/-- Two opmask files that differ above bit 7 of K[1] and in K[0], for an eight-element form. -/
theorem test_witness_mask_agreement : ∀ (r : BitVec 3) (j : Fin 8), r ≠ 0#3 →
    ((setK 0 1#64 (setK 1 0x1FF#64 State.reset)).getK r).getLsbD j = ((setK 1 0xFF#64 State.reset).getK r).getLsbD j := by decide +kernel
theorem test_witness_flags : (0xAD7#64 : Word64).getLsbD 18 = State.reset.rflags.getLsbD 18 := by decide

end Sys2Proof.Tests
end

section
/-! Signed saturation at any element width: the model's two lane functions are its values at 8 and at 16 bits, so each law of
00_scope.md R12 to R16 is proved once, for every width. -/

namespace Sys2Proof.Machine

/-- The `n`-bit signed saturation of an integer (00_scope.md R13, R14). -/
def signedSat (n : Nat) (x : Int) : BitVec n :=
  if 2 ^ (n - 1) - 1 < x then BitVec.intMax n else if x < -2 ^ (n - 1) then BitVec.intMin n else BitVec.ofInt n x

/-- The exact signed difference of two `n`-bit elements, saturated (00_scope.md R15). -/
def signedSatSub {n : Nat} (a b : BitVec n) : BitVec n := signedSat n (a.toInt - b.toInt)

theorem satS8_eq : satS8 = signedSat 8 := rfl
theorem satS16_eq : satS16 = signedSat 16 := rfl
theorem subSB_eq : subSB = signedSatSub := rfl
theorem subSW_eq : subSW = signedSatSub := rfl

/-! ### Saturation -/

theorem signedSat_of_gt {n : Nat} {x : Int} (h : 2 ^ (n - 1) - 1 < x) : signedSat n x = BitVec.intMax n := if_pos h

theorem signedSat_of_lt {n : Nat} {x : Int} (h : x < -2 ^ (n - 1)) : signedSat n x = BitVec.intMin n := by
  have hpos : (0 : Int) < 2 ^ (n - 1) := by positivity
  rw [signedSat, if_neg (by omega), if_pos h]

theorem signedSat_of_mem {n : Nat} {x : Int} (hlo : -2 ^ (n - 1) ≤ x) (hhi : x ≤ 2 ^ (n - 1) - 1) :
    signedSat n x = BitVec.ofInt n x := by
  rw [signedSat, if_neg (by omega), if_neg (by omega)]

/-- Saturation clamps to the signed range of the element. -/
theorem toInt_signedSat {n : Nat} (hn : 0 < n) (x : Int) :
    (signedSat n x).toInt = max (-2 ^ (n - 1)) (min (2 ^ (n - 1) - 1) x) := by
  have hpos : (0 : Int) < 2 ^ (n - 1) := by positivity
  rcases lt_or_ge (2 ^ (n - 1) - 1) x with hgt | hhi
  · rw [signedSat_of_gt hgt, BitVec.toInt_intMax]
    omega
  · rcases lt_or_ge x (-2 ^ (n - 1)) with hlt | hlo
    · rw [signedSat_of_lt hlt, BitVec.toInt_intMin_of_pos hn]
      omega
    · rw [signedSat_of_mem hlo hhi, BitVec.toInt_ofInt_eq_self hn hlo (by omega)]
      omega

/-- An integer in the signed range is denoted by its saturation. -/
theorem toInt_signedSat_of_mem {n : Nat} (hn : 0 < n) {x : Int} (hlo : -2 ^ (n - 1) ≤ x) (hhi : x ≤ 2 ^ (n - 1) - 1) :
    (signedSat n x).toInt = x := by
  rw [toInt_signedSat hn]
  omega

/-- As an unsigned number the saturation of an integer in range is the integer modulo 2^n. -/
theorem toNat_signedSat_of_mem {n : Nat} {x : Int} (hlo : -2 ^ (n - 1) ≤ x) (hhi : x ≤ 2 ^ (n - 1) - 1) :
    ((signedSat n x).toNat : Int) = x % 2 ^ n := by
  have hmod : 0 ≤ x % ((2 ^ n : Nat) : Int) := Int.emod_nonneg _ (by positivity)
  rw [signedSat_of_mem hlo hhi, BitVec.toNat_ofInt, Int.toNat_of_nonneg hmod, Nat.cast_pow, Nat.cast_ofNat]

/-! ### The saturated difference -/

/-- 00_scope.md R12 to R15 at every width: the exact difference, clamped. -/
theorem toInt_signedSatSub {n : Nat} (hn : 0 < n) (a b : BitVec n) :
    (signedSatSub a b).toInt = max (-2 ^ (n - 1)) (min (2 ^ (n - 1) - 1) (a.toInt - b.toInt)) := toInt_signedSat hn _

theorem signedSatSub_self {n : Nat} (hn : 0 < n) (a : BitVec n) : signedSatSub a a = 0#n := by
  have hpos : (0 : Int) < 2 ^ (n - 1) := by positivity
  apply BitVec.eq_of_toInt_eq
  rw [toInt_signedSatSub hn, BitVec.toInt_zero]
  omega

theorem signedSatSub_zero {n : Nat} (hn : 0 < n) (a : BitVec n) : signedSatSub a 0#n = a := by
  have hlo := BitVec.le_toInt a
  have hhi := BitVec.toInt_lt (x := a)
  apply BitVec.eq_of_toInt_eq
  rw [toInt_signedSatSub hn, BitVec.toInt_zero]
  omega

/-- The negation of the least value is out of range. -/
theorem zero_signedSatSub_intMin {n : Nat} (hn : 0 < n) : signedSatSub 0#n (BitVec.intMin n) = BitVec.intMax n := by
  have hpos : (0 : Int) < 2 ^ (n - 1) := by positivity
  apply signedSat_of_gt
  rw [BitVec.toInt_zero, BitVec.toInt_intMin_of_pos hn]
  omega

theorem zero_signedSatSub_of_ne_intMin {n : Nat} (hn : 0 < n) {b : BitVec n} (hb : b ≠ BitVec.intMin n) :
    signedSatSub 0#n b = -b := by
  have hneg := BitVec.toInt_neg_of_ne_intMin hb
  have hlo := BitVec.le_toInt (-b)
  have hhi := BitVec.toInt_lt (x := -b)
  apply BitVec.eq_of_toInt_eq
  rw [toInt_signedSatSub hn, BitVec.toInt_zero, hneg]
  omega

theorem toInt_signedSatSub_mono {n : Nat} (hn : 0 < n) {a b a' b' : BitVec n} (ha : a.toInt ≤ a'.toInt)
    (hb : b'.toInt ≤ b.toInt) : (signedSatSub a b).toInt ≤ (signedSatSub a' b').toInt := by
  rw [toInt_signedSatSub hn, toInt_signedSatSub hn]
  omega

/-! ### Signed overflow (00_scope.md R16, the seventh law) -/

/-- Signed overflow of a difference, by the signs of the operands and of the modular difference. -/
theorem ssubOverflow_iff_msb {n : Nat} (a b : BitVec n) :
    BitVec.ssubOverflow a b = true ↔ a.msb ≠ b.msb ∧ (a - b).msb ≠ a.msb := by
  rw [BitVec.ssubOverflow_eq]
  cases a.msb <;> cases b.msb <;> simp

/-- Without signed overflow nothing is saturated. -/
theorem signedSatSub_of_not_ssubOverflow {n : Nat} (hn : 0 < n) {a b : BitVec n} (h : ¬BitVec.ssubOverflow a b = true) :
    signedSatSub a b = a - b := by
  have hsub := BitVec.toInt_sub_of_not_ssubOverflow h
  have hlo := BitVec.le_toInt (a - b)
  have hhi := BitVec.toInt_lt (x := a - b)
  apply BitVec.eq_of_toInt_eq
  rw [toInt_signedSatSub hn, ← hsub]
  omega

/-- With signed overflow the result is the bound on the minuend's side. -/
theorem signedSatSub_of_ssubOverflow {n : Nat} {a b : BitVec n} (h : BitVec.ssubOverflow a b = true) :
    signedSatSub a b = if a.msb then BitVec.intMin n else BitVec.intMax n := by
  have hb := BitVec.le_toInt b
  have hb' := BitVec.toInt_lt (x := b)
  simp only [BitVec.ssubOverflow, ge_iff_le, Bool.or_eq_true, decide_eq_true_eq] at h
  cases ha : a.msb with
  | true =>
    have := BitVec.toInt_neg_of_msb_true ha
    exact signedSat_of_lt (by omega)
  | false =>
    have := BitVec.toInt_nonneg_of_msb_false ha
    exact signedSat_of_gt (by omega)

/-- The bound that signed overflow gives has the minuend's sign. -/
theorem msb_signedSatSub_of_ssubOverflow {n : Nat} (hn : 0 < n) {a b : BitVec n} (h : BitVec.ssubOverflow a b = true) :
    (signedSatSub a b).msb = a.msb := by
  have hpos : (0 : Int) < 2 ^ (n - 1) := by positivity
  rw [signedSatSub_of_ssubOverflow h]
  cases a.msb with
  | true => simpa [BitVec.msb_intMin] using hn
  | false =>
    simp only [Bool.false_eq_true, if_false, BitVec.msb_eq_toInt, BitVec.toInt_intMax, decide_eq_false_iff_not]
    omega

theorem signedSatSub_ne_sub_iff_ssubOverflow {n : Nat} (hn : 0 < n) (a b : BitVec n) :
    signedSatSub a b ≠ a - b ↔ BitVec.ssubOverflow a b = true := by
  refine ⟨fun hne => ?_, fun h heq => ?_⟩
  · by_contra h
    exact hne (signedSatSub_of_not_ssubOverflow hn h)
  · have hsign := ((ssubOverflow_iff_msb a b).1 h).2
    exact hsign (heq ▸ msb_signedSatSub_of_ssubOverflow hn h)

/-- 00_scope.md R16, the seventh law, at every width. -/
theorem signedSatSub_saturates {n : Nat} (hn : 0 < n) (a b : BitVec n) :
    (signedSatSub a b ≠ a - b ↔ a.msb ≠ b.msb ∧ (a - b).msb ≠ a.msb) ∧
      (signedSatSub a b ≠ a - b → signedSatSub a b = if a.msb then BitVec.intMin n else BitVec.intMax n) := by
  have hiff := signedSatSub_ne_sub_iff_ssubOverflow hn a b
  exact ⟨hiff.trans (ssubOverflow_iff_msb a b), fun h => signedSatSub_of_ssubOverflow (hiff.1 h)⟩

/-- 00_scope.md R16, the other laws, at every width. -/
theorem signedSatSub_laws {n : Nat} (hn : 0 < n) (a b a' b' : BitVec n) :
    signedSatSub a a = 0#n ∧ signedSatSub a 0#n = a ∧ signedSatSub 0#n (BitVec.intMin n) = BitVec.intMax n ∧
      (b ≠ BitVec.intMin n → signedSatSub 0#n b = -b) ∧
      (a.toInt ≤ a'.toInt → b'.toInt ≤ b.toInt → (signedSatSub a b).toInt ≤ (signedSatSub a' b').toInt) :=
  ⟨signedSatSub_self hn a, signedSatSub_zero hn a, zero_signedSatSub_intMin hn, zero_signedSatSub_of_ne_intMin hn,
    toInt_signedSatSub_mono hn⟩

/-! ### The statements about one lane -/

/-- Settles O3, by the clamped difference at 8 and 16 bits. -/
theorem laneDifferenceIsClampedExactly : Obligations.LaneDifferenceIsClampedExactly := by
  rw [Obligations.LaneDifferenceIsClampedExactly, subSB_eq, subSW_eq]
  exact ⟨toInt_signedSatSub (by decide), toInt_signedSatSub (by decide)⟩

/-- Settles O4, by the law of signed overflow at 8 and 16 bits. -/
theorem laneSaturatesExactlyOnSignedOverflow : Obligations.LaneSaturatesExactlyOnSignedOverflow := by
  rw [Obligations.LaneSaturatesExactlyOnSignedOverflow, subSB_eq, subSW_eq]
  exact ⟨signedSatSub_saturates (by decide), signedSatSub_saturates (by decide)⟩

/-- Settles O5, by the laws of the saturated difference at 8 and 16 bits. -/
theorem laneFunctionLaws : Obligations.LaneFunctionLaws := by
  rw [Obligations.LaneFunctionLaws, subSB_eq, subSW_eq]
  exact ⟨signedSatSub_laws (by decide), signedSatSub_laws (by decide)⟩

/-- Settles O1, by the three cases of saturation at 8 bits. -/
theorem saturateToSignedByteCases : Obligations.SaturateToSignedByteCases := by
  rw [Obligations.SaturateToSignedByteCases, satS8_eq]
  exact fun _ => ⟨signedSat_of_gt (n := 8), signedSat_of_lt (n := 8),
    fun hlo hhi => ⟨toInt_signedSat_of_mem (by decide) hlo hhi, toNat_signedSat_of_mem hlo hhi⟩⟩

/-- Settles O2, by the three cases of saturation at 16 bits. -/
theorem saturateToSignedWordCases : Obligations.SaturateToSignedWordCases := by
  rw [Obligations.SaturateToSignedWordCases, satS16_eq]
  exact fun _ => ⟨signedSat_of_gt (n := 16), signedSat_of_lt (n := 16),
    fun hlo hhi => ⟨toInt_signedSat_of_mem (by decide) hlo hhi, toNat_signedSat_of_mem hlo hhi⟩⟩

end Sys2Proof.Machine
end

section
/-! A register minus itself (00_scope.md R16), in the packed subtraction and in the legacy forms, for any lane function that gives
zero on equal elements. -/

namespace Sys2Proof.Machine

theorem subSB_self (a : BitVec 8) : subSB a a = 0#8 := by
  rw [subSB_eq, signedSatSub_self (by decide)]

theorem subSW_self (a : BitVec 16) : subSW a a = 0#16 := by
  rw [subSW_eq, signedSatSub_self (by decide)]

theorem lane_zero (e w j : Nat) : lane e (0#w) j = 0#e := by
  apply BitVec.eq_of_getLsbD_eq
  intro i hi
  rw [getLsbD_lane _ _ _ hi, BitVec.getLsbD_zero, BitVec.getLsbD_zero]

section
variable {e : Nat} {sub : BitVec e → BitVec e → BitVec e} (he : 0 < e) (hsub : ∀ x, sub x x = 0#e)
include he hsub

/-- Where the elements fill the vector, a vector minus itself is zero. -/
theorem psubs_self {w : Nat} (hw : w / e * e = w) (a : BitVec w) : psubs sub a a = 0#w := by
  apply eq_of_lanes he hw
  intro j hj
  rw [psubs, lane_pack w _ j hj, hsub, lane_zero]

/-- An MMX form with one register as both operands leaves zero in it. -/
theorem execMmx_self (hw : 64 / e * e = 64) {enc : LegacyEnc} {s : State} (hr : MmxReady s) (hrm : enc.rm = .reg enc.reg) :
    ∃ t, execMmx sub enc s = .next t ∧ t.getMm enc.reg = 0#64 := by
  have hb : MmxOperand enc s (s.getMm enc.reg) := by simp only [MmxOperand, hrm]
  refine ⟨_, execMmx_completes sub enc s _ hr hb, ?_⟩
  rw [getMm_retire, getMm_havocX87, getMm_setMm_same, psubs_self he hsub hw]

/-- An XMM legacy form with one register as both operands leaves zero in its low 128 bits and keeps the bits above. -/
theorem execXmm_self (hw : 128 / e * e = 128) {enc : LegacyEnc} {s : State} {rm : BitVec 3} (hr : XmmReady s)
    (hrm : enc.rm = .reg rm) (hsame : xmmNum (rexB enc.rex) rm = xmmNum (rexR enc.rex) enc.reg) :
    ∃ t, execXmm sub enc s = .next t ∧ t.readVec 128 (xmmNum (rexR enc.rex) enc.reg) = 0#128 ∧
      UpperKept (xmmNum (rexR enc.rex) enc.reg) s t := by
  have hb : XmmOperand enc s (s.readVec 128 (xmmNum (rexR enc.rex) enc.reg)) := by simp only [XmmOperand, hrm, hsame]
  refine ⟨_, execXmm_completes sub enc s _ hr hb, ?_, ?_⟩
  · rw [readVec_retire, readVec_writeXmmKeep_same, psubs_self he hsub hw]
  · rw [UpperKept, getV_retire, upper_writeXmmKeep_same]

end

/-- Settles O56, by the three facts above for the two lane functions. -/
theorem registerMinusItselfIsZero : Obligations.RegisterMinusItselfIsZero := by
  refine ⟨fun w hw a => ⟨?_, ?_⟩, fun e s hr hrm => ⟨?_, ?_⟩, fun e s rm d hr hrm hd hd' => ?_⟩
  · exact psubs_self (by decide) subSB_self (by omega) a
  · exact psubs_self (by decide) subSW_self (by omega) a
  · exact execMmx_self (by decide) subSB_self (by decide) hr hrm
  · exact execMmx_self (by decide) subSW_self (by decide) hr hrm
  · subst hd'
    exact ⟨execXmm_self (by decide) subSB_self (by decide) hr hrm hd.symm,
      execXmm_self (by decide) subSW_self (by decide) hr hrm hd.symm⟩

end Sys2Proof.Machine
end

section
/-! Every function of address, size and access kind as a table of fault rules (00_scope.md R7; log 7): one rule for each access
that the function has a verdict on. -/

namespace Sys2Proof.Machine

open Sys2Proof.Config

/-- The rule about the accesses of kind `kind` and size `n` at `a`, and about no others. -/
def exactRule (kind : AccessKind) (a : Word64) (n : Nat) (v : Verdict) : FaultRule :=
  { kind := kind, extent := .starting a a n, verdict := v }

/-- Every 64-bit address. -/
def allAddresses : List Word64 := (List.range (2 ^ 64)).map (BitVec.ofNat 64)

/-- The rules that `f` asks for at one address, for one size. -/
def rulesAt (f : Word64 → Nat → AccessKind → Option Verdict) (a : Word64) (n : Nat) : List FaultRule :=
  [AccessKind.read, AccessKind.fetch].filterMap fun kind => (f a n kind).map (exactRule kind a n)

/-- The table of `f` for the sizes listed. -/
def verdictTable (f : Word64 → Nat → AccessKind → Option Verdict) (sizes : List Nat) : List FaultRule :=
  allAddresses.flatMap fun a => sizes.flatMap (rulesAt f a)

theorem mem_allAddresses (a : Word64) : a ∈ allAddresses :=
  List.mem_map.2 ⟨a.toNat, List.mem_range.2 a.isLt, by simp⟩

theorem mem_rulesAt {f : Word64 → Nat → AccessKind → Option Verdict} {a : Word64} {n : Nat} {r : FaultRule} :
    r ∈ rulesAt f a n ↔ ∃ kind v, f a n kind = some v ∧ r = exactRule kind a n v := by
  have hkinds (kind : AccessKind) : kind ∈ [AccessKind.read, AccessKind.fetch] := by cases kind <;> simp
  simp only [rulesAt, List.mem_filterMap, hkinds, true_and, Option.map_eq_some_iff, eq_comm (a := r)]

theorem mem_verdictTable {f : Word64 → Nat → AccessKind → Option Verdict} {sizes : List Nat} {r : FaultRule} :
    r ∈ verdictTable f sizes ↔ ∃ a, ∃ n ∈ sizes, ∃ kind v, f a n kind = some v ∧ r = exactRule kind a n v := by
  simp only [verdictTable, List.mem_flatMap, mem_allAddresses, true_and, mem_rulesAt]

theorem ruleApplies_exactRule {kind kind' : AccessKind} {a a' : Word64} {n n' : Nat} {v : Verdict} :
    ruleApplies kind a.toNat n (exactRule kind' a' n' v) = true ↔ kind' = kind ∧ a' = a ∧ n' = n := by
  have haddr : a'.toNat ≤ a.toNat ∧ a.toNat ≤ a'.toNat ↔ a' = a := by rw [← le_antisymm_iff, BitVec.toNat_inj]
  simp only [ruleApplies, exactRule, inExtent, Bool.and_eq_true, beq_iff_eq, decide_eq_true_eq, haddr, eq_comm (a := n)]

/-- With the table of `f` MemFault answers as `f` does. -/
theorem memFault_verdictTable (f : Word64 → Nat → AccessKind → Option Verdict) {sizes : List Nat} {s : State} (a : Word64)
    {n : Nat} (kind : AccessKind) (hs : s.faultRules = verdictTable f sizes) (hn : n ∈ sizes) :
    s.memFault a.toNat n kind = (f a n kind).map fun v => verdictStop kind s.cpl a.toNat (exactRule kind a n v) := by
  cases hf : f a n kind with
  | none =>
    rw [Option.map_none, memFault_none_iff, hs]
    intro r hr
    obtain ⟨a', n', -, kind', v', hv', rfl⟩ := mem_verdictTable.1 hr
    by_contra happlies
    obtain ⟨rfl, rfl, rfl⟩ := ruleApplies_exactRule.1 (eq_true_of_ne_false happlies)
    simp [hf] at hv'
  | some v =>
    have hrule : exactRule kind a n v ∈ s.faultRules := hs ▸ mem_verdictTable.2 ⟨a, n, hn, kind, v, hf, rfl⟩
    refine memFault_of_agree s a.toNat n kind _ ⟨_, hrule, ruleApplies_exactRule.2 ⟨rfl, rfl, rfl⟩⟩ ?_
    intro r hr happlies
    obtain ⟨a', n', -, kind', v', hv', rfl⟩ := mem_verdictTable.1 (hs ▸ hr)
    obtain ⟨rfl, rfl, rfl⟩ := ruleApplies_exactRule.1 happlies
    rw [hf, Option.some.injEq] at hv'
    rw [hv']

/-- Settles O60, by the table of one rule for each access the function has a verdict on. -/
theorem everyVerdictFunctionHasATable : Obligations.EveryVerdictFunctionHasATable := by
  intro f sizes
  refine ⟨verdictTable f sizes, fun s a n kind hs hn => ?_⟩
  rw [memFault_verdictTable f a kind hs hn]
  refine ⟨fun h => ?_, fun h => ?_, fun h => ?_, fun code h => ?_, fun h => ?_⟩ <;>
    simp [h, verdictStop, exactRule, extentStart]

end Sys2Proof.Machine
end

section
/-! One step: what it runs, and where it is refused. -/

namespace Sys2Proof.Machine

theorem step_of_long64 {s : State} (h : s.mode = .long64) : step s = stepDecoded s (decode s.fetch.1) := if_pos h

theorem step_of_other_mode {s : State} (h : s.mode ≠ .long64) : step s = .refused (.otherMode s.mode) := if_neg h

theorem stepTruncated_of_stop {s : State} {st : Stop} (h : s.fetch.2 = some st) : stepTruncated s = stop st s := by
  rw [stepTruncated, h]

theorem stepTruncated_of_none {s : State} (h : s.fetch.2 = none) : stepTruncated s = raise .gp s := by
  rw [stepTruncated, h]

/-- Settles O40, by the four results of the decoder, the truncated one by what stopped the fetch. -/
theorem stepRunsTheDecodedInstruction : Obligations.StepRunsTheDecodedInstruction := by
  intro s hmode
  rw [step_of_long64 hmode]
  refine ⟨fun i hd => ?_, fun hd => ?_, fun why hd => ?_, fun hd => ⟨fun x hx => ?_, fun why hwhy => ?_, fun hnone => ?_⟩⟩ <;>
    rw [hd]
  · rfl
  · rfl
  · rfl
  · exact stepTruncated_of_stop hx
  · exact stepTruncated_of_stop hwhy
  · exact stepTruncated_of_none hnone

/-- Settles O41, by the mode test at the head of a step. -/
theorem otherModesAreRefused : Obligations.OtherModesAreRefused := fun _ => step_of_other_mode

end Sys2Proof.Machine
end

section
/-! What every step keeps: the frame common to all forms (10_state.md R20, R24 to R31), the invariant, and pc after a form that
completes. -/

namespace Sys2Proof.Machine

open Sys2Proof.Config

/-! ### The common frame -/

/-- A state that differs in MMX, x87 and vector registers, pc and the model's own counter only, has everything else untouched. -/
theorem untouched_registers (s : State) (mm : Vector Word64 8) (high : Vector (BitVec 16) 8) (tag status : BitVec 16)
    (v : Vector VecWord 32) (pc : Word64) (n : Nat) :
    Untouched s { s with mm := mm, x87High := high, x87Tag := tag, x87Status := status, v := v, pc := pc, freeCount := n } where
  k := rfl
  gpr := rfl
  fsBase := rfl
  gsBase := rfl
  rflags := rfl
  mxcsr := rfl
  cr2 := rfl
  bytes _ := rfl
  mem := rfl
  mode := rfl
  features := rfl
  enabled := rfl
  cpl := rfl
  vaWidth := rfl
  faultRules := rfl
  endAddr := rfl

/-- An instruction that completes changes MMX, x87 and vector registers, pc and the counter at most. -/
theorem exec_next_untouched {i : Instr} {s t : State} (h : exec i s = .next t) : Untouched s t := by
  obtain ⟨d, r, -, rfl⟩ | ⟨hi, reg, r, -, rfl⟩ | ⟨l, hi, reg, r, -, rfl⟩ | ⟨vl, d, r, -, rfl⟩ := exec_next_cases i s t h
  · exact untouched_registers ..
  · exact untouched_registers ..
  · exact untouched_registers ..
  · exact untouched_registers ..

/-- Settles O35: a step that answers a next state ran an instruction to its end. -/
theorem stepLeavesTheRestUntouched : Obligations.StepLeavesTheRestUntouched := by
  intro s t h
  obtain ⟨i, -, hi⟩ := step_next_exec s t h
  exact exec_next_untouched hi

/-! ### pc -/

theorem exec_next_pc {i : Instr} {s t : State} (h : exec i s = .next t) : t.pc = s.nextPc i.len := by
  obtain ⟨d, r, -, rfl⟩ | ⟨hi, reg, r, -, rfl⟩ | ⟨l, hi, reg, r, -, rfl⟩ | ⟨vl, d, r, -, rfl⟩ := exec_next_cases i s t h
  · rw [retire_pc, nextPc_havocX87, nextPc_setMm]
  · rw [retire_pc, nextPc_writeXmmKeep]
  · rw [retire_pc, nextPc_writeVecZero]
  · rw [retire_pc, nextPc_writeVecZero]

/-- Settles O39, by the pc every form that completes retires to. -/
theorem pcAdvancesByLength : Obligations.PcAdvancesByLength := by
  intro i s t h hlt
  rw [exec_next_pc h, nextPc_of_lt s i.len hlt]

/-! ### Vector registers within MAXVL -/

/-- Nothing is left of a vector shifted right exactly when it has no bit that high. -/
theorem ushiftRight_eq_zero_iff_getLsbD {w n : Nat} (x : BitVec w) :
    x >>> n = 0#w ↔ ∀ j, n ≤ j → x.getLsbD j = false := by
  refine ⟨fun h j hj => ?_, fun h => BitVec.eq_of_getLsbD_eq fun j _ => ?_⟩
  · have hbit := congrArg (fun y => y.getLsbD (j - n)) h
    simpa only [BitVec.getLsbD_ushiftRight, Nat.add_sub_cancel' hj, BitVec.getLsbD_zero] using hbit
  · rw [BitVec.getLsbD_ushiftRight, BitVec.getLsbD_zero, h (n + j) (Nat.le_add_right n j)]

theorem le_maxvl (f : Features) : 128 ≤ maxvl f := by
  unfold maxvl
  split
  · decide
  · split <;> decide

theorem maxvl_of_avx512bw {f : Features} (h : f.avx512bw = true) : maxvl f = 512 := if_pos h

theorem le_maxvl_of_avx {f : Features} (h : f.avx = true) : 256 ≤ maxvl f := by
  rw [maxvl, if_pos h]
  split <;> decide

/-- A write to V[d] keeps the vector registers within MAXVL, if it puts nothing there above MAXVL, and `d` is below 16 where
MAXVL is below 512. -/
theorem State.VecWf.of_write {s t : State} {d : BitVec 5} (hs : s.VecWf) (hfeatures : t.features = s.features)
    (hothers : ∀ i, i ≠ d → t.getV i = s.getV i) (hupper : ∀ j, maxvl s.features ≤ j → (t.getV d).getLsbD j = false)
    (hd : maxvl s.features < 512 → d.toNat < 16) : t.VecWf := by
  intro i
  rw [hfeatures]
  by_cases hi : i = d
  · subst hi
    exact ⟨(ushiftRight_eq_zero_iff_getLsbD _).2 hupper, fun hlt hge => absurd (hd hlt) (by omega)⟩
  · rw [hothers i hi]
    exact hs i

theorem xmmNum_lt (hi : Bool) (r : BitVec 3) : (xmmNum hi r).toNat < 16 := by
  revert hi r; decide

theorem vecWf_writeXmmKeep {s : State} (hs : s.VecWf) (hi : Bool) (reg : BitVec 3) (r : BitVec 128) :
    (s.writeXmmKeep (xmmNum hi reg) r).VecWf := by
  refine hs.of_write rfl (fun i h => getV_writeXmmKeep_other s _ i r h) (fun j hj => ?_) (fun _ => xmmNum_lt hi reg)
  have hbits := (ushiftRight_eq_zero_iff_getLsbD _).1 (hs (xmmNum hi reg)).1
  rw [upper_bit_writeXmmKeep_same s _ r j ((le_maxvl s.features).trans hj), hbits j hj]

theorem vecWf_writeVecZero {s : State} (hs : s.VecWf) {w : Nat} (hw : w ≤ maxvl s.features) (d : BitVec 5) (r : BitVec w)
    (hd : maxvl s.features < 512 → d.toNat < 16) : (s.writeVecZero w d r).VecWf :=
  hs.of_write rfl (fun i h => getV_writeVecZero_other s w d i r h)
    (fun j hj => upper_writeVecZero_same s w d r j (hw.trans hj)) hd

/-- The features an instruction's gate asks for give the width it writes. -/
theorem vexWidth_le_maxvl {s : State} {l : Bool} (havx : s.features.avx2 = true → s.features.avx = true)
    (hr : if l then Vex256Ready s else Vex128Ready s) : vexWidth l ≤ maxvl s.features := by
  cases l with
  | false => exact le_maxvl s.features
  | true => exact le_maxvl_of_avx (havx hr.1)

theorem EvexReady.maxvl_eq {s : State} {vl : VecLen} (hr : EvexReady s vl) : maxvl s.features = 512 :=
  maxvl_of_avx512bw hr.1.1

theorem vecLen_bits_le (vl : VecLen) : vl.bits ≤ 512 := by cases vl <;> decide

/-- An instruction that completes leaves the vector registers within MAXVL. -/
theorem exec_next_vecWf {i : Instr} {s t : State} (hs : s.VecWf) (havx : s.features.avx2 = true → s.features.avx = true)
    (h : exec i s = .next t) : t.VecWf := by
  obtain ⟨d, r, -, rfl⟩ | ⟨hi, reg, r, -, rfl⟩ | ⟨l, hi, reg, r, hr, rfl⟩ | ⟨vl, d, r, hr, rfl⟩ := exec_next_cases i s t h
  · exact hs
  · exact vecWf_writeXmmKeep hs hi reg r
  · exact vecWf_writeVecZero hs (vexWidth_le_maxvl havx hr) _ r fun _ => xmmNum_lt hi reg
  · exact vecWf_writeVecZero hs (hr.maxvl_eq ▸ vecLen_bits_le vl) d r fun hlt => absurd hr.maxvl_eq hlt.ne

/-- Settles O36: memory and the features are untouched, and each form writes within MAXVL. -/
theorem stepKeepsTheInvariant : Obligations.StepKeepsTheInvariant := by
  intro s t ⟨hmem, hvec, havx⟩ h
  obtain ⟨i, -, hi⟩ := step_next_exec s t h
  have hu := exec_next_untouched hi
  refine ⟨hu.mem ▸ hmem, exec_next_vecWf hvec havx hi, ?_⟩
  rw [hu.features]
  exact havx

/-- Settles O37: memory lists nothing, every vector register is zero, and all features are present. -/
theorem resetMeetsTheInvariant : Obligations.ResetMeetsTheInvariant := by
  have hzero (i : BitVec 5) : State.reset.getV i = 0#512 := by simp [State.getV, State.reset]
  refine ⟨rfl, fun i => ⟨?_, fun _ _ => hzero i⟩, fun _ => rfl⟩
  rw [hzero, BitVec.zero_ushiftRight]

end Sys2Proof.Machine
end

section
/-! The limits of a fetch (10_state.md R27, 30_encoding.md R86): the bytes before the first that cannot be fetched, at most 15, and
what a step makes of bytes that end before an instruction does. -/

namespace Sys2Proof.Machine

theorem fetchStop_of_not_canonical {s : State} {a : Nat} (h : s.canonicalRange a 1 = false) :
    s.fetchStop a = some (.exc .gp) := by
  simp [State.fetchStop, h]

/-- The fetch at pc up to the first byte that cannot be fetched. -/
theorem fetch_stopped {s : State} {k : Nat} {st : Stop} (hk : k < 15)
    (hbefore : ∀ j, j < k → s.fetchStop (s.pc.toNat + j) = none) (hst : s.fetchStop (s.pc.toNat + k) = some st) :
    s.fetch = ((List.range k).map (fun j => s.mem.read (s.pc.toNat + j)), some st) :=
  fetchFrom_stopped s s.pc.toNat maxInstrBytes k st hk hbefore hst

/-- The fetch at pc of all the bytes an instruction can have. -/
theorem fetch_all {s : State} (h : ∀ k, k < 15 → s.fetchStop (s.pc.toNat + k) = none) :
    s.fetch = ((List.range 15).map (fun j => s.mem.read (s.pc.toNat + j)), none) :=
  fetchFrom_all s s.pc.toNat maxInstrBytes h

theorem step_of_truncated {s : State} (hmode : s.mode = .long64) (hd : decode s.fetch.1 = .truncated) :
    step s = stepTruncated s := by
  rw [step_of_long64 hmode, hd, stepDecoded]

/-- Bytes that are all prefixes end before an instruction does. -/
theorem decode_of_all_prefixes {bs : List Byte} (h : ∀ b ∈ bs, isPrefixByte b = true) : decode bs = .truncated := by
  have hnone : bs.dropWhile isPrefixByte = [] := List.dropWhile_eq_nil_iff.2 h
  rw [decode, hnone, decodeBody]

/-- A byte that cannot be fetched, where the bytes before it end before an instruction does. -/
theorem step_of_truncated_at_stop {s : State} {k : Nat} {st : Stop} (hmode : s.mode = .long64) (hk : k < 15)
    (hbefore : ∀ j, j < k → s.fetchStop (s.pc.toNat + j) = none) (hst : s.fetchStop (s.pc.toNat + k) = some st)
    (hd : decode s.fetch.1 = .truncated) : step s = stop st s := by
  rw [step_of_truncated hmode hd, stepTruncated_of_stop (congrArg Prod.snd (fetch_stopped hk hbefore hst))]

/-- Fifteen bytes without a complete instruction (log 12). -/
theorem step_of_truncated_at_limit {s : State} (hmode : s.mode = .long64)
    (hall : ∀ k, k < 15 → s.fetchStop (s.pc.toNat + k) = none) (hd : decode s.fetch.1 = .truncated) :
    step s = raise .gp s := by
  rw [step_of_truncated hmode hd, stepTruncated_of_none (congrArg Prod.snd (fetch_all hall))]

/-- Settles O43, by the two ways a fetch can end; a non-canonical pc leaves no byte, and fifteen prefixes hold no instruction. -/
theorem fetchLimitsFault : Obligations.FetchLimitsFault := by
  intro s hmode
  refine ⟨fun k st hk hbefore hst => ⟨?_, fun hc => ?_, fun hd => ⟨?_, ?_⟩⟩, fun hall => ⟨?_, ?_⟩, fun hc => ?_, fun h => ?_⟩
  · rw [fetch_stopped hk hbefore hst]
  · rw [fetchStop_of_not_canonical hc, Option.some.injEq] at hst
    exact hst.symm
  · rintro x rfl
    exact step_of_truncated_at_stop hmode hk hbefore hst hd
  · rintro why rfl
    exact step_of_truncated_at_stop hmode hk hbefore hst hd
  · rw [fetch_all hall]
  · exact step_of_truncated_at_limit hmode hall
  · have hbefore : ∀ j, j < 0 → s.fetchStop (s.pc.toNat + j) = none := fun j hj => absurd hj j.not_lt_zero
    have hst : s.fetchStop (s.pc.toNat + 0) = some (.exc .gp) := fetchStop_of_not_canonical hc
    refine step_of_truncated_at_stop hmode (by decide : 0 < 15) hbefore hst ?_
    rw [fetch_stopped (by decide) hbefore hst]
    exact decode_of_all_prefixes (by simp)
  · have hall := fun k hk => (h k hk).1
    refine step_of_truncated_at_limit hmode hall (decode_of_all_prefixes fun b hb => ?_)
    rw [fetch_all hall] at hb
    obtain ⟨k, hk, rfl⟩ := List.mem_map.1 hb
    exact (h k (List.mem_range.1 hk)).2

end Sys2Proof.Machine
end

section
/-! What a form does not read (10_state.md R24, R28, R29, R32). Two states with the same inputs pass the same checks and fetch the
same operands; so the outcomes of an instruction differ by what its last step, an exception or a register write, makes of them. -/

namespace Sys2Proof.Machine

/-- The two states agree in all that a check, an address or an operand fetch reads: every field but the opmask registers, x87 state,
MXCSR, CR2, the mode, the end address, and the flags other than AC. -/
structure SameInputs (s t : State) : Prop where
  mm : t.mm = s.mm
  v : t.v = s.v
  gpr : t.gpr = s.gpr
  fsBase : t.fsBase = s.fsBase
  gsBase : t.gsBase = s.gsBase
  pc : t.pc = s.pc
  ac : t.rflagsAc = s.rflagsAc
  mem : t.mem = s.mem
  features : t.features = s.features
  enabled : t.enabled = s.enabled
  cpl : t.cpl = s.cpl
  vaWidth : t.vaWidth = s.vaWidth
  faultRules : t.faultRules = s.faultRules
  freeCount : t.freeCount = s.freeCount

namespace SameInputs

section
variable {s t : State} (h : SameInputs s t)
include h

/-! ### Registers and checks -/

theorem getMm (i : BitVec 3) : t.getMm i = s.getMm i := by simp only [State.getMm, h.mm]

theorem readVec (w : Nat) (i : BitVec 5) : t.readVec w i = s.readVec w i := by simp only [State.readVec, State.getV, h.v]

theorem alignmentCheck : t.alignmentCheck = s.alignmentCheck := by
  simp only [State.alignmentCheck, h.enabled, h.ac, h.cpl]

theorem mmxGate : Machine.mmxGate t = Machine.mmxGate s := by
  unfold Machine.mmxGate State.mmxUsable
  rw [h.features, h.enabled]

theorem vectorGate (usable : Bool) : Machine.vectorGate usable t = Machine.vectorGate usable s := by
  unfold Machine.vectorGate
  rw [h.enabled]

theorem sseUsable : t.sseUsable = s.sseUsable := by
  simp only [State.sseUsable, h.features, h.enabled]

theorem vexUsable (l : Bool) : t.vexUsable l = s.vexUsable l := by
  simp only [State.vexUsable, State.avxEnabled, h.features, h.enabled]

theorem evexUsable (vl : VecLen) : t.evexUsable vl = s.evexUsable vl := by
  cases vl <;> simp only [State.evexUsable, State.evexFeature, State.avx512Enabled, State.avxEnabled, h.features, h.enabled]

/-! ### Addresses and memory -/

theorem memRef (pfx : List Pfx) (x b : Bool) (n len : Nat) (m : MemForm) :
    Machine.memRef t pfx x b n len m = Machine.memRef s pfx x b n len m := by
  have hseg (o : Option Seg) : t.segBase o = s.segBase o := by
    rcases o with _ | _ | _
    · rfl
    · exact h.fsBase
    · exact h.gsBase
  have hea (next : Word64) : ea64 t x b n next m = ea64 s x b n next m := by
    cases m <;> simp only [ea64, indexTerm, State.getGpr, h.gpr]
  simp only [Machine.memRef, effAddr, hseg, hea, h.pc]

theorem memRead (w : Nat) (r : MemRef) : Machine.memRead w r t = Machine.memRead w r s := by
  have hcanonical (a n : Nat) : t.canonicalRange a n = s.canonicalRange a n := by
    simp only [State.canonicalRange, h.vaWidth]
  have hverdict (a n : Nat) (kind : Config.AccessKind) : t.memFault a n kind = s.memFault a n kind := by
    simp only [State.memFault, h.faultRules, h.cpl]
  unfold Machine.memRead
  rw [hcanonical, hverdict, h.mem]

theorem unalignedRead (w : Nat) (r : MemRef) : Machine.unalignedRead w r t = Machine.unalignedRead w r s := by
  unfold Machine.unalignedRead
  rw [h.memRead, h.alignmentCheck, h.freeCount]

/-! ### The subtrahend -/

theorem mmxSource (e : LegacyEnc) : Machine.mmxSource e t = Machine.mmxSource e s := by
  unfold Machine.mmxSource legacyRef
  cases e.rm with
  | reg rm => exact congrArg Except.ok (h.getMm rm)
  | mem m =>
    dsimp only
    rw [h.memRef, h.memRead, h.alignmentCheck]

theorem xmmSource (e : LegacyEnc) : Machine.xmmSource e t = Machine.xmmSource e s := by
  unfold Machine.xmmSource legacyRef
  cases e.rm with
  | reg rm => exact congrArg Except.ok (h.readVec 128 _)
  | mem m =>
    dsimp only
    rw [h.memRef, h.memRead]

theorem vexSource (w : Nat) (e : Vex3Enc) (len : Nat) : Machine.vexSource w e len t = Machine.vexSource w e len s := by
  simp only [Machine.vexSource, vexRef, h.memRef, h.unalignedRead, h.readVec]

theorem evexSource (w : Nat) (e : EvexEnc) : Machine.evexSource w e t = Machine.evexSource w e s := by
  simp only [Machine.evexSource, evexRef, h.memRef, h.unalignedRead, h.readVec]

end

end SameInputs

/-! ### Ends that agree -/

/-- The two states have the same inputs, and each way an instruction can end makes the same of them up to `f` and `g`. -/
structure SameEnds (f g : State → State) (s t : State) : Prop where
  inputs : SameInputs s t
  exception : ∀ x, f (t.afterException x) = g (s.afterException x)
  mmx : ∀ d r len, f (((t.setMm d r).havocX87).retire len) = g (((s.setMm d r).havocX87).retire len)
  xmm : ∀ d r len, f ((t.writeXmmKeep d r).retire len) = g ((s.writeXmmKeep d r).retire len)
  vec : ∀ w d (r : BitVec w) len, f ((t.writeVecZero w d r).retire len) = g ((s.writeVecZero w d r).retire len)

namespace SameEnds

section
variable {f g : State → State} {s t : State} (h : SameEnds f g s t)
include h

theorem raise (x : Exception) : mapOutcome f (Machine.raise x t) = mapOutcome g (Machine.raise x s) := by
  rw [Machine.raise, Machine.raise, mapOutcome, mapOutcome, h.exception]

theorem stop (st : Stop) : mapOutcome f (Machine.stop st t) = mapOutcome g (Machine.stop st s) := by
  cases st with
  | exc x => exact h.raise x
  | refuse r => rfl

theorem execMmx {n : Nat} (sub : BitVec n → BitVec n → BitVec n) (e : LegacyEnc) :
    mapOutcome f (Machine.execMmx sub e t) = mapOutcome g (Machine.execMmx sub e s) := by
  unfold Machine.execMmx
  rw [h.inputs.mmxGate, h.inputs.mmxSource, h.inputs.getMm]
  rcases mmxGate s with _ | x
  · rcases mmxSource e s with st | b
    · exact h.stop st
    · exact congrArg Host.Outcome.next (h.mmx ..)
  · exact h.raise x

theorem execXmm {n : Nat} (sub : BitVec n → BitVec n → BitVec n) (e : LegacyEnc) :
    mapOutcome f (Machine.execXmm sub e t) = mapOutcome g (Machine.execXmm sub e s) := by
  unfold Machine.execXmm
  rw [h.inputs.sseUsable, h.inputs.vectorGate, h.inputs.xmmSource]
  rcases vectorGate s.sseUsable s with _ | x
  · rcases xmmSource e s with st | b
    · exact h.stop st
    · dsimp only
      rw [h.inputs.readVec]
      exact congrArg Host.Outcome.next (h.xmm ..)
  · exact h.raise x

theorem execVex {n : Nat} (sub : BitVec n → BitVec n → BitVec n) (l : Bool) (e : Vex3Enc) (len : Nat) :
    mapOutcome f (Machine.execVex sub l e len t) = mapOutcome g (Machine.execVex sub l e len s) := by
  unfold Machine.execVex
  rw [h.inputs.vexUsable, h.inputs.vectorGate, h.inputs.vexSource, h.inputs.readVec]
  rcases vectorGate (s.vexUsable l) s with _ | x
  · rcases vexSource (vexWidth l) e len s with st | b
    · exact h.stop st
    · exact congrArg Host.Outcome.next (h.vec ..)
  · exact h.raise x

theorem execEvex {n : Nat} (sub : BitVec n → BitVec n → BitVec n) (vl : VecLen) (e : EvexEnc)
    (hmask : ∀ old a b : BitVec vl.bits,
      psubsMask sub old a b (evexMask e t) e.z = psubsMask sub old a b (evexMask e s) e.z) :
    mapOutcome f (Machine.execEvex sub vl e t) = mapOutcome g (Machine.execEvex sub vl e s) := by
  unfold Machine.execEvex
  rw [h.inputs.evexUsable, h.inputs.vectorGate, h.inputs.evexSource]
  rcases vectorGate (s.evexUsable vl) s with _ | x
  · rcases evexSource vl.bits e s with st | b
    · exact h.stop st
    · dsimp only
      rw [h.inputs.readVec, h.inputs.readVec, hmask]
      exact congrArg Host.Outcome.next (h.vec ..)
  · exact h.raise x

/-- With the opmask registers the same too, every instruction ends in the same way in both states. -/
theorem exec (hk : t.k = s.k) (i : Instr) : mapOutcome f (Machine.exec i t) = mapOutcome g (Machine.exec i s) := by
  have evex {n : Nat} (sub : BitVec n → BitVec n → BitVec n) (vl : VecLen) (e : EvexEnc) :
      mapOutcome f (Machine.execEvex sub vl e t) = mapOutcome g (Machine.execEvex sub vl e s) :=
    h.execEvex sub vl e fun old a b => by rw [evexMask, evexMask, State.getK, State.getK, hk]
  cases i with
  | psubsbMm e => exact h.execMmx subSB e
  | psubswMm e => exact h.execMmx subSW e
  | psubsbXmm e => exact h.execXmm subSB e
  | psubswXmm e => exact h.execXmm subSW e
  | vpsubsbXmmVex3 e => exact h.execVex subSB false e e.len
  | vpsubsbXmmVex2 e => exact h.execVex subSB false (vex2Fields e) e.len
  | vpsubswXmmVex3 e => exact h.execVex subSW false e e.len
  | vpsubswXmmVex2 e => exact h.execVex subSW false (vex2Fields e) e.len
  | vpsubsbYmmVex3 e => exact h.execVex subSB true e e.len
  | vpsubsbYmmVex2 e => exact h.execVex subSB true (vex2Fields e) e.len
  | vpsubswYmmVex3 e => exact h.execVex subSW true e e.len
  | vpsubswYmmVex2 e => exact h.execVex subSW true (vex2Fields e) e.len
  | vpsubsbXmmEvex e => exact evex subSB .vl128 e
  | vpsubsbYmmEvex e => exact evex subSB .vl256 e
  | vpsubsbZmmEvex e => exact evex subSB .vl512 e
  | vpsubswXmmEvex e => exact evex subSW .vl128 e
  | vpsubswYmmEvex e => exact evex subSW .vl256 e
  | vpsubswZmmEvex e => exact evex subSW .vl512 e

end

end SameEnds

/-! ### Fields that no form reads -/

theorem mapOutcome_id (o : Host.Outcome State Fault Refusal) : mapOutcome id o = o := by
  rcases o with _ | ⟨_, _⟩ | _ <;> rfl

/-- The state with other x87 state, MM[0..7] and the pending-exception condition as they are (10_state.md R32, log 26). -/
def State.withX87 (high : Vector (BitVec 16) 8) (tag status : BitVec 16) (s : State) : State :=
  { s with x87High := high, x87Tag := tag, x87Status := status }

/-- The state with other RFLAGS and MXCSR (10_state.md R28, R29). -/
def State.withFlags (flags : Word64) (mx : BitVec 32) (s : State) : State := { s with rflags := flags, mxcsr := mx }

/-- The state with other opmask registers (10_state.md R24). -/
def State.withK (k : Vector Word64 8) (s : State) : State := { s with k := k }

theorem sameInputs_withX87 (high : Vector (BitVec 16) 8) (tag status : BitVec 16) (s : State) :
    SameInputs s (s.withX87 high tag status) := by
  constructor <;> rfl

theorem sameInputs_withFlags {flags : Word64} (mx : BitVec 32) {s : State} (hac : flags.getLsbD 18 = s.rflags.getLsbD 18) :
    SameInputs s (s.withFlags flags mx) := by
  constructor
  case ac => exact hac
  all_goals rfl

theorem sameInputs_withK (k : Vector Word64 8) (s : State) : SameInputs s (s.withK k) := by
  constructor <;> rfl

theorem afterException_withX87 (high : Vector (BitVec 16) 8) (tag status : BitVec 16) (s : State) (x : Exception) :
    (s.withX87 high tag status).afterException x = (s.afterException x).withX87 high tag status := by
  cases x <;> rfl

theorem afterException_withFlags (flags : Word64) (mx : BitVec 32) (s : State) (x : Exception) :
    (s.withFlags flags mx).afterException x = (s.afterException x).withFlags flags mx := by
  cases x <;> rfl

theorem afterException_withK (k : Vector Word64 8) (s : State) (x : Exception) :
    (s.withK k).afterException x = (s.afterException x).withK k := by
  cases x <;> rfl

/-- Settles O58: x87 state is no input, and what an instruction leaves of it is masked out on both sides. -/
theorem x87StateIsNotRead : Obligations.X87StateIsNotRead := by
  intro i s high tag status
  have hends : SameEnds (State.withX87 high tag status) (State.withX87 high tag status) s (s.withX87 high tag status) :=
    { inputs := sameInputs_withX87 high tag status s
      exception := fun x => by rw [afterException_withX87]; rfl
      mmx := fun _ _ _ => rfl
      xmm := fun _ _ _ => rfl
      vec := fun _ _ _ _ => rfl }
  exact hends.exec rfl i

/-- Settles O59: of the flags AC alone is an input, and every end of an instruction keeps RFLAGS and MXCSR. -/
theorem flagsAndMxcsrAreNotRead : Obligations.FlagsAndMxcsrAreNotRead := by
  intro i s flags mx hac
  have hends : SameEnds id (State.withFlags flags mx) s (s.withFlags flags mx) :=
    { inputs := sameInputs_withFlags mx hac
      exception := afterException_withFlags flags mx s
      mmx := fun _ _ _ => rfl
      xmm := fun _ _ _ => rfl
      vec := fun _ _ _ _ => rfl }
  have h := hends.exec rfl i
  rw [mapOutcome_id] at h
  exact h

/-! ### Mask bits that no element has -/

/-- Packing looks at the elements that fit only. -/
theorem pack_congr {w e : Nat} {f g : Nat → BitVec e} (h : ∀ j, j < w / e → f j = g j) : pack w f = pack w g := by
  rw [pack, pack, packNat_congr f g _ 0 fun j _ hj => h j (by omega)]

/-- The masked subtraction looks at the mask bits of the elements there are (42_evex.md R121). -/
theorem psubsMask_congr {w e : Nat} (sub : BitVec e → BitVec e → BitVec e) (old a b : BitVec w) {m m' : WriteMask} (z : Bool)
    (h : ∀ j, j < w / e → m.active j = m'.active j) : psubsMask sub old a b m z = psubsMask sub old a b m' z :=
  pack_congr fun j hj => by rw [h j hj]

/-- An EVEX form looks at the bits of K[aaa] for the elements it has, and at none of K[0]. -/
theorem active_evexMask_congr (e : EvexEnc) {s t : State} {j : Nat}
    (h : e.aaa ≠ 0#3 → (t.getK e.aaa).getLsbD j = (s.getK e.aaa).getLsbD j) :
    (evexMask e t).active j = (evexMask e s).active j := by
  unfold evexMask
  by_cases haaa : e.aaa = 0#3
  · rw [if_pos haaa, if_pos haaa]
  · rw [if_neg haaa, if_neg haaa]
    exact h haaa

/-- An EVEX form of KL elements ends the same but for the opmask registers, where these agree below KL. -/
theorem execEvex_withK {n : Nat} (sub : BitVec n → BitVec n → BitVec n) (vl : VecLen) (e : EvexEnc) (s : State)
    (k : Vector Word64 8)
    (hk : ∀ (r : BitVec 3) (j : Nat), r ≠ 0#3 → j < vl.bits / n → ((s.withK k).getK r).getLsbD j = (s.getK r).getLsbD j) :
    execEvex sub vl e (s.withK k) = mapOutcome (State.withK k) (execEvex sub vl e s) := by
  have hends : SameEnds id (State.withK k) s (s.withK k) :=
    { inputs := sameInputs_withK k s
      exception := afterException_withK k s
      mmx := fun _ _ _ => rfl
      xmm := fun _ _ _ => rfl
      vec := fun _ _ _ _ => rfl }
  rw [← mapOutcome_id (execEvex sub vl e (s.withK k))]
  exact hends.execEvex sub vl e fun old a b =>
    psubsMask_congr sub old a b e.z fun j hj => active_evexMask_congr e fun haaa => hk e.aaa j haaa hj

/-- Settles O57, with KL the number of elements of each form. -/
theorem maskBitsAboveKlAreIgnored : Obligations.MaskBitsAboveKlAreIgnored := by
  rintro e s k kl i (⟨rfl, rfl⟩ | ⟨rfl, rfl⟩ | ⟨rfl, rfl⟩ | ⟨rfl, rfl⟩ | ⟨rfl, rfl⟩ | ⟨rfl, rfl⟩) hk
  · exact execEvex_withK subSB .vl128 e s k hk
  · exact execEvex_withK subSB .vl256 e s k hk
  · exact execEvex_withK subSB .vl512 e s k hk
  · exact execEvex_withK subSW .vl128 e s k hk
  · exact execEvex_withK subSW .vl256 e s k hk
  · exact execEvex_withK subSW .vl512 e s k hk

end Sys2Proof.Machine
end

section
/-! Runs (92_eei_decisions.md D29): what every step keeps holds of the state a run has reached, and a run that ended stands at its
end address. -/

namespace Sys2Proof.Machine

/-- What every step keeps holds of the state a run has reached, if it holds at the start. The cases are those of `runToEnd`: at the
end address, out of steps, or by what the next step answers. -/
theorem runToEnd_keeps {P : State → Prop} (hkeep : ∀ s t, P s → step s = .next t → P t) {n : Nat} {s t : State} (hs : P s)
    (h : runToEnd n s = .ended t ∨ runToEnd n s = .running t) : P t := by
  fun_induction runToEnd n s with
  | case1 s hfinal =>
    obtain rfl : s = t := by simpa using h
    exact hs
  | case2 s hfinal =>
    obtain rfl : s = t := by simpa using h
    exact hs
  | case3 n s hfinal =>
    obtain rfl : s = t := by simpa using h
    exact hs
  | case4 n s hfinal u hstep ih => exact ih (hkeep s u hs hstep) h
  | case5 n s hfinal f hstep => simp at h
  | case6 n s hfinal why hstep => simp at h

/-- A run ends at its end address only. -/
theorem final_of_runToEnd_ended {n : Nat} {s t : State} (h : runToEnd n s = .ended t) : t.final = true := by
  fun_induction runToEnd n s with
  | case1 s hfinal => exact RunResult.ended.inj h ▸ hfinal
  | case2 s hfinal => cases h
  | case3 n s hfinal => exact RunResult.ended.inj h ▸ hfinal
  | case4 n s hfinal u hstep ih => exact ih h
  | case5 n s hfinal f hstep => cases h
  | case6 n s hfinal why hstep => cases h

theorem endAddr_of_final {s : State} (h : s.final = true) : s.endAddr = some s.pc := by
  simpa [State.final] using h

theorem Untouched.refl (s : State) : Untouched s s := by constructor <;> intros <;> rfl

theorem Untouched.trans {s t u : State} (hst : Untouched s t) (htu : Untouched t u) : Untouched s u where
  k := htu.k.trans hst.k
  gpr := htu.gpr.trans hst.gpr
  fsBase := htu.fsBase.trans hst.fsBase
  gsBase := htu.gsBase.trans hst.gsBase
  rflags := htu.rflags.trans hst.rflags
  mxcsr := htu.mxcsr.trans hst.mxcsr
  cr2 := htu.cr2.trans hst.cr2
  bytes a := (htu.bytes a).trans (hst.bytes a)
  mem := htu.mem.trans hst.mem
  mode := htu.mode.trans hst.mode
  features := htu.features.trans hst.features
  enabled := htu.enabled.trans hst.enabled
  cpl := htu.cpl.trans hst.cpl
  vaWidth := htu.vaWidth.trans hst.vaWidth
  faultRules := htu.faultRules.trans hst.faultRules
  endAddr := htu.endAddr.trans hst.endAddr

/-- What no step touches, no run touches. -/
theorem runToEnd_untouched {n : Nat} {s t : State} (h : runToEnd n s = .ended t ∨ runToEnd n s = .running t) : Untouched s t :=
  runToEnd_keeps (P := Untouched s) (fun u v hu hstep => hu.trans (stepLeavesTheRestUntouched u v hstep)) (Untouched.refl s) h

/-- Settles O38: every step keeps the invariant and touches nothing else, and a run ends at its end address only. -/
theorem runsKeepInvariantAndMemory : Obligations.RunsKeepInvariantAndMemory := by
  intro n s t hinv h
  exact ⟨runToEnd_keeps stepKeepsTheInvariant hinv (.inl h), runToEnd_untouched (.inl h),
    endAddr_of_final (final_of_runToEnd_ended h)⟩

/-- Settles O34: what completes leaves memory untouched, an exception writes CR2 at most, and a run is made of such steps. -/
theorem noFormWritesMemory : Obligations.NoFormWritesMemory := by
  refine ⟨fun i s t a h => (exec_next_untouched h).bytes a, fun i s t x a h => ?_, fun n s t a h => (runToEnd_untouched h).bytes a⟩
  obtain ⟨ht, -⟩ := exec_raised_cases i s t x h
  rw [ht, afterException_mem]

end Sys2Proof.Machine
end

section
/-! Memory operands that stop an instruction (20_memory.md R41, R46, R51; 60_exceptions.md R148). An operand has one reason to stop
at most, so an instruction that passes its gate ends as that reason says. -/

namespace Sys2Proof.Machine

variable {xmm mmx : Bool} {n : Nat} {s : State} {r : MemRef} {st st' : Stop}

/-- An operand that stops an instruction does not let it go on. -/
theorem OperandStops.not_goes (h : OperandStops xmm mmx n s r st) : ¬OperandGoes xmm mmx n s r := by
  rintro ⟨haligned, ⟨hcanonical, hfault⟩, hcheck⟩
  obtain ⟨hx, hmis, -⟩ | ⟨-, hc, -⟩ | ⟨-, -, hf⟩ | ⟨hx, -, hac, hmis, hfree, -⟩ := h
  · exact hmis (haligned hx)
  · simp [hc] at hcanonical
  · simp [hf] at hfault
  · obtain ⟨hm, hno⟩ := hcheck hx hac hmis
    simp [hfree hm] at hno

/-- The reasons to stop at an operand exclude each other, and each names one stop. -/
theorem OperandStops.unique (h : OperandStops xmm mmx n s r st) (h' : OperandStops xmm mmx n s r st') : st' = st := by
  obtain ⟨hx, hmis, rfl⟩ | ⟨haligned, hc, rfl⟩ | ⟨haligned, hc, hf⟩ | ⟨hx, ⟨hc, hf⟩, hac, hmis, -, rfl⟩ := h
  · simpa [OperandStops, hx, hmis] using h'
  · obtain ⟨hx, hmis, -⟩ | ⟨-, -, hst⟩ | ⟨-, hc', -⟩ | ⟨-, ⟨hc', -⟩, -⟩ := h'
    · exact absurd (haligned hx) hmis
    · exact hst
    · simp [hc] at hc'
    · simp [hc] at hc'
  · obtain ⟨hx, hmis, -⟩ | ⟨-, hc', -⟩ | ⟨-, -, hf'⟩ | ⟨-, ⟨-, hf'⟩, -⟩ := h'
    · exact absurd (haligned hx) hmis
    · simp [hc] at hc'
    · rw [hf, Option.some.injEq] at hf'
      exact hf'.symm
    · simp [hf] at hf'
  · obtain ⟨hx', -⟩ | ⟨-, hc', -⟩ | ⟨-, -, hf'⟩ | ⟨-, -, -, -, -, hst⟩ := h'
    · simp [hx] at hx'
    · simp [hc] at hc'
    · simp [hf] at hf'
    · exact hst

/-- An instruction that passes its gate ends as its memory operand makes it stop. -/
theorem exec_of_operandStops {i : Instr} (hready : Ready i s) (href : operandRef i s = some r)
    (hstop : OperandStops (isXmmLegacyForm i) (isMmxForm i) (operandBytes i) s r st) : exec i s = stop st s := by
  obtain ⟨-, hgoes, -⟩ | ⟨hnot, -⟩ | ⟨-, r', st', href', ho, hstop'⟩ := exec_outcomes i s
  · exact absurd (hgoes r href) hstop.not_goes
  · exact absurd hready hnot
  · rw [href, Option.some.injEq] at href'
    subst href'
    rw [ho, hstop.unique hstop']

/-- Settles O29: a non-canonical operand stops every form, an XMM legacy form if it is aligned. -/
theorem nonCanonicalOperandFaults : Obligations.NonCanonicalOperandFaults := by
  intro i s r hready href haligned hc
  rw [exec_of_operandStops hready href (.inr (.inl ⟨haligned, hc, rfl⟩))]
  cases r.ssRel <;> rfl

/-- Settles O30: the environment's verdict on a canonical operand stops every form, an XMM legacy form if it is aligned. -/
theorem environmentVerdictEndsTheForm : Obligations.EnvironmentVerdictEndsTheForm := by
  intro i s r hready href haligned hc
  have hstops (st : Stop) (hf : s.memFault r.la.toNat (operandBytes i) .read = some st) : exec i s = stop st s :=
    exec_of_operandStops hready href (.inr (.inr (.inl ⟨haligned, hc, hf⟩)))
  exact ⟨fun x hf => hstops (.exc x) hf, fun why hf => hstops (.refuse why) hf⟩

theorem operandOf_mem {rm : RegMem} {m : MemForm} (h : rm = .mem m) (ref : MemForm → MemRef) : operandOf rm ref = some (ref m) := by
  rw [h, operandOf]

/-- Settles O26: misalignment is the first reason for an XMM legacy form to stop. -/
theorem xmmLegacyOperandMustBeAligned : Obligations.XmmLegacyOperandMustBeAligned := by
  intro e m s hready hrm hmis i hi
  have href := operandOf_mem hrm (legacyRef e s)
  have hstop : OperandStops true false 16 s (legacyRef e s m) (.exc .gp) := .inl ⟨rfl, hmis, rfl⟩
  simp only [List.mem_cons, List.not_mem_nil, or_false] at hi
  obtain rfl | rfl := hi
  · exact exec_of_operandStops (i := .psubsbXmm e) hready href hstop
  · exact exec_of_operandStops (i := .psubswXmm e) hready href hstop

theorem alignmentCheck_of_enabled (ham : s.enabled.cr0Am = true) (hac : s.rflags.getLsbD 18 = true) (hcpl : s.cpl = 3#2) :
    s.alignmentCheck = true := by
  simp [State.alignmentCheck, State.rflagsAc, ham, hac, hcpl]

/-- Settles O27: under alignment checking a readable operand that is not aligned stops an MMX form. -/
theorem mmxOperandAlignmentCheck : Obligations.MmxOperandAlignmentCheck := by
  intro e m s hready hrm hread ham hac hcpl hmis i hi
  have href := operandOf_mem hrm (legacyRef e s)
  have hstop : OperandStops false true 8 s (legacyRef e s m) (.exc .ac) :=
    .inr (.inr (.inr ⟨rfl, hread, alignmentCheck_of_enabled ham hac hcpl, hmis, nofun, rfl⟩))
  simp only [List.mem_cons, List.not_mem_nil, or_false] at hi
  obtain rfl | rfl := hi
  · exact exec_of_operandStops (i := .psubsbMm e) hready href hstop
  · exact exec_of_operandStops (i := .psubswMm e) hready href hstop

end Sys2Proof.Machine
end

section
/-! A well-formed instruction is read back from its encoding, whatever bytes follow (30_encoding.md R64 to R81, R87), so a step runs
it where memory at pc holds its encoding. -/

namespace Sys2Proof

open Sys2Proof.Machine

/-! ### The families by the first byte after the prefixes -/

theorem decodeBody_legacy (ps rest : List Byte) : decodeBody ps (0x0F#8 :: rest) = decodeLegacy ps rest := rfl
theorem decodeBody_vex3 (ps rest : List Byte) : decodeBody ps (0xC4#8 :: rest) = decodeVex3 ps rest := rfl
theorem decodeBody_vex2 (ps rest : List Byte) : decodeBody ps (0xC5#8 :: rest) = decodeVex2 ps rest := rfl
theorem decodeBody_evex (ps rest : List Byte) : decodeBody ps (0x62#8 :: rest) = decodeEvex ps rest := rfl

/-! ### Prefixes -/

theorem pfxNoOpSize_iff (ps : List Pfx) : pfxNoOpSize ps = true ↔ pfxDistinct ps = true ∧ ps.contains .opSize = false := by
  simp [pfxNoOpSize]

theorem pfxOpSize_iff (ps : List Pfx) : pfxOpSize ps = true ↔ pfxDistinct ps = true ∧ ps.contains .opSize = true := by
  simp [pfxOpSize]

theorem isPrefixByte_map_rex (ps : List Pfx) (rex : Option Rex) :
    ∀ b ∈ ps.map Pfx.byte ++ rexBytes rex, isPrefixByte b = true := by
  intro b hb
  obtain hb | hb := List.mem_append.1 hb
  · exact isPrefixByte_map ps b hb
  · cases rex <;> simp_all [rexBytes]

/-- Prefixes without REX read back. -/
theorem readPrefixes_map {ps : List Pfx} (h : pfxDistinct ps = true) : readPrefixes (ps.map Pfx.byte) = .ok (ps, none) := by
  simpa [rexBytes] using readPrefixes_bytes ps none h

/-! ### The encoding of each family -/

/-- Rows 1 to 4: with `66` an XMM row, without it an MMX row or the refusal of R69. -/
theorem decode_encodeLegacy {opc : Byte} {e : LegacyEnc} (rest : List Byte) (hopc : isOpcode opc = true)
    (hpfx : pfxDistinct e.pfx = true) (hrm : e.rm.wf = true) :
    decode (encodeLegacy opc e ++ rest) =
      if e.pfx.contains .opSize then (if opc == 0xE8#8 then .instr (.psubsbXmm e) else .instr (.psubswXmm e))
      else if mmxRexBits e.rex e.rm then .refused .rexOnMmx
      else if opc == 0xE8#8 then .instr (.psubsbMm e) else .instr (.psubswMm e) := by
  rw [encodeLegacy, ← List.append_assoc, List.append_assoc, List.cons_append,
    decode_prefixes _ _ _ (isPrefixByte_map_rex e.pfx e.rex) (by decide), decodeBody_legacy, List.cons_append]
  simp only [decodeLegacy, hopc, Bool.not_true, Bool.false_eq_true, if_false, readModRM_bytes e.reg e.rm rest hrm,
    any_isUdPrefixByte_map, readPrefixes_bytes e.pfx e.rex hpfx]

theorem decode_encodeMmx {opc : Byte} {e : LegacyEnc} (rest : List Byte) (hopc : isOpcode opc = true) (hwf : e.wfMmx = true) :
    decode (encodeLegacy opc e ++ rest) = if opc == 0xE8#8 then .instr (.psubsbMm e) else .instr (.psubswMm e) := by
  simp only [LegacyEnc.wfMmx, Bool.and_eq_true, Bool.not_eq_true', pfxNoOpSize_iff] at hwf
  obtain ⟨⟨⟨hdistinct, hno⟩, hrm⟩, hrex⟩ := hwf
  rw [decode_encodeLegacy rest hopc hdistinct hrm, hno, hrex]
  rfl

theorem decode_encodeXmm {opc : Byte} {e : LegacyEnc} (rest : List Byte) (hopc : isOpcode opc = true) (hwf : e.wfXmm = true) :
    decode (encodeLegacy opc e ++ rest) = if opc == 0xE8#8 then .instr (.psubsbXmm e) else .instr (.psubswXmm e) := by
  simp only [LegacyEnc.wfXmm, Bool.and_eq_true, pfxOpSize_iff] at hwf
  obtain ⟨⟨hdistinct, h66⟩, hrm⟩ := hwf
  rw [decode_encodeLegacy rest hopc hdistinct hrm, h66, if_pos rfl]

/-- Rows 5 to 8, three-byte spelling. -/
theorem decode_encodeVex3 {opc : Byte} {e : Vex3Enc} (l : Bool) (rest : List Byte) (hopc : isOpcode opc = true)
    (hwf : e.wf = true) : decode (encodeVex3 opc l e ++ rest) = .instr (vex3Row opc l e) := by
  simp only [Vex3Enc.wf, Bool.and_eq_true, pfxNoOpSize_iff] at hwf
  obtain ⟨⟨hdistinct, hno⟩, hrm⟩ := hwf
  obtain ⟨hmap, hr, hx, hb⟩ := vex3_first e.r e.x e.b
  obtain ⟨hpp, hl, hw, hvvvv⟩ := vex3_second e.w l e.vvvv
  rw [encodeVex3, List.append_assoc, List.cons_append, decode_prefixes _ _ _ (isPrefixByte_map e.pfx) (by decide),
    decodeBody_vex3]
  simp only [List.cons_append, decodeVex3, hopc, hmap, hr, hx, hb, hpp, hl, hw, hvvvv, bne_self_eq_false, Bool.not_true,
    Bool.not_not, Bool.or_self, Bool.false_eq_true, if_false, readModRM_bytes e.reg e.rm rest hrm, udBeforeVex_map e.pfx hno,
    readPrefixes_map hdistinct]

/-- Rows 5 to 8, two-byte spelling. Its `v1` has the layout of the second byte of the three-byte one, with R for W. -/
theorem decode_encodeVex2 {opc : Byte} {e : Vex2Enc} (l : Bool) (rest : List Byte) (hopc : isOpcode opc = true)
    (hwf : e.wf = true) : decode (encodeVex2 opc l e ++ rest) = .instr (vex2Row opc l e) := by
  simp only [Vex2Enc.wf, Bool.and_eq_true, pfxNoOpSize_iff] at hwf
  obtain ⟨⟨hdistinct, hno⟩, hrm⟩ := hwf
  obtain ⟨hpp, hl, hr, hvvvv⟩ := vex3_second (!e.r) l e.vvvv
  rw [encodeVex2, List.append_assoc, List.cons_append, decode_prefixes _ _ _ (isPrefixByte_map e.pfx) (by decide),
    decodeBody_vex2]
  simp only [List.cons_append, decodeVex2, hopc, hpp, hl, hr, hvvvv, bne_self_eq_false, Bool.not_true, Bool.not_not,
    Bool.false_eq_true, if_false, readModRM_bytes e.reg e.rm rest hrm, udBeforeVex_map e.pfx hno, readPrefixes_map hdistinct]

/-- Rows 9 to 14, in the row that opcode and `L'L` name. -/
theorem decode_encodeEvex {opc : Byte} {e : EvexEnc} {ll : BitVec 2} {i : Instr} (rest : List Byte) (hopc : isOpcode opc = true)
    (hwf : e.wf = true) (hrow : evexRow opc ll e = some i) : decode (encodeEvex opc ll e ++ rest) = .instr i := by
  simp only [EvexEnc.wf, Bool.and_eq_true, Bool.not_eq_true', pfxNoOpSize_iff] at hwf
  obtain ⟨⟨⟨hdistinct, hno⟩, hrm⟩, hzero⟩ := hwf
  obtain ⟨hmap, hres, hr, hx, hb, hrHi⟩ := evex_first e.r e.x e.b e.rHi
  obtain ⟨hpp, hone, hw, hvvvv⟩ := evex_second e.w e.vvvv
  obtain ⟨hbit, hz, hll, hvHi, haaa⟩ := evex_third e.z e.vHi ll e.aaa
  have hll3 : (ll == 3#2) = false := by
    refine beq_eq_false_iff_ne.2 fun h => ?_
    subst h
    cases hrow
  rw [encodeEvex, List.append_assoc, List.cons_append, decode_prefixes _ _ _ (isPrefixByte_map e.pfx) (by decide),
    decodeBody_evex]
  simp only [List.cons_append, decodeEvex, evexReserved, evexFields, hopc, hmap, hres, hr, hx, hb, hrHi, hpp, hone, hw, hvvvv,
    hbit, hz, hll, hvHi, haaa, hll3, hzero, bne_self_eq_false, Bool.not_true, Bool.not_not, Bool.or_self, Bool.false_eq_true,
    if_false, readModRM_bytes e.reg e.rm rest hrm, udBeforeVex_map e.pfx hno, readPrefixes_map hdistinct, hrow]

/-- A well-formed instruction is read back from its encoding, whatever bytes follow. -/
theorem decode_encode (i : Instr) (rest : List Byte) (h : i.wf = true) : decode (encode i ++ rest) = .instr i := by
  cases i with
  | psubsbMm e | psubswMm e => exact decode_encodeMmx rest rfl h
  | psubsbXmm e | psubswXmm e => exact decode_encodeXmm rest rfl h
  | vpsubsbXmmVex3 e | vpsubswXmmVex3 e => exact decode_encodeVex3 false rest rfl h
  | vpsubsbYmmVex3 e | vpsubswYmmVex3 e => exact decode_encodeVex3 true rest rfl h
  | vpsubsbXmmVex2 e | vpsubswXmmVex2 e => exact decode_encodeVex2 false rest rfl h
  | vpsubsbYmmVex2 e | vpsubswYmmVex2 e => exact decode_encodeVex2 true rest rfl h
  | vpsubsbXmmEvex e | vpsubsbYmmEvex e | vpsubsbZmmEvex e | vpsubswXmmEvex e | vpsubswYmmEvex e | vpsubswZmmEvex e =>
    exact decode_encodeEvex rest rfl h rfl

/-! ### Length -/

theorem encode_length (i : Instr) : (encode i).length = i.len := by
  cases i with
  | psubsbMm e | psubsbXmm e | psubswMm e | psubswXmm e => exact Laws.EncodedLength.legacy _ e
  | vpsubsbXmmVex3 e | vpsubswXmmVex3 e | vpsubsbYmmVex3 e | vpsubswYmmVex3 e => exact Laws.EncodedLength.vex3 _ _ e
  | vpsubsbXmmVex2 e | vpsubswXmmVex2 e | vpsubsbYmmVex2 e | vpsubswYmmVex2 e => exact Laws.EncodedLength.vex2 _ _ e
  | vpsubsbXmmEvex e | vpsubsbYmmEvex e | vpsubsbZmmEvex e | vpsubswXmmEvex e | vpsubswYmmEvex e | vpsubswZmmEvex e =>
    exact Laws.EncodedLength.evex _ _ e

theorem pfxNoOpSize_length {ps : List Pfx} (h : pfxNoOpSize ps = true) : ps.length ≤ 2 := by
  obtain ⟨hdistinct, hno⟩ := (pfxNoOpSize_iff ps).1 h
  exact (pfxDistinct_length ps hdistinct).2 hno

theorem LegacyEnc.len_le {e : LegacyEnc} (h : pfxDistinct e.pfx = true) : e.len ≤ 12 := by
  have hpfx := (pfxDistinct_length e.pfx h).1
  have hrex : (if e.rex.isSome then 1 else 0) ≤ 1 := by split <;> decide
  have hrm := (regMem_len_bounds e.rm).2
  simp only [LegacyEnc.len]
  omega

theorem Vex3Enc.len_le {e : Vex3Enc} (h : pfxNoOpSize e.pfx = true) : e.len ≤ 12 := by
  have hpfx := pfxNoOpSize_length h
  have hrm := (regMem_len_bounds e.rm).2
  simp only [Vex3Enc.len]
  omega

theorem Vex2Enc.len_le {e : Vex2Enc} (h : pfxNoOpSize e.pfx = true) : e.len ≤ 11 := by
  have hpfx := pfxNoOpSize_length h
  have hrm := (regMem_len_bounds e.rm).2
  simp only [Vex2Enc.len]
  omega

theorem EvexEnc.len_le {e : EvexEnc} (h : pfxNoOpSize e.pfx = true) : e.len ≤ 13 := by
  have hpfx := pfxNoOpSize_length h
  have hrm := (regMem_len_bounds e.rm).2
  simp only [EvexEnc.len]
  omega

/-- A well-formed instruction has 13 bytes at most (R86): EVEX with two prefixes, SIB and a 32-bit displacement. -/
theorem len_le_of_wf {i : Instr} (h : i.wf = true) : i.len ≤ 13 := by
  cases i with
  | psubsbMm e | psubswMm e =>
    simp only [Instr.wf, LegacyEnc.wfMmx, Bool.and_eq_true, pfxNoOpSize_iff] at h
    obtain ⟨⟨⟨hdistinct, -⟩, -⟩, -⟩ := h
    exact (LegacyEnc.len_le hdistinct).trans (by decide)
  | psubsbXmm e | psubswXmm e =>
    simp only [Instr.wf, LegacyEnc.wfXmm, Bool.and_eq_true, pfxOpSize_iff] at h
    obtain ⟨⟨hdistinct, -⟩, -⟩ := h
    exact (LegacyEnc.len_le hdistinct).trans (by decide)
  | vpsubsbXmmVex3 e | vpsubswXmmVex3 e | vpsubsbYmmVex3 e | vpsubswYmmVex3 e =>
    obtain ⟨hpfx, -⟩ := Bool.and_eq_true_iff.1 h
    exact (Vex3Enc.len_le hpfx).trans (by decide)
  | vpsubsbXmmVex2 e | vpsubswXmmVex2 e | vpsubsbYmmVex2 e | vpsubswYmmVex2 e =>
    obtain ⟨hpfx, -⟩ := Bool.and_eq_true_iff.1 h
    exact (Vex2Enc.len_le hpfx).trans (by decide)
  | vpsubsbXmmEvex e | vpsubsbYmmEvex e | vpsubsbZmmEvex e | vpsubswXmmEvex e | vpsubswYmmEvex e | vpsubswZmmEvex e =>
    simp only [Instr.wf, EvexEnc.wf, Bool.and_eq_true] at h
    obtain ⟨⟨hpfx, -⟩, -⟩ := h
    exact EvexEnc.len_le hpfx

/-- Settles O42: the fetch at pc begins with the instruction's bytes, of which there are at most 13, and these read back. -/
theorem stepRunsEncodedBytes : Obligations.StepRunsEncodedBytes := by
  intro i s hwf hmode hbytes
  have hlen : (encode i).length ≤ maxInstrBytes := encode_length i ▸ (len_le_of_wf hwf).trans (by decide)
  obtain ⟨rest, hfetch⟩ := fetchFrom_covers s (encode i) s.pc.toNat maxInstrBytes hlen hbytes
  rw [step_of_long64 hmode, State.fetch, hfetch, decode_encode i rest hwf, stepDecoded]

end Sys2Proof
end

section
/-! What bytes decode to an instruction (30_encoding.md R64 to R87). Each family reads the instruction's body, from the first byte
that is no prefix to its last, and judges it without the prefixes; then it judges the prefixes, all families alike. So what an
instruction becomes with other bytes in front of its body follows from those bytes alone. -/

namespace Sys2Proof

open Sys2Proof.Machine

/-! ### The verdict on the prefixes -/

/-- The prefix bytes that are #UD: `F0`, `F2`, `F3`, and before a VEX or EVEX prefix (`vex`) also `66` and REX (R70, R75, R81). -/
def isUdPrefix (vex : Bool) (b : Byte) : Bool := isUdPrefixByte b || vex && (isRexByte b || b == 0x66#8)

/-- What prefix bytes `ps` make of a body that is `row` with admitted prefixes: #UD first, then the refusals of R65 (log 18). -/
def judgePrefixes (vex : Bool) (row : List Pfx → Option Rex → Decoded) (ps : List Byte) : Decoded :=
  if ps.any (isUdPrefix vex) then .invalid
  else match readPrefixes ps with
    | .error why => .refused why
    | .ok (pfx, rex) => row pfx rex

theorem isUdPrefix_false : isUdPrefix false = isUdPrefixByte := by
  funext b
  simp [isUdPrefix]

theorem any_isUdPrefix_true (ps : List Byte) : ps.any (isUdPrefix true) = udBeforeVex ps := by
  have h : isUdPrefix true = fun b => isUdPrefixByte b || isRexByte b || b == 0x66#8 := by
    funext b
    simp only [isUdPrefix, Bool.true_and, Bool.or_assoc]
  rw [h, udBeforeVex]

section

variable {vex : Bool} {row : List Pfx → Option Rex → Decoded} {ps : List Byte}

theorem judgePrefixes_of_ud (h : ps.any (isUdPrefix vex) = true) : judgePrefixes vex row ps = .invalid := if_pos h

theorem judgePrefixes_of_error {why : Unadmitted} (hud : ps.any (isUdPrefix vex) = false) (h : readPrefixes ps = .error why) :
    judgePrefixes vex row ps = .refused why := by
  simp only [judgePrefixes, hud, h, Bool.false_eq_true, if_false]

theorem judgePrefixes_of_ok {pfx : List Pfx} {rex : Option Rex} (hud : ps.any (isUdPrefix vex) = false)
    (h : readPrefixes ps = .ok (pfx, rex)) : judgePrefixes vex row ps = row pfx rex := by
  simp only [judgePrefixes, hud, h, Bool.false_eq_true, if_false]

theorem judgePrefixes_instr {i : Instr} (h : judgePrefixes vex row ps = .instr i) :
    ps.any (isUdPrefix vex) = false ∧ ∃ pfx rex, readPrefixes ps = .ok (pfx, rex) ∧ row pfx rex = .instr i := by
  cases hud : ps.any (isUdPrefix vex) with
  | true => cases (judgePrefixes_of_ud hud).symm.trans h
  | false =>
    match hread : readPrefixes ps with
    | .error why => cases (judgePrefixes_of_error hud hread).symm.trans h
    | .ok (pfx, rex) => exact ⟨rfl, pfx, rex, rfl, (judgePrefixes_of_ok hud hread).symm.trans h⟩

end

/-! ### The rows of each family -/

/-- Rows 1 to 4 by opcode and prefixes; without `66` the REX bits of R69 are refused. -/
def legacyRow (opc : Byte) (reg : BitVec 3) (rm : RegMem) (pfx : List Pfx) (rex : Option Rex) : Decoded :=
  let e : LegacyEnc := { pfx := pfx, rex := rex, reg := reg, rm := rm }
  if pfx.contains .opSize then .instr (if opc == 0xE8#8 then .psubsbXmm e else .psubswXmm e)
  else if mmxRexBits rex rm then .refused .rexOnMmx
  else .instr (if opc == 0xE8#8 then .psubsbMm e else .psubswMm e)

/-- Rows 9 to 14 by opcode and `L'L`, as a verdict. -/
def evexVerdict (opc : Byte) (ll : BitVec 2) (e : EvexEnc) : Decoded :=
  match evexRow opc ll e with
  | none => .invalid
  | some i => .instr i

theorem evexVerdict_instr {opc : Byte} {ll : BitVec 2} {e : EvexEnc} {i : Instr} (h : evexVerdict opc ll e = .instr i) :
    evexRow opc ll e = some i := by
  unfold evexVerdict at h
  split at h
  next => cases h
  next j hrow => exact Decoded.instr.inj h ▸ hrow

/-- `i` is a well-formed instruction, in VEX or EVEX encoding or not (`vex`), with prefixes `pfx`, and encoded in `bytes`. -/
structure EncodedAs (i : Instr) (vex : Bool) (pfx : List Pfx) (bytes : List Byte) : Prop where
  vex : isVexOrEvexForm i = vex
  pfx : instrPfx i = pfx
  wf : i.wf = true
  bytes : encode i = bytes

theorem encodedAs_xmm {opc : Byte} (hopc : isOpcode opc = true) {e : LegacyEnc} (hwf : e.wfXmm = true) :
    EncodedAs (if opc == 0xE8#8 then .psubsbXmm e else .psubswXmm e) false e.pfx (encodeLegacy opc e) := by
  obtain rfl | rfl := (isOpcode_iff opc).1 hopc <;> exact ⟨rfl, rfl, hwf, rfl⟩

theorem encodedAs_mmx {opc : Byte} (hopc : isOpcode opc = true) {e : LegacyEnc} (hwf : e.wfMmx = true) :
    EncodedAs (if opc == 0xE8#8 then .psubsbMm e else .psubswMm e) false e.pfx (encodeLegacy opc e) := by
  obtain rfl | rfl := (isOpcode_iff opc).1 hopc <;> exact ⟨rfl, rfl, hwf, rfl⟩

theorem encodedAs_legacyRow {opc : Byte} {reg : BitVec 3} {rm : RegMem} {pfx : List Pfx} {rex : Option Rex} {i : Instr}
    (hopc : isOpcode opc = true) (hpfx : pfxDistinct pfx = true) (hrm : rm.wf = true)
    (h : legacyRow opc reg rm pfx rex = .instr i) :
    EncodedAs i false pfx (encodeLegacy opc { pfx := pfx, rex := rex, reg := reg, rm := rm }) := by
  unfold legacyRow at h
  split at h
  next h66 =>
    cases h
    exact encodedAs_xmm hopc (Bool.and_eq_true_iff.2 ⟨(pfxOpSize_iff pfx).2 ⟨hpfx, h66⟩, hrm⟩)
  next h66 =>
    split at h
    next => cases h
    next hrex =>
      cases h
      have hno : pfxNoOpSize pfx = true := (pfxNoOpSize_iff pfx).2 ⟨hpfx, Bool.eq_false_iff.2 h66⟩
      exact encodedAs_mmx hopc (by simp only [LegacyEnc.wfMmx, hno, hrm, hrex, Bool.and_self, Bool.not_false])

theorem encodedAs_vex3Row {opc : Byte} (hopc : isOpcode opc = true) (l : Bool) {e : Vex3Enc} (hpfx : pfxNoOpSize e.pfx = true)
    (hrm : e.rm.wf = true) : EncodedAs (vex3Row opc l e) true e.pfx (encodeVex3 opc l e) := by
  have hwf : e.wf = true := Bool.and_eq_true_iff.2 ⟨hpfx, hrm⟩
  obtain rfl | rfl := (isOpcode_iff opc).1 hopc <;> cases l <;> exact ⟨rfl, rfl, hwf, rfl⟩

theorem encodedAs_vex2Row {opc : Byte} (hopc : isOpcode opc = true) (l : Bool) {e : Vex2Enc} (hpfx : pfxNoOpSize e.pfx = true)
    (hrm : e.rm.wf = true) : EncodedAs (vex2Row opc l e) true e.pfx (encodeVex2 opc l e) := by
  have hwf : e.wf = true := Bool.and_eq_true_iff.2 ⟨hpfx, hrm⟩
  obtain rfl | rfl := (isOpcode_iff opc).1 hopc <;> cases l <;> exact ⟨rfl, rfl, hwf, rfl⟩

theorem eq_of_bitVec_two (ll : BitVec 2) : ll = 0#2 ∨ ll = 1#2 ∨ ll = 2#2 ∨ ll = 3#2 := by
  revert ll; decide

/-- `L'L` = 11b names no row (R77), each other value one for each opcode. -/
theorem encodedAs_evexRow {opc : Byte} (hopc : isOpcode opc = true) {ll : BitVec 2} {e : EvexEnc} {i : Instr} (hwf : e.wf = true)
    (h : evexRow opc ll e = some i) : EncodedAs i true e.pfx (encodeEvex opc ll e) := by
  obtain rfl | rfl := (isOpcode_iff opc).1 hopc <;> obtain rfl | rfl | rfl | rfl := eq_of_bitVec_two ll <;> cases h <;>
    exact ⟨rfl, rfl, hwf, rfl⟩

/-! ### The prefix bytes of VEX and EVEX from their fields -/

/-- `v1` of a three-byte VEX prefix (R72). -/
theorem vex3_first_of_fields {v : Byte} (h : v.extractLsb' 0 5 = 1#5) :
    (BitVec.ofBool (!!v.getLsbD 7) ++ BitVec.ofBool (!!v.getLsbD 6) ++ BitVec.ofBool (!!v.getLsbD 5) ++ 1#5 : BitVec 8) = v := by
  revert v; decide

/-- `v2` of a three-byte VEX prefix (R72); also `v1` of a two-byte one, which has R for W (R73). -/
theorem vex3_second_of_fields {v : Byte} (h : v.extractLsb' 0 2 = 1#2) :
    (BitVec.ofBool (v.getLsbD 7) ++ ~~~(~~~(v.extractLsb' 3 4)) ++ BitVec.ofBool (v.getLsbD 2) ++ 1#2 : BitVec 8) = v := by
  revert v; decide

/-- `P0` of an EVEX prefix (R76). -/
theorem evex_first_of_fields {p : Byte} (hmap : p.extractLsb' 0 2 = 1#2) (hzero : p.extractLsb' 2 2 = 0#2) :
    (BitVec.ofBool (!!p.getLsbD 7) ++ BitVec.ofBool (!!p.getLsbD 6) ++ BitVec.ofBool (!!p.getLsbD 5) ++
      BitVec.ofBool (!!p.getLsbD 4) ++ 1#4 : BitVec 8) = p := by
  revert p; decide

/-- `P1` of an EVEX prefix (R76). -/
theorem evex_second_of_fields {p : Byte} (hpp : p.extractLsb' 0 2 = 1#2) (hone : p.getLsbD 2 = true) :
    (BitVec.ofBool (p.getLsbD 7) ++ ~~~(~~~(p.extractLsb' 3 4)) ++ 1#1 ++ 1#2 : BitVec 8) = p := by
  revert p; decide

/-- `P2` of an EVEX prefix (R76). -/
theorem evex_third_of_fields {p : Byte} (hb : p.getLsbD 4 = false) :
    (BitVec.ofBool (p.getLsbD 7) ++ p.extractLsb' 5 2 ++ 0#1 ++ BitVec.ofBool (!!p.getLsbD 3) ++ p.extractLsb' 0 3 : BitVec 8)
      = p := by
  revert p; decide

/-! ### A body and its family -/

/-- `i` is read from prefix bytes `ps` and `body`: the two begin with its encoding, and the body's family judges all prefix bytes
before this body in one way. -/
structure ReadFrom (i : Instr) (ps body : List Byte) : Prop where
  wf : i.wf = true
  bytes : ∃ rest, ps ++ body = encode i ++ rest
  noUd : ps.any (isUdPrefix (isVexOrEvexForm i)) = false
  prefixes : ∃ rex, readPrefixes ps = .ok (instrPfx i, rex)
  judged : ∃ row, ∀ ps', decodeBody ps' body = judgePrefixes (isVexOrEvexForm i) row ps'

theorem decodeLegacy_eq_judgePrefixes {opc : Byte} {rest : List Byte} {reg : BitVec 3} {rm : RegMem} (hopc : isOpcode opc = true)
    (hread : readModRM rest = some (reg, rm)) (ps : List Byte) :
    decodeLegacy ps (opc :: rest) = judgePrefixes false (legacyRow opc reg rm) ps := by
  simp only [decodeLegacy, judgePrefixes, legacyRow, hopc, hread, isUdPrefix_false, Bool.not_true, Bool.false_eq_true, if_false,
    apply_ite Decoded.instr] <;> rfl

theorem decodeVex3_eq_judgePrefixes {v1 v2 opc : Byte} {rest : List Byte} {reg : BitVec 3} {rm : RegMem}
    (hopc : isOpcode opc = true) (hmap : v1.extractLsb' 0 5 = 1#5) (hpp : v2.extractLsb' 0 2 = 1#2)
    (hread : readModRM rest = some (reg, rm)) (ps : List Byte) :
    decodeVex3 ps (v1 :: v2 :: opc :: rest) =
      judgePrefixes true (fun pfx _ => .instr (vex3Row opc (v2.getLsbD 2)
        { pfx := pfx, r := !v1.getLsbD 7, x := !v1.getLsbD 6, b := !v1.getLsbD 5, w := v2.getLsbD 7,
          vvvv := ~~~(v2.extractLsb' 3 4), reg := reg, rm := rm })) ps := by
  simp only [decodeVex3, judgePrefixes, hopc, hmap, hpp, hread, any_isUdPrefix_true, bne_self_eq_false, Bool.or_self, Bool.not_true,
    Bool.false_eq_true, if_false] <;> rfl

theorem decodeVex2_eq_judgePrefixes {v1 opc : Byte} {rest : List Byte} {reg : BitVec 3} {rm : RegMem}
    (hopc : isOpcode opc = true) (hpp : v1.extractLsb' 0 2 = 1#2) (hread : readModRM rest = some (reg, rm)) (ps : List Byte) :
    decodeVex2 ps (v1 :: opc :: rest) =
      judgePrefixes true (fun pfx _ => .instr (vex2Row opc (v1.getLsbD 2)
        { pfx := pfx, r := !v1.getLsbD 7, vvvv := ~~~(v1.extractLsb' 3 4), reg := reg, rm := rm })) ps := by
  simp only [decodeVex2, judgePrefixes, hopc, hpp, hread, any_isUdPrefix_true, bne_self_eq_false, Bool.not_true,
    Bool.false_eq_true, if_false] <;> rfl

theorem decodeEvex_eq_judgePrefixes {p0 p1 p2 opc : Byte} {rest : List Byte} {reg : BitVec 3} {rm : RegMem}
    (hopc : isOpcode opc = true) (hmap : p0.extractLsb' 0 2 = 1#2) (hpp : p1.extractLsb' 0 2 = 1#2)
    (hread : readModRM rest = some (reg, rm)) (hres : evexReserved p0 p1 p2 = false) (ps : List Byte) :
    decodeEvex ps (p0 :: p1 :: p2 :: opc :: rest) =
      judgePrefixes true (fun pfx _ =>
        evexVerdict opc (p2.extractLsb' 5 2) (evexFields pfx p0 p1 p2 reg rm)) ps := by
  simp only [decodeEvex, judgePrefixes, hopc, hmap, hpp, hread, hres, any_isUdPrefix_true, bne_self_eq_false, Bool.or_self,
    Bool.or_false, Bool.not_true, Bool.false_eq_true, if_false] <;> rfl

/-! ### What each family reads -/

theorem fields_of_decodeLegacy {ps bytes : List Byte} {i : Instr} (h : decodeLegacy ps bytes = .instr i) :
    ∃ opc rest reg rm, bytes = opc :: rest ∧ isOpcode opc = true ∧ readModRM rest = some (reg, rm) := by
  match bytes with
  | [] => cases h
  | opc :: rest =>
    cases hopc : isOpcode opc with
    | false => simp [decodeLegacy, hopc] at h
    | true =>
      match hread : readModRM rest with
      | none => simp [decodeLegacy, hopc, hread] at h
      | some (reg, rm) => exact ⟨opc, rest, reg, rm, rfl, hopc, hread⟩

/-- What a family has to show of its body: that it judges the prefixes before it in one way, and that every row it answers is
encoded in those prefixes and this body. -/
theorem readFrom_of_judged {vex : Bool} {row : List Pfx → Option Rex → Decoded} {ps body : List Byte} {i : Instr}
    (hjudged : ∀ ps', decodeBody ps' body = judgePrefixes vex row ps') (h : decodeBody ps body = .instr i)
    (hrow : ∀ pfx rex, pfxDistinct pfx = true → (vex = true → rex = none ∧ pfxNoOpSize pfx = true) →
      row pfx rex = .instr i → ∃ bytes rest, EncodedAs i vex pfx bytes ∧ pfx.map Pfx.byte ++ rexBytes rex ++ body = bytes ++ rest) :
    ReadFrom i ps body := by
  rw [hjudged] at h
  obtain ⟨hud, pfx, rex, hps, hi⟩ := judgePrefixes_instr h
  obtain ⟨hdistinct, hbytes⟩ := bytes_of_readPrefixes ps pfx rex hps
  have hvex (hv : vex = true) : rex = none ∧ pfxNoOpSize pfx = true := by
    subst hv
    exact readPrefixes_before_vex ps pfx rex hps (any_isUdPrefix_true ps ▸ hud)
  obtain ⟨bytes, rest, ⟨rfl, rfl, hwf, rfl⟩, hrest⟩ := hrow pfx rex hdistinct hvex hi
  exact ⟨hwf, ⟨rest, hbytes ▸ hrest⟩, hud, ⟨rex, hps⟩, ⟨row, hjudged⟩⟩

theorem readFrom_legacy {ps bytes : List Byte} {i : Instr} (h : decodeLegacy ps bytes = .instr i) :
    ReadFrom i ps (0x0F#8 :: bytes) := by
  obtain ⟨opc, rest, reg, rm, rfl, hopc, hread⟩ := fields_of_decodeLegacy h
  obtain ⟨hrm, rest', rfl⟩ := bytes_of_readModRM rest reg rm hread
  refine readFrom_of_judged (decodeLegacy_eq_judgePrefixes hopc hread) h fun pfx rex hpfx _ hrow =>
    ⟨_, rest', encodedAs_legacyRow hopc hpfx hrm hrow, ?_⟩
  simp only [encodeLegacy, List.append_assoc, List.cons_append]

theorem fields_of_decodeVex3 {ps bytes : List Byte} {i : Instr} (h : decodeVex3 ps bytes = .instr i) :
    ∃ v1 v2 opc rest reg rm, bytes = v1 :: v2 :: opc :: rest ∧ isOpcode opc = true ∧ v1.extractLsb' 0 5 = 1#5 ∧
      v2.extractLsb' 0 2 = 1#2 ∧ readModRM rest = some (reg, rm) := by
  unfold decodeVex3 at h
  split at h
  next v1 v2 opc rest =>
    cases hopc : isOpcode opc with
    | false => simp [hopc] at h
    | true =>
      by_cases hmap : v1.extractLsb' 0 5 = 1#5 ∧ v2.extractLsb' 0 2 = 1#2
      · match hread : readModRM rest with
        | none => simp [hopc, hmap, hread] at h
        | some (reg, rm) => exact ⟨v1, v2, opc, rest, reg, rm, rfl, hopc, hmap.1, hmap.2, hread⟩
      · simp [hopc, ← not_and_or, hmap] at h
  next => cases h

theorem readFrom_vex3 {ps bytes : List Byte} {i : Instr} (h : decodeVex3 ps bytes = .instr i) :
    ReadFrom i ps (0xC4#8 :: bytes) := by
  obtain ⟨v1, v2, opc, rest, reg, rm, rfl, hopc, hmap, hpp, hread⟩ := fields_of_decodeVex3 h
  obtain ⟨hrm, rest', rfl⟩ := bytes_of_readModRM rest reg rm hread
  refine readFrom_of_judged (decodeVex3_eq_judgePrefixes hopc hmap hpp hread) h fun pfx rex _ hadmit hrow => ?_
  obtain ⟨rfl, hpfx⟩ := hadmit rfl
  cases hrow
  refine ⟨_, rest', encodedAs_vex3Row hopc _ hpfx hrm, ?_⟩
  simp only [encodeVex3, vex3_first_of_fields hmap, vex3_second_of_fields hpp, rexBytes, List.append_nil, List.append_assoc,
    List.cons_append]

theorem fields_of_decodeVex2 {ps bytes : List Byte} {i : Instr} (h : decodeVex2 ps bytes = .instr i) :
    ∃ v1 opc rest reg rm, bytes = v1 :: opc :: rest ∧ isOpcode opc = true ∧ v1.extractLsb' 0 2 = 1#2 ∧
      readModRM rest = some (reg, rm) := by
  unfold decodeVex2 at h
  split at h
  next v1 opc rest =>
    cases hopc : isOpcode opc with
    | false => simp [hopc] at h
    | true =>
      by_cases hpp : v1.extractLsb' 0 2 = 1#2
      · match hread : readModRM rest with
        | none => simp [hopc, hpp, hread] at h
        | some (reg, rm) => exact ⟨v1, opc, rest, reg, rm, rfl, hopc, hpp, hread⟩
      · simp [hopc, hpp] at h
  next => cases h

theorem readFrom_vex2 {ps bytes : List Byte} {i : Instr} (h : decodeVex2 ps bytes = .instr i) :
    ReadFrom i ps (0xC5#8 :: bytes) := by
  obtain ⟨v1, opc, rest, reg, rm, rfl, hopc, hpp, hread⟩ := fields_of_decodeVex2 h
  obtain ⟨hrm, rest', rfl⟩ := bytes_of_readModRM rest reg rm hread
  refine readFrom_of_judged (decodeVex2_eq_judgePrefixes hopc hpp hread) h fun pfx rex _ hadmit hrow => ?_
  obtain ⟨rfl, hpfx⟩ := hadmit rfl
  cases hrow
  refine ⟨_, rest', encodedAs_vex2Row hopc _ hpfx hrm, ?_⟩
  simp only [encodeVex2, Bool.not_not, vex3_second_of_fields hpp, rexBytes, List.append_nil, List.append_assoc, List.cons_append]

theorem fields_of_decodeEvex {ps bytes : List Byte} {i : Instr} (h : decodeEvex ps bytes = .instr i) :
    ∃ p0 p1 p2 opc rest reg rm, bytes = p0 :: p1 :: p2 :: opc :: rest ∧ isOpcode opc = true ∧ p0.extractLsb' 0 2 = 1#2 ∧
      p1.extractLsb' 0 2 = 1#2 ∧ readModRM rest = some (reg, rm) ∧ evexReserved p0 p1 p2 = false := by
  unfold decodeEvex at h
  split at h
  next p0 p1 p2 opc rest =>
    cases hopc : isOpcode opc with
    | false => simp [hopc] at h
    | true =>
      by_cases hmap : p0.extractLsb' 0 2 = 1#2 ∧ p1.extractLsb' 0 2 = 1#2
      · match hread : readModRM rest with
        | none => simp [hopc, hmap, hread] at h
        | some (reg, rm) =>
          cases hres : evexReserved p0 p1 p2 with
          | true => simp [hopc, hmap, hread, hres] at h
          | false => exact ⟨p0, p1, p2, opc, rest, reg, rm, rfl, hopc, hmap.1, hmap.2, hread, hres⟩
      · simp [hopc, ← not_and_or, hmap] at h
  next => cases h

theorem evexReserved_eq_false {p0 p1 p2 : Byte} (h : evexReserved p0 p1 p2 = false) :
    p0.extractLsb' 2 2 = 0#2 ∧ p1.getLsbD 2 = true ∧ p2.getLsbD 4 = false ∧
      (p2.getLsbD 7 && p2.extractLsb' 0 3 == 0#3) = false := by
  simp only [evexReserved, Bool.or_eq_false_iff, bne_eq_false_iff_eq, Bool.not_eq_false'] at h
  obtain ⟨⟨⟨⟨hzero, hone⟩, hb⟩, -⟩, hz⟩ := h
  exact ⟨hzero, hone, hb, hz⟩

theorem readFrom_evex {ps bytes : List Byte} {i : Instr} (h : decodeEvex ps bytes = .instr i) :
    ReadFrom i ps (0x62#8 :: bytes) := by
  obtain ⟨p0, p1, p2, opc, rest, reg, rm, rfl, hopc, hmap, hpp, hread, hres⟩ := fields_of_decodeEvex h
  obtain ⟨hrm, rest', rfl⟩ := bytes_of_readModRM rest reg rm hread
  obtain ⟨hzero, hone, hb, hz⟩ := evexReserved_eq_false hres
  refine readFrom_of_judged (decodeEvex_eq_judgePrefixes hopc hmap hpp hread hres) h fun pfx rex _ hadmit hrow => ?_
  obtain ⟨rfl, hpfx⟩ := hadmit rfl
  have hwf : (evexFields pfx p0 p1 p2 reg rm).wf = true := by
    simp only [EvexEnc.wf, evexFields, hpfx, hrm, hz, Bool.and_self, Bool.not_false]
  refine ⟨_, rest', encodedAs_evexRow hopc hwf (evexVerdict_instr hrow), ?_⟩
  simp only [encodeEvex, evexFields, evex_first_of_fields hmap hzero, evex_second_of_fields hpp hone, evex_third_of_fields hb,
    rexBytes, List.append_nil, List.append_assoc, List.cons_append]

/-- An instruction that prefix bytes and a body decode to is read from them. The cases are the families' first bytes. -/
theorem readFrom_of_decodeBody {ps body : List Byte} {i : Instr} (h : decodeBody ps body = .instr i) : ReadFrom i ps body := by
  match body with
  | [] => cases h
  | b :: rest =>
    by_cases hlegacy : b = 0x0F#8
    · subst hlegacy; exact readFrom_legacy h
    by_cases hvex2 : b = 0xC5#8
    · subst hvex2; exact readFrom_vex2 h
    by_cases hvex3 : b = 0xC4#8
    · subst hvex3; exact readFrom_vex3 h
    by_cases hevex : b = 0x62#8
    · subst hevex; exact readFrom_evex h
    · simp [decodeBody, hlegacy, hvex2, hvex3, hevex] at h

/-! ### The statements -/

/-- Settles O45: `decode_encode`. -/
theorem decodeOfEncode : Obligations.DecodeOfEncode := decode_encode

theorem three_le_len (i : Instr) : 3 ≤ i.len := by
  have hrm := (regMem_len_bounds (instrRegMem i)).1
  cases i with
  | psubsbMm e | psubsbXmm e | psubswMm e | psubswXmm e => simp only [instrRegMem, Instr.len, LegacyEnc.len] at *; omega
  | vpsubsbXmmVex3 e | vpsubswXmmVex3 e | vpsubsbYmmVex3 e | vpsubswYmmVex3 e =>
    simp only [instrRegMem, Instr.len, Vex3Enc.len] at *; omega
  | vpsubsbXmmVex2 e | vpsubswXmmVex2 e | vpsubsbYmmVex2 e | vpsubswYmmVex2 e =>
    simp only [instrRegMem, Instr.len, Vex2Enc.len] at *; omega
  | vpsubsbXmmEvex e | vpsubsbYmmEvex e | vpsubsbZmmEvex e | vpsubswXmmEvex e | vpsubswYmmEvex e | vpsubswZmmEvex e =>
    simp only [instrRegMem, Instr.len, EvexEnc.len] at *; omega

/-- Settles O46: the bytes begin with the encoding, and a well-formed instruction has 3 to 13 bytes. -/
theorem encodeOfDecode : Obligations.EncodeOfDecode := by
  intro bytes i h
  obtain ⟨hwf, ⟨rest, hbytes⟩, -, -, -⟩ := readFrom_of_decodeBody h
  rw [List.takeWhile_append_dropWhile] at hbytes
  refine ⟨hwf, ?_, encode_length i, three_le_len i, len_le_of_wf hwf⟩
  rw [hbytes, List.take_left' (encode_length i)]

end Sys2Proof
end

section
/-! Prefix bytes that no instruction has, and fields of REX and EVEX that none has (30_encoding.md R65, R69, R70, R75, R76, R80,
R81, R83, R84). A further prefix byte in front of an instruction leaves its body as it is, so `judgePrefixes` says what becomes
of it. -/

namespace Sys2Proof

open Sys2Proof.Machine

/-! ### One more prefix byte -/

theorem isPrefixByte_of_isUdPrefix {vex : Bool} {b : Byte} (h : isUdPrefix vex b = true) : isPrefixByte b = true := by
  simp only [isUdPrefix, Bool.or_eq_true, Bool.and_eq_true, beq_iff_eq] at h
  obtain hud | ⟨-, hrex | rfl⟩ := h
  · simp [isPrefixByte, hud]
  · simp [isPrefixByte, hrex]
  · rfl

/-- With `F0`, `F2`, `F3` or, before VEX and EVEX, `66` or REX in front of its prefixes, a body that decodes is #UD. -/
theorem decode_cons_of_isUdPrefix {bytes : List Byte} {i : Instr} {b : Byte} (h : decode bytes = .instr i)
    (hb : isUdPrefix (isVexOrEvexForm i) b = true) : decode (b :: bytes) = .invalid := by
  obtain ⟨row, hjudged⟩ := (readFrom_of_decodeBody h).judged
  have hprefix := isPrefixByte_of_isUdPrefix hb
  rw [decode, List.takeWhile_cons_of_pos hprefix, List.dropWhile_cons_of_pos hprefix, hjudged]
  exact judgePrefixes_of_ud (by simp only [List.any_cons, hb, Bool.true_or])

/-- With a byte in front of its prefixes that makes reading them fail, and is no #UD, a body that decodes is refused so. -/
theorem decode_cons_of_refused {bytes : List Byte} {i : Instr} {b : Byte} {why : Unadmitted} (h : decode bytes = .instr i)
    (hprefix : isPrefixByte b = true) (hb : isUdPrefix (isVexOrEvexForm i) b = false)
    (hread : readPrefixes (b :: bytes.takeWhile isPrefixByte) = .error why) : decode (b :: bytes) = .refused why := by
  obtain ⟨-, -, hud, -, row, hjudged⟩ := readFrom_of_decodeBody h
  rw [decode, List.takeWhile_cons_of_pos hprefix, List.dropWhile_cons_of_pos hprefix, hjudged]
  exact judgePrefixes_of_error (by simp only [List.any_cons, hb, hud, Bool.or_self]) hread

/-- Settles O48: each of these bytes is a reason for #UD in front of the form. -/
theorem invalidPrefixesAreInvalid : Obligations.InvalidPrefixesAreInvalid := by
  intro i b rest hwf hb
  apply decode_cons_of_isUdPrefix (decode_encode i rest hwf)
  obtain rfl | rfl | rfl | ⟨hvex, rfl | hrex⟩ := hb
  · rfl
  · rfl
  · rfl
  · rw [hvex]; rfl
  · simp [isUdPrefix, isRexByte, hvex, hrex]

/-! ### Repeated prefixes and null overrides -/

/-- Whether an admitted prefix is #UD is a matter of its group. -/
theorem isUdPrefix_byte (vex : Bool) (p : Pfx) : isUdPrefix vex p.byte = (vex && p.group == 0) := by
  cases p <;> cases vex <;> rfl

theorem readPrefixes_cons_repeated {ps : List Byte} {pfx : List Pfx} {rex : Option Rex} {p q : Pfx}
    (h : readPrefixes ps = .ok (pfx, rex)) (hq : q ∈ pfx) (hgroup : p.group = q.group) :
    readPrefixes (p.byte :: ps) = .error .repeatedPrefix := by
  have hany : pfx.any (fun r => r.group == p.group) = true := List.any_eq_true.2 ⟨q, hq, by simp [hgroup]⟩
  simp only [readPrefixes, isRexByte_pfx, pfxOfByte_byte, h, hany, Bool.false_eq_true, if_false, if_true]

/-- A null segment override is a prefix byte, no #UD and not admitted. -/
theorem nullSegment_isRefused {b : Byte} (h : b = 0x26#8 ∨ b = 0x2E#8 ∨ b = 0x36#8 ∨ b = 0x3E#8) :
    isPrefixByte b = true ∧ (∀ vex, isUdPrefix vex b = false) ∧ ∀ ps, readPrefixes (b :: ps) = .error .nullSegment := by
  obtain rfl | rfl | rfl | rfl := h <;> exact ⟨rfl, by decide, fun _ => rfl⟩

/-- Settles O49: reading the prefixes fails at the byte in front. A repeated one is no #UD, as the one it repeats is none. -/
theorem redundantPrefixesAreRefused : Obligations.RedundantPrefixesAreRefused := by
  intro i rest hwf
  have hdecode := decode_encode i rest hwf
  refine ⟨fun p q hq hgroup => ?_, fun b hb => ?_⟩
  · obtain ⟨-, -, hud, ⟨rex, hread⟩, -⟩ := readFrom_of_decodeBody hdecode
    have hmem : q.byte ∈ (encode i ++ rest).takeWhile isPrefixByte := by
      rw [(bytes_of_readPrefixes _ _ _ hread).2]
      exact List.mem_append_left _ (List.mem_map_of_mem hq)
    have hno : isUdPrefix (isVexOrEvexForm i) q.byte = false := Bool.eq_false_iff.2 (List.any_eq_false.1 hud _ hmem)
    exact decode_cons_of_refused hdecode (isPrefixByte_pfx p) (by rwa [isUdPrefix_byte, hgroup, ← isUdPrefix_byte])
      (readPrefixes_cons_repeated hread hq hgroup)
  · obtain ⟨hprefix, hno, hread⟩ := nullSegment_isRefused hb
    exact decode_cons_of_refused hdecode hprefix (hno _) (hread _)

/-! ### Fields of REX and EVEX -/

theorem evexReserved_iff (p0 p1 p2 : Byte) : evexReserved p0 p1 p2 = true ↔
    p0.extractLsb' 2 2 ≠ 0#2 ∨ p1.getLsbD 2 = false ∨ p2.extractLsb' 5 2 = 3#2 ∨ p2.getLsbD 4 = true ∨
      p2.getLsbD 7 = true ∧ p2.extractLsb' 0 3 = 0#3 := by
  simp only [evexReserved, Bool.or_eq_true, Bool.and_eq_true, bne_iff_ne, beq_iff_eq, Bool.not_eq_true']
  tauto

/-- Settles O47: the operand is read whole, then the reserved value decides. -/
theorem reservedEvexFieldsAreInvalid : Obligations.ReservedEvexFieldsAreInvalid := by
  intro p0 p1 p2 opc reg rm rest hrm hopc hmap hpp hres
  have hbody : decode (0x62#8 :: p0 :: p1 :: p2 :: opc :: (modrmBytes reg rm ++ rest)) =
      decodeEvex [] (p0 :: p1 :: p2 :: opc :: (modrmBytes reg rm ++ rest)) := rfl
  simp only [hbody, decodeEvex, (isOpcode_iff opc).2 hopc, hmap, hpp, readModRM_bytes reg rm rest hrm,
    (evexReserved_iff p0 p1 p2).2 hres, bne_self_eq_false, Bool.not_true, Bool.or_self, Bool.or_true, Bool.false_eq_true, if_false,
    if_true]

/-- Settles O50: without `66` these REX bits are refused in a legacy encoding that is otherwise an MMX row. -/
theorem rexOnMmxRegistersIsRefused : Obligations.RexOnMmxRegistersIsRefused := by
  intro e x opc rest hpfx hrm hopc hrex hbits
  obtain ⟨hdistinct, hno⟩ := (pfxNoOpSize_iff e.pfx).1 hpfx
  have hmmx : mmxRexBits e.rex e.rm = true := by simpa [mmxRexBits, hrex] using hbits
  rw [decode_encodeLegacy rest ((isOpcode_iff opc).2 hopc) hdistinct hrm, hno, hmmx]
  rfl

/-- Settles O44: the decoder evaluates to each listed instruction. -/
theorem listedWordsDecode : Obligations.ListedWordsDecode := by
  unfold Obligations.ListedWordsDecode
  decide

end Sys2Proof
end

section
/-! The W bit (30_encoding.md R68, R85): no meaning looks at it, nor does the length of an instruction. -/

namespace Sys2Proof.Machine

section

variable {n : Nat} (sub : BitVec n → BitVec n → BitVec n) (s : State) (w : Bool)

theorem execMmx_rexW {e : LegacyEnc} {x : Rex} (h : e.rex = some x) :
    execMmx sub { e with rex := some { x with w := w } } s = execMmx sub e s := by
  obtain ⟨pfx, rex, reg, rm⟩ := e
  subst h
  rfl

theorem execXmm_rexW {e : LegacyEnc} {x : Rex} (h : e.rex = some x) :
    execXmm sub { e with rex := some { x with w := w } } s = execXmm sub e s := by
  obtain ⟨pfx, rex, reg, rm⟩ := e
  subst h
  rfl

theorem execVex_w (l : Bool) (e : Vex3Enc) : execVex sub l { e with w := w } e.len s = execVex sub l e e.len s := rfl

theorem execEvex_w (vl : VecLen) (e : EvexEnc) : execEvex sub vl { e with w := w } s = execEvex sub vl e s := rfl

end

/-- Settles O51: each row is a call of its family. -/
theorem wBitIsIgnored : Obligations.WBitIsIgnored := by
  refine ⟨fun e x w s hrex f hf => ?_, fun e w s f hf => ?_, fun e w s f hf => ?_⟩
  · simp only [List.mem_cons, List.not_mem_nil, or_false] at hf
    obtain rfl | rfl | rfl | rfl := hf
    · exact execMmx_rexW subSB s w hrex
    · exact execMmx_rexW subSW s w hrex
    · exact execXmm_rexW subSB s w hrex
    · exact execXmm_rexW subSW s w hrex
  · simp only [List.mem_cons, List.not_mem_nil, or_false] at hf
    obtain rfl | rfl | rfl | rfl := hf <;> exact execVex_w _ s w _ e
  · simp only [List.mem_cons, List.not_mem_nil, or_false] at hf
    obtain rfl | rfl | rfl | rfl | rfl | rfl := hf <;> exact execEvex_w _ s w _ e

end Sys2Proof.Machine
end

section
/-! Addresses (30_encoding.md R67, R79, 10_state.md R26): the segment base, the effective address with 64 and with 32 bits, and
which accesses are relative to SS. -/

namespace Sys2Proof.Machine

/-! ### The segment -/

theorem segBase_segOverride (s : State) (pfx : List Pfx) : s.segBase (segOverride pfx) =
    if pfx.contains .segFs then s.fsBase else if pfx.contains .segGs then s.gsBase else 0#64 := by
  unfold segOverride
  split
  next => rfl
  next => split <;> rfl

theorem segOverride_isNone_iff (pfx : List Pfx) : (segOverride pfx).isNone = true ↔
    pfx.contains .segFs = false ∧ pfx.contains .segGs = false := by
  unfold segOverride
  cases pfx.contains .segFs <;> cases pfx.contains .segGs <;> simp

theorem stackBase_iff (b : Bool) (m : MemForm) : stackBase b m = true ↔
    b = false ∧
      ((∃ d, m = .indirect 5#3 d) ∨ (∃ ss iii d, m = .sib ss iii 4#3 d) ∨ (∃ ss iii d, m = .sib ss iii 5#3 d)) := by
  cases m <;> simp [stackBase]

theorem memRef_ssRel_iff (s : State) (pfx : List Pfx) (x b : Bool) (n len : Nat) (m : MemForm) :
    (memRef s pfx x b n len m).ssRel = true ↔ pfx.contains .segFs = false ∧ pfx.contains .segGs = false ∧ b = false ∧
      ((∃ d, m = .indirect 5#3 d) ∨ (∃ ss iii d, m = .sib ss iii 4#3 d) ∨ (∃ ss iii d, m = .sib ss iii 5#3 d)) := by
  rw [memRef, Bool.and_eq_true, segOverride_isNone_iff, stackBase_iff, and_assoc]

/-! ### Effective addresses -/

theorem effAddr_of_addrSize {s : State} {pfx : List Pfx} {x b : Bool} {n : Nat} {next : Word64} {m : MemForm}
    (h : pfx.contains .addrSize = true) : effAddr s pfx x b n next m = ((ea64 s x b n next m).setWidth 32).setWidth 64 := if_pos h

theorem memRef_la {s : State} {pfx : List Pfx} {x b : Bool} {n len : Nat} {m : MemForm} {base ea : Word64}
    (hbase : base = if pfx.contains .segFs then s.fsBase else if pfx.contains .segGs then s.gsBase else 0#64)
    (hea : effAddr s pfx x b n (s.pc + BitVec.ofNat 64 len) m = ea) : (memRef s pfx x b n len m).la = base + ea := by
  rw [memRef, segBase_segOverride, ← hbase, hea]

theorem dispTerm_eq {n : Nat} {disp : Disp → Word64} (habsent : disp .absent = 0#64)
    (h8 : ∀ d, disp (.d8 d) = d.signExtend 64 * BitVec.ofNat 64 n) (h32 : ∀ d, disp (.d32 d) = d.signExtend 64) (d : Disp) :
    dispTerm n d = disp d := by
  cases d with
  | absent => exact habsent.symm
  | d8 d => exact (h8 d).symm
  | d32 d => exact (h32 d).symm

/-- The low half of a scaled term of the formula. -/
theorem setWidth_mul_ofNat (a : Word64) (k : Nat) :
    (a * BitVec.ofNat 64 k).setWidth 32 = a.setWidth 32 * BitVec.ofNat 32 k := by
  rw [BitVec.setWidth_mul _ _ (by decide), BitVec.setWidth_ofNat_of_le (by decide)]

/-- The low half of a displacement: what R67 adds in 32 bits. -/
theorem setWidth_dispTerm {n : Nat} {disp : Disp → BitVec 32} (habsent : disp .absent = 0#32)
    (h8 : ∀ d, disp (.d8 d) = d.signExtend 32 * BitVec.ofNat 32 n) (h32 : ∀ d, disp (.d32 d) = d) (d : Disp) :
    (dispTerm n d).setWidth 32 = disp d := by
  cases d with
  | absent => exact habsent.symm
  | d8 d => rw [dispTerm, h8, setWidth_mul_ofNat, setWidth_signExtend]
  | d32 d => rw [dispTerm, h32, setWidth_signExtend, BitVec.signExtend_eq]

theorem setWidth_indexTerm (s : State) (x : Bool) (ss : BitVec 2) (iii : BitVec 3) : (indexTerm s x ss iii).setWidth 32 =
    if gprNum x iii = 4#4 then 0#32 else (s.getGpr (gprNum x iii)).setWidth 32 * BitVec.ofNat 32 (2 ^ ss.toNat) := by
  unfold indexTerm
  split
  next => rfl
  next => rw [setWidth_mul_ofNat]

/-- Settles O53: taking the low half commutes with each sum and product of the formula. -/
theorem addressSizePrefixFormula : Obligations.AddressSizePrefixFormula := by
  intro s pfx x b n len next base low disp index h67 hbase hlow habsent h8 h32 hindex
  have hd := setWidth_dispTerm habsent h8 h32
  have hd32 (d : BitVec 32) : (d.signExtend 64).setWidth 32 = d := by rw [setWidth_signExtend, BitVec.signExtend_eq]
  have hi (ss : BitVec 2) (iii : BitVec 3) : (indexTerm s x ss iii).setWidth 32 = index ss iii := by
    rw [setWidth_indexTerm, hindex, hlow]; rfl
  have hg (r : BitVec 3) : (s.getGpr (gprNum b r)).setWidth 32 = low (BitVec.ofBool b ++ r) := (hlow _).symm
  have hadd (y z : Word64) : (y + z).setWidth 32 = y.setWidth 32 + z.setWidth 32 := BitVec.setWidth_add y z (by decide)
  have hindirect (next) (rm : BitVec 3) (d : Disp) :
      effAddr s pfx x b n next (.indirect rm d) = (low (BitVec.ofBool b ++ rm) + disp d).setWidth 64 := by
    rw [effAddr_of_addrSize h67, ea64, hadd, hg, hd]
  have hrip (next) (d : BitVec 32) : effAddr s pfx x b n next (.ripRel d) = (next.setWidth 32 + d).setWidth 64 := by
    rw [effAddr_of_addrSize h67, ea64, hadd, hd32]
  have hsib (next) (ss iii bbb) (d : Disp) : effAddr s pfx x b n next (.sib ss iii bbb d) =
      (low (BitVec.ofBool b ++ bbb) + index ss iii + disp d).setWidth 64 := by
    rw [effAddr_of_addrSize h67, ea64, hadd, hadd, hg, hi, hd]
  have hsibNoBase (next) (ss iii) (d : BitVec 32) :
      effAddr s pfx x b n next (.sibNoBase ss iii d) = (index ss iii + d).setWidth 64 := by
    rw [effAddr_of_addrSize h67, ea64, hadd, hi, hd32]
  exact ⟨hindirect next, hrip next, hsib next, hsibNoBase next, fun rm d => memRef_la hbase (hindirect _ rm d),
    fun d => memRef_la hbase (hrip _ d), fun ss iii bbb d => memRef_la hbase (hsib _ ss iii bbb d),
    fun ss iii d => memRef_la hbase (hsibNoBase _ ss iii d), memRef_ssRel_iff s pfx x b n len⟩

/-! ### The operand of every instruction -/

theorem legacy_operandRef {e : LegacyEnc} {m : MemForm} (h : e.rm = .mem m) (s : State) {i : Instr}
    (hi : i ∈ [Instr.psubsbMm e, Instr.psubsbXmm e, Instr.psubswMm e, Instr.psubswXmm e]) :
    operandRef i s = some (memRef s e.pfx (rexX e.rex) (rexB e.rex) 1 i.len m) := by
  simp only [List.mem_cons, List.not_mem_nil, or_false] at hi
  obtain rfl | rfl | rfl | rfl := hi <;> exact operandOf_mem h _

theorem vex3_operandRef {e : Vex3Enc} {m : MemForm} (h : e.rm = .mem m) (s : State) {i : Instr}
    (hi : i ∈ [Instr.vpsubsbXmmVex3 e, Instr.vpsubswXmmVex3 e, Instr.vpsubsbYmmVex3 e, Instr.vpsubswYmmVex3 e]) :
    operandRef i s = some (memRef s e.pfx e.x e.b 1 i.len m) := by
  simp only [List.mem_cons, List.not_mem_nil, or_false] at hi
  obtain rfl | rfl | rfl | rfl := hi <;> exact operandOf_mem h _

theorem vex2_operandRef {e : Vex2Enc} {m : MemForm} (h : e.rm = .mem m) (s : State) {i : Instr}
    (hi : i ∈ [Instr.vpsubsbXmmVex2 e, Instr.vpsubswXmmVex2 e, Instr.vpsubsbYmmVex2 e, Instr.vpsubswYmmVex2 e]) :
    operandRef i s = some (memRef s e.pfx false false 1 i.len m) := by
  simp only [List.mem_cons, List.not_mem_nil, or_false] at hi
  obtain rfl | rfl | rfl | rfl := hi <;> exact operandOf_mem h _

theorem evex_operandRef {e : EvexEnc} {m : MemForm} (h : e.rm = .mem m) (s : State) {p : Instr × Nat}
    (hp : p ∈ [(Instr.vpsubsbXmmEvex e, 16), (Instr.vpsubswXmmEvex e, 16), (Instr.vpsubsbYmmEvex e, 32),
      (Instr.vpsubswYmmEvex e, 32), (Instr.vpsubsbZmmEvex e, 64), (Instr.vpsubswZmmEvex e, 64)]) :
    operandRef p.1 s = some (memRef s e.pfx e.x e.b p.2 p.1.len m) := by
  simp only [List.mem_cons, List.not_mem_nil, or_false] at hp
  obtain rfl | rfl | rfl | rfl | rfl | rfl := hp <;> exact operandOf_mem h _

/-- Settles O52: the formula of each form as it stands, then the operand of each family. -/
theorem linearAddressOfEachForm : Obligations.LinearAddressOfEachForm := by
  intro s pfx x b n len base disp index h67 _ hbase habsent h8 h32 hindex
  have hd := dispTerm_eq habsent h8 h32
  have hi (ss : BitVec 2) (iii : BitVec 3) : indexTerm s x ss iii = index ss iii := (hindex ss iii).symm
  have hea (next : Word64) (m : MemForm) : effAddr s pfx x b n next m = ea64 s x b n next m := if_neg (Bool.eq_false_iff.1 h67)
  refine ⟨fun rm d => memRef_la hbase ?_, fun d => memRef_la hbase (hea _ _), fun ss iii bbb d => memRef_la hbase ?_,
    fun ss iii d => memRef_la hbase ?_, memRef_ssRel_iff s pfx x b n len, ?_, ?_, ?_, fun e m h i => legacy_operandRef h s,
    fun e m h i => vex3_operandRef h s, fun e m h i => vex2_operandRef h s, fun e m h p => evex_operandRef h s⟩
  · rw [hea, ea64, hd]; rfl
  · rw [hea, ea64, hd, hi]; rfl
  · rw [hea, ea64, hi]
  · rintro e m rfl rfl rfl rfl; rfl
  · rintro e m rfl rfl rfl; rfl
  · rintro e m rfl rfl rfl rfl; rfl

end Sys2Proof.Machine
end

section
/-! The legacy forms when they complete (40_legacy_mmx_sse.md R100 to R105): the result lane by lane, the bits above it, the frame
and pc, for any lane function. -/

namespace Sys2Proof.Machine

/-! ### The packed result -/

/-- PSubS is its lane function on every element the vector has room for (R101). -/
theorem lanewise_psubs {n w : Nat} (sub : BitVec n → BitVec n → BitVec n) (a b : BitVec w) : Lanewise sub (psubs sub a b) a b :=
  fun j hj => lane_pack w _ j hj

/-- Settles O6: the slices of the statement are the lanes. -/
theorem packedSubtractionActsOnEverySlice : Obligations.PackedSubtractionActsOnEverySlice :=
  fun _ _ a b => ⟨lanewise_psubs subSB a b, lanewise_psubs subSW a b⟩

/-! ### The frames -/

/-- The one register write of an MMX form, then x87 state unknown. -/
theorem mmxFrame_setMm (s : State) (d : BitVec 3) (x : Word64) (len : Nat) :
    MmxFrame d s (((s.setMm d x).havocX87).retire len) where
  untouched := untouched_registers ..
  v := rfl
  others i hi := by rw [getMm_retire, getMm_havocX87, getMm_setMm_other s d i x hi]

/-- The one register write of every other form. -/
theorem vecFrame_setV (s : State) (d : BitVec 5) (x : VecWord) (len : Nat) : VecFrame d s ((s.setV d x).retire len) where
  untouched := untouched_registers ..
  mm := rfl
  x87High := rfl
  x87Tag := rfl
  x87Status := rfl
  others i hi := by rw [getV_retire, getV_setV_other s d i x hi]

/-! ### Completion -/

section
variable {n : Nat} (sub : BitVec n → BitVec n → BitVec n) {e : LegacyEnc} {s : State}

theorem execMmx_result {b : BitVec 64} (hr : MmxReady s) (hb : MmxOperand e s b) :
    ∃ t, execMmx sub e s = .next t ∧ Lanewise sub (t.getMm e.reg) (s.getMm e.reg) b ∧ MmxFrame e.reg s t ∧
      t.pc = s.nextPc e.len := by
  refine ⟨_, execMmx_completes sub e s b hr hb, ?_, mmxFrame_setMm .., ?_⟩
  · rw [getMm_retire, getMm_havocX87, getMm_setMm_same]
    exact lanewise_psubs sub _ b
  · rw [retire_pc, nextPc_havocX87, nextPc_setMm]

theorem execXmm_result {b : BitVec 128} {d : BitVec 5} (hr : XmmReady s) (hb : XmmOperand e s b)
    (hd : d = xmmNum (rexR e.rex) e.reg) :
    ∃ t, execXmm sub e s = .next t ∧ Lanewise sub (t.readVec 128 d) (s.readVec 128 d) b ∧ UpperKept d s t ∧ VecFrame d s t ∧
      t.pc = s.nextPc e.len := by
  subst hd
  refine ⟨_, execXmm_completes sub e s b hr hb, ?_, ?_, vecFrame_setV .., ?_⟩
  · rw [readVec_retire, readVec_writeXmmKeep_same]
    exact lanewise_psubs sub _ b
  · rw [UpperKept, getV_retire, upper_writeXmmKeep_same]
  · rw [retire_pc, nextPc_writeXmmKeep]

end

/-- Settles O8, with the byte lane function. -/
theorem psubsbMmResult : Obligations.PsubsbMmResult := fun _ _ _ => execMmx_result subSB

/-- Settles O9, with the word lane function. -/
theorem psubswMmResult : Obligations.PsubswMmResult := fun _ _ _ => execMmx_result subSW

/-- Settles O10, with the byte lane function. -/
theorem psubsbXmmResult : Obligations.PsubsbXmmResult := fun _ _ _ _ => execXmm_result subSB

/-- Settles O11, with the word lane function. -/
theorem psubswXmmResult : Obligations.PsubswXmmResult := fun _ _ _ _ => execXmm_result subSW

end Sys2Proof.Machine
end

section
/-! The VEX forms when they complete (41_vex.md R110 to R115), for any lane function, either width and either spelling; then
VEX.128 beside the legacy form (R116). -/

namespace Sys2Proof.Machine

/-- A lanewise result is the only one where the elements fill the vector. -/
theorem Lanewise.unique {n w : Nat} {sub : BitVec n → BitVec n → BitVec n} {r r' a b : BitVec w} (hn : 0 < n)
    (hw : w / n * n = w) (h : Lanewise sub r a b) (h' : Lanewise sub r' a b) : r = r' :=
  eq_of_lanes hn hw r r' fun j hj => (h j hj).trans (h' j hj).symm

section
variable {n : Nat} (sub : BitVec n → BitVec n → BitVec n) {s : State} {d : BitVec 5}

/-! ### Completion -/

/-- `len` is the length of the spelling: the two-byte one runs on `vex2Fields` (30_encoding.md R73). -/
theorem execVex_result (l : Bool) {e : Vex3Enc} {len : Nat} {b : BitVec (vexWidth l)}
    (hr : if l then Vex256Ready s else Vex128Ready s) (hb : VexOperand e len s b) (hd : d = xmmNum e.r e.reg) :
    ∃ t, execVex sub l e len s = .next t ∧
      Lanewise sub (t.readVec (vexWidth l) d) (s.readVec (vexWidth l) (vvvvNum e.vvvv)) b ∧
      UpperZero (vexWidth l) d t ∧ VecFrame d s t ∧ t.pc = s.nextPc len := by
  subst hd
  refine ⟨_, execVex_completes sub l e len s b hr hb, ?_, fun i hi => ?_, vecFrame_setV .., ?_⟩
  · rw [readVec_retire, readVec_writeVecZero_same _ _ (by cases l <;> decide)]
    exact lanewise_psubs sub _ b
  · rw [getV_retire, upper_writeVecZero_same _ _ _ _ _ hi]
  · rw [retire_pc, nextPc_writeVecZero]

/-! ### Beside the legacy form -/

/-- The legacy form subtracts from its destination; so do both VEX spellings where `vvvv` names the destination (R116). -/
theorem execXmm_agrees_execVex (hn : 0 < n) (hw : 128 / n * n = 128) {e : LegacyEnc} {v v' : Vex3Enc} {len len' : Nat}
    {b : BitVec 128} (hx : XmmReady s) (hr : Vex128Ready s) (he : XmmOperand e s b) (hv : VexOperand v len s b)
    (hv' : VexOperand v' len' s b) (hd : d = xmmNum (rexR e.rex) e.reg) (hvd : xmmNum v.r v.reg = d)
    (hva : vvvvNum v.vvvv = d) (hvd' : xmmNum v'.r v'.reg = d) (hva' : vvvvNum v'.vvvv = d) :
    ∃ t t' t'', execXmm sub e s = .next t ∧ execVex sub false v len s = .next t' ∧
      execVex sub false v' len' s = .next t'' ∧ t.readVec 128 d = t'.readVec 128 d ∧
      t.readVec 128 d = t''.readVec 128 d ∧ UpperKept d s t ∧ UpperZero 128 d t' ∧ UpperZero 128 d t'' := by
  obtain ⟨t, ht, hl, hk, -⟩ := execXmm_result sub hx he hd
  obtain ⟨t', ht', hl', hz', -⟩ := execVex_result sub false hr hv hvd.symm
  obtain ⟨t'', ht'', hl'', hz'', -⟩ := execVex_result sub false hr hv' hvd'.symm
  rw [hva] at hl'
  rw [hva'] at hl''
  exact ⟨t, t', t'', ht, ht', ht'', hl.unique hn hw hl', hl.unique hn hw hl'', hk, hz', hz''⟩

end

/-! ### The statements -/

/-- Settles O12, with the byte lane function at 128 bits in each spelling. -/
theorem vpsubsbXmmVexResult : Obligations.VpsubsbXmmVexResult :=
  ⟨fun _ _ _ _ => execVex_result subSB false, fun _ _ _ _ => execVex_result subSB false⟩

/-- Settles O13, with the word lane function at 128 bits in each spelling. -/
theorem vpsubswXmmVexResult : Obligations.VpsubswXmmVexResult :=
  ⟨fun _ _ _ _ => execVex_result subSW false, fun _ _ _ _ => execVex_result subSW false⟩

/-- Settles O14, with the byte lane function at 256 bits in each spelling. -/
theorem vpsubsbYmmVexResult : Obligations.VpsubsbYmmVexResult :=
  ⟨fun _ _ _ _ => execVex_result subSB true, fun _ _ _ _ => execVex_result subSB true⟩

/-- Settles O15, with the word lane function at 256 bits in each spelling. -/
theorem vpsubswYmmVexResult : Obligations.VpsubswYmmVexResult :=
  ⟨fun _ _ _ _ => execVex_result subSW true, fun _ _ _ _ => execVex_result subSW true⟩

/-- Settles O55: both results are the lanewise difference of the same registers, at 8 and at 16 bits. -/
theorem vexMatchesLegacyBelow128 : Obligations.VexMatchesLegacyBelow128 := by
  intro e v v2 s b d hx hr he hv hv2 hd hvd hva hvd2 hva2
  exact ⟨execXmm_agrees_execVex subSB (by decide) (by decide) hx hr he hv hv2 hd hvd hva hvd2 hva2,
    execXmm_agrees_execVex subSW (by decide) (by decide) hx hr he hv hv2 hd hvd hva hvd2 hva2⟩

end Sys2Proof.Machine
end

section
/-! The EVEX forms when they complete (42_evex.md R120 to R129), for any lane function and vector length, with or without a
writemask; then the unmasked forms beside VEX (R130). -/

namespace Sys2Proof.Machine

section
variable {n : Nat} (sub : BitVec n → BitVec n → BitVec n)

/-! ### The masked result -/

/-- PSubSMask on one element (R122). -/
theorem lane_psubsMask {w : Nat} (old a b : BitVec w) (k : WriteMask) (z : Bool) {j : Nat} (hj : j < w / n) :
    lane n (psubsMask sub old a b k z) j =
      if k.active j then sub (lane n a j) (lane n b j) else if z then 0#n else lane n old j :=
  lane_pack w _ j hj

/-- Without a writemask every element is computed (R122). -/
theorem psubsMask_none {w : Nat} (old a b : BitVec w) (z : Bool) : psubsMask sub old a b none z = psubs sub a b :=
  pack_congr fun _ _ => if_pos rfl

/-- `aaa` = 000b is no writemask, and an active element is one whose bit of K[aaa] is 1 (R121). -/
theorem active_evexMask_iff (e : EvexEnc) (s : State) (j : Nat) :
    (evexMask e s).active j = true ↔ e.aaa = 0#3 ∨ (s.getK e.aaa).getLsbD j = true := by
  by_cases haaa : e.aaa = 0#3 <;> simp [evexMask, haaa, WriteMask.active]

theorem maskedLanewise_psubsMask (e : EvexEnc) (s : State) {w : Nat} (old a b : BitVec w) :
    MaskedLanewise sub e s (psubsMask sub old a b (evexMask e s) e.z) old a b := by
  intro j hj
  rw [lane_psubsMask sub old a b _ _ hj, ← active_evexMask_iff]
  exact ⟨fun hon => if_pos hon, fun hoff hz => (if_neg hoff).trans (if_pos hz),
    fun hoff hz => (if_neg hoff).trans (if_neg (by simp [hz]))⟩

/-! ### Completion -/

variable {e : EvexEnc} {s : State} {d : BitVec 5}

theorem execEvex_result (vl : VecLen) {b : BitVec vl.bits} (hr : EvexReady s vl) (hb : EvexOperand e s b)
    (hd : d = zmmNum e.rHi e.r e.reg) :
    ∃ t, execEvex sub vl e s = .next t ∧
      MaskedLanewise sub e s (t.readVec vl.bits d) (s.readVec vl.bits d) (s.readVec vl.bits (vvvvHiNum e.vHi e.vvvv)) b ∧
      UpperZero vl.bits d t ∧ VecFrame d s t ∧ t.pc = s.nextPc e.len := by
  subst hd
  refine ⟨_, execEvex_completes sub vl e s b hr hb, ?_, fun i hi => ?_, vecFrame_setV .., ?_⟩
  · rw [readVec_retire, readVec_writeVecZero_same _ _ (vecLen_bits_le vl)]
    exact maskedLanewise_psubsMask sub e s _ _ b
  · rw [getV_retire, upper_writeVecZero_same _ _ _ _ _ hi]
  · rw [retire_pc, nextPc_writeVecZero]

/-- At 512 bits the destination has no bit above the result. -/
theorem execEvex_result_zmm {b : BitVec 512} (hr : EvexReady s .vl512) (hb : EvexOperand e s b)
    (hd : d = zmmNum e.rHi e.r e.reg) :
    ∃ t, execEvex sub .vl512 e s = .next t ∧
      MaskedLanewise sub e s (t.readVec 512 d) (s.readVec 512 d) (s.readVec 512 (vvvvHiNum e.vHi e.vvvv)) b ∧
      VecFrame d s t ∧ t.pc = s.nextPc e.len := by
  obtain ⟨t, ht, hlanes, -, hframe, hpc⟩ := execEvex_result sub .vl512 hr hb hd
  exact ⟨t, ht, hlanes, hframe, hpc⟩

/-! ### Beside VEX -/

variable {a : BitVec 5}

/-- With `aaa` = 000b an EVEX form writes what a VEX form of its width would (R130). -/
theorem execEvex_completes_unmasked {vl : VecLen} {w : Nat} {b : BitVec w} (hw : vl.bits = w) (haaa : e.aaa = 0#3)
    (hr : EvexReady s vl) (hb : EvexOperand e s b) (hd : zmmNum e.rHi e.r e.reg = d) (ha : vvvvHiNum e.vHi e.vvvv = a) :
    execEvex sub vl e s = .next ((s.writeVecZero w d (psubs sub (s.readVec w a) b)).retire e.len) := by
  subst hw hd ha
  have hmask : evexMask e s = none := if_pos haaa
  rw [execEvex_completes sub vl e s b hr hb, hmask, psubsMask_none]

/-- `d` and `a` are the destination and the minuend of all three forms. -/
theorem execEvex_agrees_execVex (l : Bool) {vl : VecLen} (hw : vl.bits = vexWidth l) {v v' : Vex3Enc} {len len' : Nat}
    {b : BitVec (vexWidth l)} (haaa : e.aaa = 0#3) (hx : if l then Vex256Ready s else Vex128Ready s) (hr : EvexReady s vl)
    (he : EvexOperand e s b) (hv : VexOperand v len s b) (hv' : VexOperand v' len' s b)
    (hd : zmmNum e.rHi e.r e.reg = d) (ha : vvvvHiNum e.vHi e.vvvv = a) (hvd : xmmNum v.r v.reg = d)
    (hva : vvvvNum v.vvvv = a) (hvd' : xmmNum v'.r v'.reg = d) (hva' : vvvvNum v'.vvvv = a) :
    ∃ t t' t'', execEvex sub vl e s = .next t ∧ execVex sub l v len s = .next t' ∧ execVex sub l v' len' s = .next t'' ∧
      t.v = t'.v ∧ t.v = t''.v := by
  refine ⟨_, _, _, execEvex_completes_unmasked sub hw haaa hr he hd ha, execVex_completes sub l v len s b hx hv,
    execVex_completes sub l v' len' s b hx hv', ?_, ?_⟩
  · rw [hvd, hva, retire_v, retire_v]
  · rw [hvd', hva', retire_v, retire_v]

end

/-! ### The statements -/

/-- Settles O7: the slices of the statement are the lanes, and a present mask's element is active where its bit is 1. -/
theorem maskedSubtractionActsOnEverySlice : Obligations.MaskedSubtractionActsOnEverySlice :=
  fun _ _ old a b m z => ⟨fun _ => lane_psubsMask subSB old a b (some m) z, fun _ => lane_psubsMask subSW old a b (some m) z,
    psubsMask_none subSB old a b z, psubsMask_none subSW old a b z⟩

/-- Settles O16, with the byte lane function at 128 bits. -/
theorem vpsubsbXmmEvexResult : Obligations.VpsubsbXmmEvexResult := fun _ _ _ _ => execEvex_result subSB .vl128

/-- Settles O17, with the byte lane function at 256 bits. -/
theorem vpsubsbYmmEvexResult : Obligations.VpsubsbYmmEvexResult := fun _ _ _ _ => execEvex_result subSB .vl256

/-- Settles O18, with the byte lane function at 512 bits. -/
theorem vpsubsbZmmEvexResult : Obligations.VpsubsbZmmEvexResult := fun _ _ _ _ => execEvex_result_zmm subSB

/-- Settles O19, with the word lane function at 128 bits. -/
theorem vpsubswXmmEvexResult : Obligations.VpsubswXmmEvexResult := fun _ _ _ _ => execEvex_result subSW .vl128

/-- Settles O20, with the word lane function at 256 bits. -/
theorem vpsubswYmmEvexResult : Obligations.VpsubswYmmEvexResult := fun _ _ _ _ => execEvex_result subSW .vl256

/-- Settles O21, with the word lane function at 512 bits. -/
theorem vpsubswZmmEvexResult : Obligations.VpsubswZmmEvexResult := fun _ _ _ _ => execEvex_result_zmm subSW

/-- Settles O54: below 16 the EVEX register numbers are the VEX ones, and all three forms write the same PSubS. -/
theorem unmaskedEvexMatchesVex : Obligations.UnmaskedEvexMatchesVex := by
  intro e v v2 s haaa hrHi hvHi hr hvvvv hreg hr2 hvvvv2 hreg2
  have hd : zmmNum e.rHi e.r e.reg = xmmNum e.r e.reg := by rw [hrHi]; rfl
  have ha : vvvvHiNum e.vHi e.vvvv = vvvvNum e.vvvv := by rw [hvHi]; rfl
  have hvd : xmmNum v.r v.reg = xmmNum e.r e.reg := by rw [hr, hreg]
  have hva : vvvvNum v.vvvv = vvvvNum e.vvvv := by rw [hvvvv]
  have hvd2 : xmmNum (vex2Fields v2).r (vex2Fields v2).reg = xmmNum e.r e.reg := congrArg₂ xmmNum hr2 hreg2
  have hva2 : vvvvNum (vex2Fields v2).vvvv = vvvvNum e.vvvv := congrArg vvvvNum hvvvv2
  constructor
  · intro b hx hready he hv hv2
    exact ⟨execEvex_agrees_execVex subSB false rfl haaa hx hready he hv hv2 hd ha hvd hva hvd2 hva2,
      execEvex_agrees_execVex subSW false rfl haaa hx hready he hv hv2 hd ha hvd hva hvd2 hva2⟩
  · intro b hx hready he hv hv2
    exact ⟨execEvex_agrees_execVex subSB true rfl haaa hx hready he hv hv2 hd ha hvd hva hvd2 hva2,
      execEvex_agrees_execVex subSW true rfl haaa hx hready he hv hv2 hd ha hvd hva hvd2 hva2⟩

end Sys2Proof.Machine
end

section
/-! The checks before an operand is read (60_exceptions.md R144, R145, R147, in the order of 92_eei_decisions.md D16): what makes a
gate raise #UD, #NM or #MF; an instruction whose gate raises an exception ends with it. -/

namespace Sys2Proof.Machine

/-! ### What the gates raise -/

theorem mmxGate_ud {s : State} (h : s.features.mmx = false ∨ s.enabled.cr0Em = true) : mmxGate s = some .ud := by
  have hunusable : s.mmxUsable = false := by
    simpa only [State.mmxUsable, Bool.and_eq_false_iff, Bool.not_eq_false'] using h
  simp [mmxGate, hunusable]

theorem mmxGate_of_usable {s : State} (hmmx : s.features.mmx = true) (hem : s.enabled.cr0Em = false) : mmxGate s =
    if s.enabled.cr0Ts then some .nm else if s.enabled.x87ExceptionPending then some .mf else none := by
  simp [mmxGate, State.mmxUsable, hmmx, hem]

theorem vectorGate_ud {usable : Bool} {s : State} (h : usable = false) : vectorGate usable s = some .ud := by
  simp [vectorGate, h]

theorem vectorGate_nm {usable : Bool} {s : State} (h : usable = true) (hts : s.enabled.cr0Ts = true) :
    vectorGate usable s = some .nm := by
  simp [vectorGate, h, hts]

/-! ### An instruction its gate stops -/

section
variable {n : Nat} (sub : BitVec n → BitVec n → BitVec n) {s : State} {x : Exception}

theorem execMmx_of_gate {e : LegacyEnc} (h : mmxGate s = some x) : execMmx sub e s = raise x s := by
  rw [execMmx, h]

theorem execXmm_of_gate {e : LegacyEnc} (h : vectorGate s.sseUsable s = some x) : execXmm sub e s = raise x s := by
  rw [execXmm, h]

theorem execVex_of_gate {l : Bool} {e : Vex3Enc} {len : Nat} (h : vectorGate (s.vexUsable l) s = some x) :
    execVex sub l e len s = raise x s := by
  rw [execVex, h]

theorem execEvex_of_gate {vl : VecLen} {e : EvexEnc} (h : vectorGate (s.evexUsable vl) s = some x) :
    execEvex sub vl e s = raise x s := by
  rw [execEvex, h]

end

/-! ### The statements -/

/-- Settles O22: both rows run `execMmx`, whose gate checks in this order. -/
theorem mmxFormsCheckInOrder : Obligations.MmxFormsCheckInOrder := by
  intro e s i hi
  have hgate (x : Exception) (h : mmxGate s = some x) : exec i s = raise x s := by
    simp only [List.mem_cons, List.not_mem_nil, or_false] at hi
    obtain rfl | rfl := hi
    · exact execMmx_of_gate subSB h
    · exact execMmx_of_gate subSW h
  refine ⟨fun h => hgate .ud (mmxGate_ud h), fun hmmx hem hts => hgate .nm ?_, fun hmmx hem hts hpending => hgate .mf ?_⟩
  · rw [mmxGate_of_usable hmmx hem, if_pos hts]
  · rw [mmxGate_of_usable hmmx hem, hts, hpending]
    rfl

/-- Settles O23: both rows run `execXmm`, whose gate asks for SSE2, CR0.EM = 0 and CR4.OSFXSR = 1. -/
theorem xmmLegacyFormsCheckInOrder : Obligations.XmmLegacyFormsCheckInOrder := by
  intro e s i hi
  have hgate (x : Exception) (h : vectorGate s.sseUsable s = some x) : exec i s = raise x s := by
    simp only [List.mem_cons, List.not_mem_nil, or_false] at hi
    obtain rfl | rfl := hi
    · exact execXmm_of_gate subSB h
    · exact execXmm_of_gate subSW h
  refine ⟨fun h => hgate .ud (vectorGate_ud ?_), fun hsse hem hfxsr hts => hgate .nm (vectorGate_nm ?_ hts)⟩
  · simpa only [State.sseUsable, Bool.and_eq_false_iff, Bool.not_eq_false', or_assoc] using h
  · simp [State.sseUsable, hsse, hem, hfxsr]

/-- Settles O24: the eight spellings run `execVex`, whose gate asks for the feature of its width and the AVX state. -/
theorem vexFormsCheckInOrder : Obligations.VexFormsCheckInOrder := by
  intro e e2 s feature i hi
  have hgate : ∃ l, s.vexUsable l = (feature && s.avxEnabled) ∧
      ∀ x, vectorGate (s.vexUsable l) s = some x → exec i s = raise x s := by
    simp only [List.mem_cons, List.not_mem_nil, or_false] at hi
    obtain ⟨rfl | rfl | rfl | rfl, rfl⟩ | ⟨rfl | rfl | rfl | rfl, rfl⟩ := hi
    · exact ⟨false, rfl, fun x => execVex_of_gate subSB⟩
    · exact ⟨false, rfl, fun x => execVex_of_gate subSW⟩
    · exact ⟨false, rfl, fun x => execVex_of_gate subSB⟩
    · exact ⟨false, rfl, fun x => execVex_of_gate subSW⟩
    · exact ⟨true, rfl, fun x => execVex_of_gate subSB⟩
    · exact ⟨true, rfl, fun x => execVex_of_gate subSW⟩
    · exact ⟨true, rfl, fun x => execVex_of_gate subSB⟩
    · exact ⟨true, rfl, fun x => execVex_of_gate subSW⟩
  obtain ⟨l, husable, hraise⟩ := hgate
  refine ⟨fun h => hraise .ud (vectorGate_ud ?_), fun hf hos hsse havx hts => hraise .nm (vectorGate_nm ?_ hts)⟩
  · simpa only [husable, State.avxEnabled, Bool.and_eq_false_iff, or_assoc] using h
  · simp [husable, State.avxEnabled, hf, hos, hsse, havx]

/-- Settles O25: the six rows run `execEvex`, whose gate asks for the features of its length and the AVX-512 state. -/
theorem evexFormsCheckInOrder : Obligations.EvexFormsCheckInOrder := by
  intro e s feature i hi
  have hgate : ∃ vl, s.evexUsable vl = (feature && s.avx512Enabled) ∧
      ∀ x, vectorGate (s.evexUsable vl) s = some x → exec i s = raise x s := by
    simp only [List.mem_cons, List.not_mem_nil, or_false] at hi
    obtain ⟨rfl | rfl | rfl | rfl, rfl⟩ | ⟨rfl | rfl, rfl⟩ := hi
    · exact ⟨.vl128, rfl, fun x => execEvex_of_gate subSB⟩
    · exact ⟨.vl256, rfl, fun x => execEvex_of_gate subSB⟩
    · exact ⟨.vl128, rfl, fun x => execEvex_of_gate subSW⟩
    · exact ⟨.vl256, rfl, fun x => execEvex_of_gate subSW⟩
    · exact ⟨.vl512, rfl, fun x => execEvex_of_gate subSB⟩
    · exact ⟨.vl512, rfl, fun x => execEvex_of_gate subSW⟩
  obtain ⟨vl, husable, hraise⟩ := hgate
  refine ⟨fun h => hraise .ud (vectorGate_ud ?_),
    fun hf hos hsse havx hmask hzmm hhi hts => hraise .nm (vectorGate_nm ?_ hts)⟩
  · simpa only [husable, State.avx512Enabled, State.avxEnabled, Bool.and_eq_false_iff, or_assoc] using h
  · simp [husable, State.avx512Enabled, State.avxEnabled, hf, hos, hsse, havx, hmask, hzmm, hhi]

end Sys2Proof.Machine
end

section
/-! The exceptions of a memory operand (60_exceptions.md R143, R146, R148) and the state any exception leaves (R152). -/

namespace Sys2Proof.Machine

open Sys2Proof.Config

variable {xmm mmx : Bool} {n : Nat} {i : Instr} {s t : State} {r : MemRef} {x : Exception}

/-! ### #AC(0) on a VEX or EVEX operand -/

theorem families_of_isVexOrEvexForm (h : isVexOrEvexForm i = true) : isXmmLegacyForm i = false ∧ isMmxForm i = false := by
  simpa [isVexOrEvexForm, and_comm] using h

/-- An instruction that passes its gate completes if its memory operand lets it go on. -/
theorem exec_of_operandGoes (hready : Ready i s) (href : operandRef i s = some r)
    (hgoes : OperandGoes (isXmmLegacyForm i) (isMmxForm i) (operandBytes i) s r) : ∃ t, exec i s = .next t := by
  obtain ⟨-, -, hnext⟩ | ⟨hnot, -⟩ | ⟨-, r', st, href', -, hstop⟩ := exec_outcomes i s
  · exact hnext
  · exact absurd hready hnot
  · rw [href, Option.some.injEq] at href'
    subst href'
    exact absurd hgoes hstop.not_goes

/-- Settles O28: the free Boolean decides whether the operand stops the instruction or lets it go on. -/
theorem unalignedVectorOperandEitherWay : Obligations.UnalignedVectorOperandEitherWay := by
  intro i s r hform hready href hread hac hmis
  obtain ⟨hxmm, hmmx⟩ := families_of_isVexOrEvexForm hform
  constructor
  · intro hfree
    exact exec_of_operandStops hready href (.inr (.inr (.inr ⟨hxmm, hread, hac, hmis, fun _ => hfree, rfl⟩)))
  · intro hfree
    exact exec_of_operandGoes hready href ⟨fun h => by simp [hxmm] at h, hread, fun _ _ _ => ⟨hmmx, hfree⟩⟩

/-! ### What a memory operand raises -/

/-- The exceptions a memory operand raises; a #PF is the environment's verdict on a canonical operand. -/
theorem OperandStops.exc_cases (h : OperandStops xmm mmx n s r (.exc x)) :
    x = .gp ∨ x = .ss ∨
      (∃ given addr, x = .pf (pfCode .read s.cpl given) addr ∧ s.canonicalRange r.la.toNat n = true ∧
        s.memFault r.la.toNat n .read = some (.exc x)) ∨
      (x = .ac ∧ xmm = false ∧ s.alignmentCheck = true) := by
  obtain ⟨-, -, ⟨⟩⟩ | ⟨-, -, ⟨⟩⟩ | ⟨-, hc, hf⟩ | ⟨hxmm, -, hac, -, -, ⟨⟩⟩ := h
  · exact .inl rfl
  · cases r.ssRel with
    | false => exact .inl rfl
    | true => exact .inr (.inl rfl)
  · obtain ⟨⟨⟩⟩ | ⟨⟨⟩⟩ | ⟨given, addr, ⟨⟩⟩ | ⟨⟨⟩⟩ := memFault_cases s _ n .read _ hf
    · exact .inl rfl
    · exact .inr (.inl rfl)
    · exact .inr (.inr (.inl ⟨given, addr, rfl, hc, hf⟩))
  · exact .inr (.inr (.inr ⟨rfl, hxmm, hac⟩))

theorem operandRef_of_isReg (h : (instrRegMem i).isReg = true) : operandRef i s = none := by
  have hnone {rm : RegMem} (ref : MemForm → MemRef) (hrm : rm.isReg = true) : operandOf rm ref = none := by
    cases rm with
    | reg => rfl
    | mem => cases hrm
  cases i <;> exact hnone _ h

/-- Settles O33: a gate raises #UD, #NM or #MF, and a memory operand raises none of these. -/
theorem exceptionsOfEachRow : Obligations.ExceptionsOfEachRow := by
  intro i s t x h
  obtain ⟨-, (rfl | rfl | ⟨rfl, hmmx, hpending⟩) | ⟨r, href, hstop⟩⟩ := exec_raised_cases i s t x h
  · exact ⟨nofun, nofun, fun _ => .inl rfl⟩
  · exact ⟨nofun, nofun, fun _ => .inr (.inl rfl)⟩
  · exact ⟨fun _ => ⟨hmmx, hpending⟩, nofun, fun _ => .inr (.inr rfl)⟩
  · have hmem : ¬(instrRegMem i).isReg = true := fun hreg => by simp [operandRef_of_isReg hreg] at href
    obtain rfl | rfl | ⟨code, addr, rfl, -⟩ | ⟨rfl, hac⟩ := hstop.exc_cases
    · exact ⟨nofun, nofun, fun hreg => absurd hreg hmem⟩
    · exact ⟨nofun, nofun, fun hreg => absurd hreg hmem⟩
    · exact ⟨nofun, nofun, fun hreg => absurd hreg hmem⟩
    · exact ⟨nofun, fun _ => hac, fun hreg => absurd hreg hmem⟩

/-! ### The code and the address of a #PF -/

/-- 60_exceptions.md R143: the bits of a read's #PF code that the spec fixes. -/
theorem pfCode_read_bits (cpl : BitVec 2) (given : BitVec 32) : (pfCode .read cpl given).getLsbD 1 = false ∧
    (pfCode .read cpl given).getLsbD 2 = (cpl == 3#2) ∧ (pfCode .read cpl given).getLsbD 4 = false := by
  by_cases hcpl : cpl = 3#2
  · simp [pfCode, hcpl]
  · simp [pfCode, hcpl]

theorem le_of_canonicalRange {a : Nat} (h : s.canonicalRange a n = true) : a + n ≤ 2 ^ 64 := by
  have hhalf : 2 ^ halfBits s.vaWidth ≤ 2 ^ 64 := by cases s.vaWidth <;> decide
  simp only [State.canonicalRange, Bool.or_eq_true, Bool.and_eq_true, decide_eq_true_eq] at h
  omega

theorem operandBytes_pos (i : Instr) : 0 < operandBytes i := by
  cases i <;> exact Nat.succ_pos _

/-- Settles O31: a #PF of an instruction is the environment's verdict on its operand. -/
theorem pageFaultCodeAndCr2 : Obligations.PageFaultCodeAndCr2 := by
  intro i s t code addr h
  obtain ⟨ht, hgate | ⟨r, href, hstop⟩⟩ := exec_raised_cases i s t _ h
  · simp at hgate
  obtain ⟨⟨⟩⟩ | ⟨⟨⟩⟩ | ⟨given, addr', ⟨⟩, hc, hf⟩ | ⟨⟨⟩, -⟩ := hstop.exc_cases
  obtain ⟨hbit1, hbit2, hbit4⟩ := pfCode_read_bits s.cpl given
  exact ⟨hbit1, hbit2, hbit4, ht, r, href,
    memFault_pf_addr s _ _ .read _ addr (operandBytes_pos i) (le_of_canonicalRange hc) hf⟩

/-! ### The state after an exception -/

/-- 60_exceptions.md R152: an exception writes CR2 at most, and only a #PF does. -/
theorem afterException_precise (s : State) (x : Exception) : (s.afterException x).pc = s.pc ∧
    s.afterException x = { s with cr2 := (s.afterException x).cr2 } ∧
    ((∀ code addr, x ≠ .pf code addr) → s.afterException x = s) := by
  cases x with
  | pf code addr => exact ⟨rfl, rfl, fun h => absurd rfl (h code addr)⟩
  | ud | nm | ss | gp | mf | ac => exact ⟨rfl, rfl, fun _ => rfl⟩

theorem raise_fault {y : Exception} (h : raise y s = .fault (.raised x t)) : t = s.afterException x :=
  (stop_fault (.exc y) s t x h).2

/-- A whole step that raises an exception leaves the state that exception leaves, be it raised by the fetch, by the decoder or by
the instruction. -/
theorem step_raised_state (h : step s = .fault (.raised x t)) : t = s.afterException x := by
  by_cases hmode : s.mode = .long64
  · rw [step_of_long64 hmode] at h
    cases hd : decode s.fetch.1 with
    | instr i =>
      rw [hd] at h
      exact (exec_raised_cases i s t x h).1
    | invalid =>
      rw [hd] at h
      exact raise_fault h
    | refused why =>
      rw [hd] at h
      cases h
    | truncated =>
      rw [hd, stepDecoded] at h
      cases hf : s.fetch.2 with
      | none =>
        rw [stepTruncated_of_none hf] at h
        exact raise_fault h
      | some st =>
        rw [stepTruncated_of_stop hf] at h
        exact (stop_fault st s t x h).2
  · rw [step_of_other_mode hmode] at h
    cases h

/-- Settles O32: an exception of an instruction or of a step leaves the state `afterException` gives. -/
theorem exceptionsArePrecise : Obligations.ExceptionsArePrecise := by
  constructor
  · intro i s t x h
    obtain ⟨rfl, -⟩ := exec_raised_cases i s t x h
    exact afterException_precise s x
  · intro s t x h
    obtain rfl := step_raised_state h
    exact afterException_precise s x

end Sys2Proof.Machine
end
